-- ==== Sys2Proof/Word.lean ====
section
/-! DEFINITION. The word types of the GFRS core: the 32-bit register and PMEM word, and the 16-bit table entry. -/

namespace Sys2Proof

/-- A register, an operand, a command word or a PMEM word: 32 bits (00_scope.md R6, 20_memory.md R80). -/
abbrev Word := BitVec 32

/-- An entry of the EXP or LOG table: 16 bits (10_state.md R36, R37). -/
abbrev Entry := BitVec 16

end Sys2Proof
end

