-- ==== Sys2Proof/Machine/Bus.lean ====
section
/-! DEFINITION. What reaches the block from outside and what it answers: host accesses to the register window, the
schedule's events, and the bus's response (10_state.md R20, 20_memory.md R82, R90; 60_exceptions.md R307). -/

namespace Sys2Proof.Machine

/-- A host access reads, or writes a 32-bit value. -/
inductive BusOp where
  | read
  | write (value : Word)
deriving DecidableEq, Repr

/-- One host access the bus delivers to the window: its byte offset from BASE (12 bits: the window is 4 KiB,
20_memory.md R88), its width in bytes, and what it does. -/
structure BusAccess where
  offset : BitVec 12
  size : Nat
  op : BusOp
deriving DecidableEq, Repr

/-- An aligned 32-bit read or write, the only accesses the window performs (20_memory.md R82). -/
def BusAccess.read (offset : BitVec 12) : BusAccess := ⟨offset, 4, .read⟩

@[inherit_doc BusAccess.read]
def BusAccess.write (offset : BitVec 12) (v : Word) : BusAccess := ⟨offset, 4, .write v⟩

/-- One event of the schedule: a host access, a turn of the engine, or an assertion of the reset input. Their order
is the order in which things happen (20_memory.md R90; 60_exceptions.md R307 leaves it open: it is data here).
Log 6. -/
inductive Event where
  | access (a : BusAccess)
  | engine
  | reset
deriving DecidableEq, Repr

/-- The bus's answer to the last host access. Log 7. -/
inductive BusResp where
  /-- No access has been answered since reset. -/
  | none
  /-- A read was performed and returned this value. -/
  | data (v : Word)
  /-- A write was performed (or dropped by the register it addressed). -/
  | ack
  /-- The access was refused with a bus error (20_memory.md R82). -/
  | error
deriving DecidableEq, Repr

end Sys2Proof.Machine
end

