-- ==== Sys2Proof/Syntax.lean ====
section
/-! DEFINITION. The commands of the GFRS core: one constructor per row of the opcode table (30_encoding.md R113).
A command word carries no operands (R112), so no constructor has an argument: every operand is a latched A[k]. -/

namespace Sys2Proof

/-- The 26 commands (30_encoding.md R113). -/
inductive Instr where
  /-- BUILD, 41_field_engine.md R141. -/
  | build
  /-- MUL, 41_field_engine.md R143. -/
  | mul
  /-- DIV, 41_field_engine.md R144. -/
  | div
  /-- INV, 41_field_engine.md R145. -/
  | inv
  /-- MULEXP, 41_field_engine.md R146. -/
  | mulexp
  /-- DIVEXP, 41_field_engine.md R147. -/
  | divexp
  /-- TOEXP, 41_field_engine.md R148. -/
  | toexp
  /-- TOLOG, 41_field_engine.md R149. -/
  | tolog
  /-- LADD, 42_log_scalar.md R180. -/
  | ladd
  /-- LMUL, 42_log_scalar.md R181. -/
  | lmul
  /-- LDIV, 42_log_scalar.md R182. -/
  | ldiv
  /-- LPOW, 42_log_scalar.md R183. -/
  | lpow
  /-- PXOR, 43_polynomial.md R200. -/
  | pxor
  /-- LADDS, 43_polynomial.md R201. -/
  | ladds
  /-- V2L, 43_polynomial.md R202. -/
  | v2l
  /-- L2V, 43_polynomial.md R203. -/
  | l2v
  /-- LCONV, 43_polynomial.md R204. -/
  | lconv
  /-- VMUL, 43_polynomial.md R205. -/
  | vmul
  /-- LDIFF, 43_polynomial.md R206. -/
  | ldiff
  /-- LSUBST, 43_polynomial.md R207. -/
  | lsubst
  /-- MKGX, 44_generator.md R251. -/
  | mkgx
  /-- MKGXL, 44_generator.md R252. -/
  | mkgxl
  /-- MKENC, 44_generator.md R254. -/
  | mkenc
  /-- MKDEC, 44_generator.md R255. -/
  | mkdec
  /-- SYND, 45_syndrome_forney.md R280. -/
  | synd
  /-- FORNEY, 45_syndrome_forney.md R281. -/
  | forney
deriving DecidableEq, Repr

/-- Every command, in the opcode table's order. -/
def Instr.all : List Instr :=
  [.build, .mul, .div, .inv, .mulexp, .divexp, .toexp, .tolog, .ladd, .lmul, .ldiv, .lpow,
   .pxor, .ladds, .v2l, .l2v, .lconv, .vmul, .ldiff, .lsubst, .mkgx, .mkgxl, .mkenc, .mkdec, .synd, .forney]

end Sys2Proof
end

