-- ==== Sys2Proof/WellFormed.lean ====
section
/-! DEFINITION. Well-formedness. A command has no operands in its word, so every `Instr` is well formed
(30_encoding.md R112); what can be ill formed is a command WORD and a host ACCESS. -/

namespace Sys2Proof

/-- Every command is well formed: it has no field to be out of range (30_encoding.md R112, R114). -/
def Instr.wf (_ : Instr) : Bool := true

/-- The assigned opcodes (30_encoding.md R113): those outside the unassigned ranges that R116 lists. -/
def opAssigned (op : Nat) : Bool :=
  (0x01 ≤ op && op ≤ 0x08) || (0x10 ≤ op && op ≤ 0x13) || (0x20 ≤ op && op ≤ 0x27)
    || (0x30 ≤ op && op ≤ 0x33) || (0x40 ≤ op && op ≤ 0x41)

/-- RSVD, bits 31:8 of a command word, must be 0 (30_encoding.md R112). -/
def reservedClear (c : Word) : Bool := c.toNat / 256 == 0

/-- A command word is well formed when RSVD is 0 and OP is assigned (30_encoding.md R112, R116). -/
def commandWordWf (c : Word) : Bool := reservedClear c && opAssigned (c.toNat % 256)

/-- The window takes only accesses of width 32 bits (20_memory.md R82). -/
def Machine.BusAccess.wordSized (a : Machine.BusAccess) : Bool := a.size == 4

/-- The window takes only byte offsets that are a multiple of 4 (20_memory.md R82). -/
def Machine.BusAccess.aligned (a : Machine.BusAccess) : Bool := a.offset.toNat % 4 == 0

/-- An access the window performs: aligned and 32 bits wide (20_memory.md R82). -/
def Machine.BusAccess.wf (a : Machine.BusAccess) : Bool := a.wordSized && a.aligned

end Sys2Proof
end

