-- ==== Sys2Proof/Decode.lean ====
section
/-! DEFINITION. The decoder (30_encoding.md R112, R113, R116), total on every 32-bit word and rejecting by name, and
the encoder written from the same table. -/

namespace Sys2Proof

/-- Why a command word names no command (30_encoding.md R112); the engine then raises ILLEGAL_CMD(0). -/
inductive DecodeError where
  /-- RSVD, bits 31:8, is not 0. -/
  | reservedBits
  /-- OP, bits 7:0, is not in the table of 30_encoding.md R113. -/
  | unassignedOpcode
deriving DecidableEq, Repr

/-- OP of a command word: bits 7:0 (30_encoding.md R112). -/
def opField (c : Word) : Nat := c.toNat % 256

/-- RSVD of a command word: bits 31:8 (30_encoding.md R112). -/
def rsvdField (c : Word) : Nat := c.toNat / 256

/-- The opcode map of 30_encoding.md R113, read from opcode to command. -/
def decodeOp (op : Nat) : Option Instr :=
  match op with
  | 0x01 => some .build
  | 0x02 => some .mul
  | 0x03 => some .div
  | 0x04 => some .inv
  | 0x05 => some .mulexp
  | 0x06 => some .divexp
  | 0x07 => some .toexp
  | 0x08 => some .tolog
  | 0x10 => some .ladd
  | 0x11 => some .lmul
  | 0x12 => some .ldiv
  | 0x13 => some .lpow
  | 0x20 => some .pxor
  | 0x21 => some .ladds
  | 0x22 => some .v2l
  | 0x23 => some .l2v
  | 0x24 => some .lconv
  | 0x25 => some .vmul
  | 0x26 => some .ldiff
  | 0x27 => some .lsubst
  | 0x30 => some .mkgx
  | 0x31 => some .mkgxl
  | 0x32 => some .mkenc
  | 0x33 => some .mkdec
  | 0x40 => some .synd
  | 0x41 => some .forney
  | _ => none

/-- The decoder: one whole 32-bit word, always exactly one (30_encoding.md R112, R117). -/
def decode (c : Word) : Except DecodeError Instr :=
  if rsvdField c ≠ 0 then .error .reservedBits
  else
    match decodeOp (opField c) with
    | some i => .ok i
    | none => .error .unassignedOpcode

/-- The opcode map of 30_encoding.md R113, read from command to opcode. -/
def Instr.opcode (i : Instr) : BitVec 8 :=
  match i with
  | .build => 0x01
  | .mul => 0x02
  | .div => 0x03
  | .inv => 0x04
  | .mulexp => 0x05
  | .divexp => 0x06
  | .toexp => 0x07
  | .tolog => 0x08
  | .ladd => 0x10
  | .lmul => 0x11
  | .ldiv => 0x12
  | .lpow => 0x13
  | .pxor => 0x20
  | .ladds => 0x21
  | .v2l => 0x22
  | .l2v => 0x23
  | .lconv => 0x24
  | .vmul => 0x25
  | .ldiff => 0x26
  | .lsubst => 0x27
  | .mkgx => 0x30
  | .mkgxl => 0x31
  | .mkenc => 0x32
  | .mkdec => 0x33
  | .synd => 0x40
  | .forney => 0x41

/-- The encoder: OP in bits 7:0, RSVD = 0 (30_encoding.md R112). -/
def encode (i : Instr) : Word := (0#24 ++ i.opcode : BitVec 32)

/-- The word that four byte lanes carry: lane `k` holds bits `[8k+7:8k]` (20_memory.md R83). -/
def wordOfLanes (b0 b1 b2 b3 : BitVec 8) : Word := (b3 ++ b2 ++ b1 ++ b0 : BitVec 32)

/-- Byte lane `k` (0..3) of a 32-bit transfer: bits `[8k+7:8k]` (20_memory.md R83). -/
def byteLane (w : Word) (k : Nat) : BitVec 8 := w.extractLsb' (8 * k) 8

/-- The command the decoder reads from a word whose bits are `w`, of which the opcode table gives `nbits` (every row
of this table has 32); bits at and above `nbits` are 0. A command is one 32-bit word, so more than 32 bits name none
(30_encoding.md R112, R117). -/
def decodeTableWord (nbits w : Nat) : Option Instr :=
  if nbits ≤ 32 then (decode (BitVec.ofNat 32 (w % 2 ^ nbits))).toOption else none

end Sys2Proof
end

