-- ==== Sys2Proof/Config.lean ====
section
/-! DEFINITION. What an implementation fixes (BASE, the reference instance's PMEM_WORDS) and the free values the
spec leaves open (constants without a body: nothing can be proved of their values). -/

namespace Sys2Proof

/-- BASE, the bus address of the 4 KiB register window: an OPEN parameter (00_scope.md R5, 20_memory.md R88;
93_implementation_defined.md P2). Log 7. -/
opaque Config.base : Nat

/-- PMEM_WORDS of the reference instance (00_scope.md R5). PMEM_WORDS itself is an OPEN parameter and is the State
field `param`; this is only the instance that `State.reset` names. DESIGN CHOICE, log 1. -/
def Config.referencePmemWords : Word := 262144

/-- Which `MemRead` a read of PMEM is (20_memory.md R81). A command's rule makes at most one read with a given site and
address, so a site and an address name one read of a running command. -/
inductive ReadSite where
  /-- The host's PDATA read (10_state.md R33). -/
  | host
  /-- The read that an element check makes, in source region number `source` of the command (20_memory.md R86). -/
  | check (source : Nat)
  /-- The read that the computation makes, in source region number `source`, in round `round` of the rule's outer loop
  when each round reads the region again. -/
  | use (source round : Nat)
deriving DecidableEq, Repr

/-- FREE VALUE. What a read of a PMEM word not written since reset returns: a free draw at each read
(70_reset_and_hazards.md R340; 93_implementation_defined.md U2). The arguments are the draw counter `State.tick`, which
read of the running command it is, and the word's address, so that no two reads need agree. Log 2. -/
opaque Config.freeWord : Nat → ReadSite → Nat → Word

/-- FREE VALUE. `EXP[i]` for an entry that no successful BUILD has written, and for an index that the table does not
have (10_state.md R36; 93_implementation_defined.md U1). Log 4, 18. -/
opaque Config.freeExp : Int → Entry

/-- FREE VALUE. `LOG[v]` for an entry that no successful BUILD has written, `LOG[0]` among them, and for an index that
the table does not have (10_state.md R37; 93_implementation_defined.md U1, U3). Log 4, 18. -/
opaque Config.freeLog : Nat → Entry

end Sys2Proof
end

