-- ==== Sys2Proof/Machine/Memory.lean ====
section
/-! DEFINITION. The polynomial memory PMEM (20_memory.md R80, R81): a list of (word address, word) in one canonical
form. The smallest unit any rule accesses is the 32-bit word (R95), so a cell is a word. An address that is not listed
has no value of its own: what a read of it returns is a free draw (Machine/Ops.lean). Log 8. -/

namespace Sys2Proof.Machine

/-- PMEM's written words, by strictly rising word address. -/
abbrev Memory := List (Nat × Word)

/-- The canonical form: addresses strictly rising. (An unlisted address reads as no fixed value, so no listed entry can
equal it.) -/
abbrev Memory.wf (m : Memory) : Prop := m.Pairwise fun c d => c.1 < d.1

/-- Every listed address is below `n` (20_memory.md R80: addresses `0 .. PMEM_WORDS-1`). -/
abbrev Memory.below (n : Nat) (m : Memory) : Prop := ∀ c ∈ m, c.1 < n

/-- The word written at an address, if one was written since reset. -/
def Memory.read : Memory → Nat → Option Word
  | [], _ => none
  | (b, w) :: rest, a => if b = a then some w else Memory.read rest a

/-- `MemWrite(addr, 1, v)` (20_memory.md R81), keeping the canonical form. -/
def Memory.write : Memory → Nat → Word → Memory
  | [], a, v => [(a, v)]
  | (b, w) :: rest, a, v =>
    if a < b then (a, v) :: (b, w) :: rest
    else if a = b then (a, v) :: rest
    else (b, w) :: Memory.write rest a v

/-- The memory after every cell of the list is written, the first of the list last. A command's output cells have
distinct addresses, so the order does not matter. -/
def Memory.writeCells (m : Memory) (cells : List (Nat × Word)) : Memory :=
  cells.foldr (fun c acc => acc.write c.1 c.2) m

end Sys2Proof.Machine
end

