-- ==== Sys2Proof/Machine/Table.lean ====
section
/-! DEFINITION. The internal table RAMs (10_state.md R36, R37; 20_memory.md R87) as plain data: a binary tree over the
bits of the index, least significant bit first, in which an index never written has no entry. Log 5. -/

namespace Sys2Proof.Machine

/-- A RAM of 16-bit entries: `blank` holds no entry, `leaf` one, `node` the even-indexed and the odd-indexed half. -/
inductive Table where
  | blank
  | leaf (e : Entry)
  | node (even odd : Table)
deriving DecidableEq, Repr

/-- The even-indexed half of a RAM. -/
def Table.even (t : Table) : Table :=
  match t with
  | .node l _ => l
  | _ => .blank

/-- The odd-indexed half of a RAM. -/
def Table.odd (t : Table) : Table :=
  match t with
  | .node _ r => r
  | _ => .blank

/-- The entry at index `i` of a RAM whose index has the given number of bits, if one was written. -/
def Table.read : Nat → Table → Nat → Option Entry
  | 0, .leaf e, _ => some e
  | 0, _, _ => none
  | bits + 1, t, i => if i % 2 = 0 then Table.read bits t.even (i / 2) else Table.read bits t.odd (i / 2)

/-- The entry at index `i`, if the RAM has that index and it was written: an index that needs more bits names no
entry. -/
def Table.entry (bits : Nat) (t : Table) (i : Nat) : Option Entry := if i < 2 ^ bits then Table.read bits t i else none

/-- The RAM after entry `e` is written at index `i`. -/
def Table.write : Nat → Table → Nat → Entry → Table
  | 0, _, _, e => .leaf e
  | bits + 1, t, i, e =>
    if i % 2 = 0 then .node (Table.write bits t.even (i / 2) e) t.odd
    else .node t.even (Table.write bits t.odd (i / 2) e)

/-- Index width of the EXP table: 17 bits, indices up to 131069 (20_memory.md R87). -/
def expBits : Nat := 17

/-- Index width of the LOG table: 16 bits, indices up to 65535 (20_memory.md R87). -/
def logBits : Nat := 16

end Sys2Proof.Machine
end

