-- ==== Sys2Proof/Machine/State.lean ====
section
/-! DEFINITION. The state of the GFRS core (10_state.md R20), its state after reset (70_reset_and_hazards.md R340), and
the model's stop reasons. -/

namespace Sys2Proof.Machine

/-- All the state the spec gives the block (10_state.md R20–R42; 20_memory.md R80), and the model's own fields for the
outside world (`resp`, `events`) and for free draws (`tick`). ID is a constant, CTRL, STATUS and IRQ are computed from
the bits below (log 10). -/
structure State where
  /-- PARAM: PMEM_WORDS, the instance's parameter (R23). Log 1. -/
  param : Word
  /-- CTRL bit 0, IE (R24). -/
  ie : Bool
  /-- STATUS bit 0, BUSY: the engine runs a command (R25, R40). -/
  busy : Bool
  /-- STATUS bit 1, READY: a current field is established (R25, R38). -/
  ready : Bool
  /-- STATUS bit 2, DONE: the interrupt's pending bit (R25, R306). -/
  done : Bool
  /-- STATUS bit 3, ERR: the last completed command faulted (R25). -/
  err : Bool
  /-- STATUS bit 4, HERR: a host-protocol error (R25, R352). -/
  herr : Bool
  /-- CMDL: the last accepted command word (R26, R31). -/
  cmdl : Word
  /-- ERRCODE bits 7:0 (R27). -/
  errcode : BitVec 8
  /-- ERRINFO (R28). -/
  errinfo : Word
  /-- RESULT (R29). -/
  result : Word
  /-- ARG0..ARG5 (R30). -/
  args : Vector Word 6
  /-- The command latch A[0..5] (R31). -/
  latch : Vector Word 6
  /-- PADDR (R32). -/
  paddr : Word
  /-- FW: the current field's width (R34). -/
  fw : Word
  /-- FPOLY: the current field's reduction polynomial as written (R34). -/
  fpoly : Word
  /-- FSYM: the current field's symStart (R34). -/
  fsym : Word
  /-- FMAX: the current field's MAX (R34). -/
  fmax : Word
  /-- The EXP table RAM (R36). -/
  exp : Table
  /-- The LOG table RAM (R37). -/
  log : Table
  /-- PMEM (R80). -/
  pmem : Memory
  /-- The bus's answer to the last host access (R82). Model's own; log 7. -/
  resp : BusResp
  /-- The schedule: what happens next, oldest first (R90, R307). Model's own; log 6. -/
  events : List Event
  /-- The draw counter the free PMEM reads are applied to. Model's own; log 3. -/
  tick : Nat
deriving DecidableEq, Repr

/-- Why the model stops with a fault: never. The block has no stuck, hang or lock-up state (60_exceptions.md R305); a
command's fault is a next state that records it. No constructor: safe, since nothing can be proved of a stop. -/
inductive Fault where
deriving DecidableEq, Repr

/-- Why the model gives no meaning. -/
inductive Refusal where
  /-- Raised only by an arm of `exec` for a command without a meaning; no arm raises it. Safe. -/
  | notModelled (mnemonic : String)
deriving DecidableEq, Repr

/-- The state right after reset (70_reset_and_hazards.md R340): every register 0 but PARAM, the tables and PMEM with no
entry (unspecified), the engine idle. PARAM is the reference instance's (log 1); `resp`, `events` and `tick` are the
model's own (log 3, 6, 7). -/
def State.reset : State where
  param := Config.referencePmemWords
  ie := false
  busy := false
  ready := false
  done := false
  err := false
  herr := false
  cmdl := 0
  errcode := 0
  errinfo := 0
  result := 0
  args := Vector.replicate 6 0
  latch := Vector.replicate 6 0
  paddr := 0
  fw := 0
  fpoly := 0
  fsym := 0
  fmax := 0
  exp := .blank
  log := .blank
  pmem := []
  resp := .none
  events := []
  tick := 0

end Sys2Proof.Machine
end

