-- ==== Sys2Proof/Machine/Flags.lean ====
section
/-! DEFINITION. The flag and control words and the interrupt output, computed from the bits that State holds
(10_state.md R24, R25, R39, R42). The block has no condition codes: STATUS is its only flag register. -/

namespace Sys2Proof.Machine

/-- A bit as a natural number, for assembling a register word. -/
def bitAt (b : Bool) (k : Nat) : Nat := if b then 2 ^ k else 0

/-- CTRL as read: bit 0 is IE, bits 31:1 read 0 (10_state.md R24). -/
def State.ctrlWord (s : State) : Word := BitVec.ofNat 32 (bitAt s.ie 0)

/-- STATUS as read: BUSY 0, READY 1, DONE 2, ERR 3, HERR 4, bits 31:5 read 0 (10_state.md R25). -/
def State.statusWord (s : State) : Word :=
  BitVec.ofNat 32 (bitAt s.busy 0 + bitAt s.ready 1 + bitAt s.done 2 + bitAt s.err 3 + bitAt s.herr 4)

/-- The interrupt output, a level: `IRQ = CTRL.IE & STATUS.DONE` (10_state.md R39, 60_exceptions.md R306). -/
def State.irq (s : State) : Bool := s.ie && s.done

/-- A host write to CTRL: bit 0 sets IE, bits 31:1 are ignored (10_state.md R24). -/
def State.writeCtrl (v : Word) (s : State) : State := { s with ie := v.getLsbD 0 }

/-- A host write to STATUS: bit 2 = 1 clears DONE, bit 4 = 1 clears HERR, nothing else changes (10_state.md R25). -/
def State.writeStatus (v : Word) (s : State) : State :=
  { s with done := s.done && !v.getLsbD 2, herr := s.herr && !v.getLsbD 4 }

/-- A host-protocol error sets the sticky HERR (70_reset_and_hazards.md R352). -/
def State.setHerr (s : State) : State := { s with herr := true }

end Sys2Proof.Machine
end

