-- ==== Sys2Proof/Machine/Operands.lean ====
section
/-! DEFINITION. The operands of a command: which latched words each command reads and how (30_encoding.md R114, R115),
and the reading of them. -/

namespace Sys2Proof.Machine

/-- `u32(v)`: the 32-bit pattern of an integer, `v mod 2^32` (00_scope.md R6). -/
def u32 (v : Int) : Word := BitVec.ofInt 32 v

/-- `s32(x)`: the two's-complement signed reading of a 32-bit pattern (00_scope.md R6). -/
def s32 (x : Word) : Int := x.toInt

/-- How a command reads an operand (30_encoding.md R114). -/
inductive OperandKind where
  /-- "u": an unsigned 32-bit integer. -/
  | unsigned
  /-- "u, value": unsigned, a value-form field element. -/
  | value
  /-- "s": read as `s32`, a log-form element. -/
  | log
deriving DecidableEq, Repr

/-- The operand table of 30_encoding.md R114: how command `i` reads A[k]; none where the cell is blank. -/
def operandKind (i : Instr) (k : Nat) : Option OperandKind :=
  match i, k with
  | .build, 1 | .build, 2 | .build, 3 => some .unsigned
  | .mul, 1 | .mul, 2 => some .value
  | .div, 1 | .div, 2 => some .value
  | .inv, 1 => some .value
  | .mulexp, 1 => some .value
  | .mulexp, 2 => some .unsigned
  | .divexp, 1 => some .value
  | .divexp, 2 => some .unsigned
  | .toexp, 1 => some .unsigned
  | .tolog, 1 => some .value
  | .ladd, 1 | .ladd, 2 => some .log
  | .lmul, 1 | .lmul, 2 => some .log
  | .ldiv, 1 | .ldiv, 2 => some .log
  | .lpow, 1 => some .log
  | .lpow, 2 => some .unsigned
  | .pxor, 0 | .pxor, 1 | .pxor, 2 | .pxor, 3 => some .unsigned
  | .ladds, 0 | .ladds, 1 | .ladds, 3 => some .unsigned
  | .ladds, 2 => some .log
  | .v2l, 0 | .v2l, 1 | .v2l, 3 => some .unsigned
  | .l2v, 0 | .l2v, 1 | .l2v, 3 => some .unsigned
  | .lconv, 0 | .lconv, 1 | .lconv, 2 | .lconv, 3 | .lconv, 4 | .lconv, 5 => some .unsigned
  | .vmul, 0 | .vmul, 1 | .vmul, 2 | .vmul, 3 | .vmul, 4 | .vmul, 5 => some .unsigned
  | .ldiff, 0 | .ldiff, 1 | .ldiff, 3 => some .unsigned
  | .lsubst, 1 | .lsubst, 2 | .lsubst, 3 => some .unsigned
  | .mkgx, 0 | .mkgx, 3 => some .unsigned
  | .mkgxl, 0 | .mkgxl, 3 => some .unsigned
  | .mkenc, 0 | .mkenc, 3 => some .unsigned
  | .mkdec, 0 | .mkdec, 3 => some .unsigned
  | .synd, 0 | .synd, 1 | .synd, 3 | .synd, 4 => some .unsigned
  | .forney, 1 | .forney, 2 | .forney, 3 => some .unsigned
  | .forney, 4 => some .value
  | _, _ => none

/-- A[k], the 32-bit operand latched from ARGk (00_scope.md R9, 10_state.md R31). -/
def State.a (s : State) (k : Fin 6) : Word := s.latch[k]

/-- A[k] read as an unsigned integer (30_encoding.md R114 "u"). -/
def State.opU (s : State) (k : Fin 6) : Nat := (s.a k).toNat

/-- A[k] read with `s32` (30_encoding.md R114 "s"). -/
def State.opS (s : State) (k : Fin 6) : Int := s32 (s.a k)

end Sys2Proof.Machine
end

