-- ==== Sys2Proof/Machine/Ops.lean ====
section
/-! DEFINITION. The operations the command rules share: table reads and the conversions between the two forms, PMEM
reads, the checks and their faults, taking a fault, completing a command, accepting one, and reset. -/

namespace Sys2Proof.Machine

/-! ### The current field and its tables -/

/-- `M = MAX = FMAX` of the current field (10_state.md R34). -/
def State.fieldMax (s : State) : Nat := s.fmax.toNat

/-- `S = symStart = FSYM` of the current field (10_state.md R34). -/
def State.symStart (s : State) : Nat := s.fsym.toNat

/-- `EXP[i]` (10_state.md R36); an entry no successful BUILD has written, and an index the table does not have, is a
free value (log 4, 18). -/
def State.expAt (s : State) (i : Nat) : Nat := ((Table.entry expBits s.exp i).getD (Config.freeExp i)).toNat

/-- `EXP[i]` at an index computed as an integer; below 0 the table has no entry, and the value is free (log 18). -/
def State.expI (s : State) (i : Int) : Nat := if 0 ≤ i then s.expAt i.toNat else (Config.freeExp i).toNat

/-- `LOG[v]` (10_state.md R37); an entry no successful BUILD has written, and an index the table does not have, is a
free value (log 4, 18). -/
def State.logAt (s : State) (v : Nat) : Nat := ((Table.entry logBits s.log v).getD (Config.freeLog v)).toNat

/-- `toVal(l)`: log form to value form (41_field_engine.md R140). -/
def State.toVal (s : State) (l : Int) : Nat := if l = -1 then 0 else s.expI l

/-- `toLogf(v)`: value form to log form (41_field_engine.md R140). -/
def State.toLogf (s : State) (v : Nat) : Int := if v = 0 then -1 else s.logAt v

/-- The product of two field elements, MUL without its checks (41_field_engine.md R143; 44_generator.md `mul`). -/
def State.mulV (s : State) (x y : Nat) : Nat := if x = 0 ∨ y = 0 then 0 else s.expAt (s.logAt x + s.logAt y)

/-- The quotient by a nonzero element, DIV without its checks (41_field_engine.md R144). -/
def State.divV (s : State) (x y : Nat) : Nat :=
  if x = 0 then 0 else s.expI ((s.logAt x : Int) + s.fieldMax - s.logAt y)

/-- The product with `α^e`, MULEXP without its checks (41_field_engine.md R146). -/
def State.mulExpV (s : State) (x e : Nat) : Nat := if x = 0 then 0 else s.expAt (s.logAt x + e)

/-! ### PMEM reads -/

/-- PMEM_WORDS of this instance, as PARAM reads it (10_state.md R23). -/
def State.pmemWords (s : State) : Nat := s.param.toNat

/-- `MemRead(addr, 1)` at the read site `r` (20_memory.md R81). A word not written since reset is a free draw at each
read (70_reset_and_hazards.md R340, 93_implementation_defined.md U2; log 2). -/
def State.word (s : State) (r : ReadSite) (addr : Nat) : Word :=
  (s.pmem.read addr).getD (Config.freeWord s.tick r addr)

/-- The words of the region `(base, len)` as the read site `r` reads them, in ascending order of address
(20_memory.md R84). -/
def State.words (s : State) (r : ReadSite) (base len : Nat) : List Word :=
  (List.range len).map fun i => s.word r (base + i)

/-- The words of the region `(base, len)` as the read site `r` reads them, each with its address (20_memory.md R84). -/
def State.cells (s : State) (r : ReadSite) (base len : Nat) : List (Nat × Word) :=
  (List.range len).map fun i => (base + i, s.word r (base + i))

/-! ### Faults: causes, and the checks that raise them -/

/-- The fault causes (60_exceptions.md R301). -/
inductive Cause where
  | illegalCmd
  | notReady
  | config
  | length
  | addrRange
  | overlap
  | operandRange
  | zeroDomain
  | tableIndex
  | divZero
  | genZero
  | nonprimitive
deriving DecidableEq, Repr

/-- The cause codes (60_exceptions.md R301). -/
def Cause.code (c : Cause) : BitVec 8 :=
  match c with
  | .illegalCmd => 1
  | .notReady => 2
  | .config => 3
  | .length => 4
  | .addrRange => 5
  | .overlap => 6
  | .operandRange => 7
  | .zeroDomain => 8
  | .tableIndex => 9
  | .divZero => 10
  | .genZero => 11
  | .nonprimitive => 12

/-- `raise <Cause>(info)` (00_scope.md R9). -/
structure Raise where
  cause : Cause
  info : Word
deriving DecidableEq, Repr

/-- What a command's rule writes when no check raised: PMEM words and, for some commands, RESULT
(30_encoding.md R111). -/
structure Effect where
  cells : List (Nat × Word) := []
  result : Option Word := none
deriving DecidableEq, Repr

/-- A command's rule on a state: the fault it raises or what it writes. -/
abbrev Rule := Except Raise Effect

/-- A check: go on if it passes, else raise the cause with its ERRINFO (60_exceptions.md R300). -/
def require (passes : Bool) (cause : Cause) (info : Word) : Except Raise Unit :=
  if passes then .ok () else .error ⟨cause, info⟩

/-- `CheckRegion(base, len)` (20_memory.md R84): an empty region passes, any other must end inside PMEM. -/
def State.regionOk (s : State) (base len : Nat) : Bool := len == 0 || decide (base + len ≤ s.pmemWords)

@[inherit_doc State.regionOk]
def State.checkRegion (s : State) (base len : Nat) : Except Raise Unit := require (s.regionOk base len) .addrRange 0

/-- Two regions overlap: both nonempty, and they share a word (20_memory.md R85). -/
def overlaps (base1 len1 base2 len2 : Nat) : Bool :=
  decide (0 < len1) && decide (0 < len2) && decide (base1 < base2 + len2) && decide (base2 < base1 + len1)

/-- `Disjoint((base1, len1), (base2, len2))` (20_memory.md R85). -/
def checkDisjoint (base1 len1 base2 len2 : Nat) : Except Raise Unit :=
  require (!overlaps base1 len1 base2 len2) .overlap 0

/-- An element-wise command's destination is a source exactly, or disjoint from it (20_memory.md R85). -/
def checkElementwise (dst src n : Nat) : Except Raise Unit :=
  require (dst == src || !overlaps dst n src n) .overlap 0

/-- `CheckV`'s condition: a value-form element is at most MAX (20_memory.md R86). -/
def State.isValue (s : State) (x : Word) : Bool := decide (x.toNat ≤ s.fieldMax)

/-- `CheckL`'s condition: a log-form element is in `[-1, MAX)` (20_memory.md R86). -/
def State.isLog (s : State) (x : Word) : Bool := decide (-1 ≤ s32 x) && decide (s32 x < s.fieldMax)

/-- `CheckV(A[k], k)` (20_memory.md R86). -/
def State.checkV (s : State) (k : Fin 6) : Except Raise Unit :=
  require (s.isValue (s.a k)) .operandRange (BitVec.ofNat 32 k)

/-- `CheckL(A[k], k)` (20_memory.md R86). -/
def State.checkL (s : State) (k : Fin 6) : Except Raise Unit :=
  require (s.isLog (s.a k)) .operandRange (BitVec.ofNat 32 k)

/-- The lowest address of a word that fails, among the words a command reads (20_memory.md R86). -/
def lowestBad (good : Word → Bool) : List (Nat × Word) → Option Nat
  | [] => none
  | (addr, x) :: rest =>
    if good x then lowestBad good rest
    else
      match lowestBad good rest with
      | none => some addr
      | some b => some (min addr b)

/-- ERRINFO for a PMEM word outside its domain: `0x80000000 | addr` (60_exceptions.md R303). -/
def pmemInfo (addr : Nat) : Word := 0x80000000#32 ||| BitVec.ofNat 32 addr

/-- The element checks of every PMEM word a command reads: the lowest failing address is recorded
(20_memory.md R86). Log 9. -/
def checkCells (good : Word → Bool) (cells : List (Nat × Word)) : Except Raise Unit :=
  match lowestBad good cells with
  | none => .ok ()
  | some addr => .error ⟨.operandRange, pmemInfo addr⟩

/-- Output words `out 0, out 1, …, out (n-1)` for the region at `dst`. -/
def outCells (dst n : Nat) (out : Nat → Word) : List (Nat × Word) :=
  (List.range n).map fun i => (dst + i, out i)

/-! ### Taking a fault, completing, accepting -/

/-- TAKING A FAULT, the one shared operation (60_exceptions.md R300 item 3, R304, R308; 30_encoding.md R111): ERR, the
cause code and the information are recorded, BUSY falls and DONE rises; nothing else the spec names changes. -/
def takeFault (f : Raise) (s : State) : State :=
  { s with err := true, errcode := f.cause.code, errinfo := f.info, busy := false, done := true, tick := s.tick + 1 }

/-- Completion without a fault (30_encoding.md R111): the rule's PMEM and RESULT writes, then BUSY = 0, DONE = 1. -/
def succeed (e : Effect) (s : State) : State :=
  { s with
    pmem := s.pmem.writeCells e.cells
    result := e.result.getD s.result
    busy := false
    done := true
    tick := s.tick + 1 }

/-- Completion of a command by what its rule said (30_encoding.md R111). -/
def conclude (r : Rule) (s : State) : State :=
  match r with
  | .ok e => succeed e s
  | .error f => takeFault f s

/-- The completion step of a command other than BUILD: NOT_READY first (60_exceptions.md R302 item 2), then its own
rule. -/
def runCommand (rule : State → Rule) (s : State) : Host.Outcome State Fault Refusal :=
  .next (conclude (if s.ready then rule s else .error ⟨.notReady, 0⟩) s)

/-- What ends a fault record (60_exceptions.md R309): there is no return from a fault; the next acceptance clears DONE,
ERR, ERRCODE and ERRINFO (30_encoding.md R110). -/
def clearRecord (s : State) : State := { s with done := false, err := false, errcode := 0, errinfo := 0 }

/-- Acceptance of the command word `c` (30_encoding.md R110); a BUILD clears READY. -/
def accept (c : Word) (s : State) : State :=
  { clearRecord s with
    cmdl := c
    latch := s.args
    ready := s.ready && !(c == 0x00000001)
    busy := true }

/-- The reset input (70_reset_and_hazards.md R340, R341): every piece of state takes its reset value, a running command
is abandoned, and PMEM and the tables become unspecified. PARAM is a constant of the instance; the schedule and the draw
counter are the model's own and go on (log 1, 3, 6). -/
def resetBlock (s : State) : State :=
  { State.reset with param := s.param, events := s.events, tick := s.tick }

end Sys2Proof.Machine
end

