-- ==== Sys2Proof/Machine/FieldEngine.lean ====
section
/-! DEFINITION. The field engine commands BUILD, MUL, DIV, INV, MULEXP, DIVEXP, TOEXP, TOLOG (41_field_engine.md). -/

namespace Sys2Proof.Machine

/-! ### BUILD (R141) -/

/-- One step of BUILD's walk: `d << 1`, and if bit `w` is then set, XOR with POLY and mask to `w` bits (R141). -/
def walkStep (poly w d : Nat) : Nat :=
  if (2 * d).testBit w then ((2 * d) ^^^ poly) &&& (2 ^ w - 1) else 2 * d

/-- BUILD's loop with `n` iterations left, from `i` and `d` (R141): each iteration writes `EXP[i]`, `EXP[M+i]` and
`LOG[d]` and steps `d`; none when a NONPRIMITIVE check fails. -/
def buildLoop (poly w m : Nat) : Nat → Nat → Nat → Table → Table → Option (Table × Table)
  | 0, _, d, exp, log => if d = 1 then some (exp, log) else none
  | n + 1, i, d, exp, log =>
    if i < m - 1 ∧ walkStep poly w d = 1 then none
    else
      buildLoop poly w m n (i + 1) (walkStep poly w d)
        (Table.write expBits (Table.write expBits exp i (BitVec.ofNat 16 d)) (m + i) (BitVec.ofNat 16 d))
        (Table.write logBits log d (BitVec.ofNat 16 i))

/-- The tables BUILD makes for POLY and `w`, from tables without entries (R141; log 4). -/
def buildTables (poly w : Nat) : Option (Table × Table) :=
  buildLoop poly w (2 ^ w - 1) (2 ^ w - 1) 0 1 .blank .blank

/-- BUILD's rule: CONFIG(2), CONFIG(3), then the walk, which may raise NONPRIMITIVE(0) (R141). -/
def ruleBuild (s : State) : Except Raise (Table × Table) := do
  require (s.opU 2 == 8 || s.opU 2 == 16) .config 2
  require (decide (s.opU 3 < 2 ^ s.opU 2 - 1)) .config 3
  match buildTables (s.opU 1) (s.opU 2) with
  | some t => .ok t
  | none => .error ⟨.nonprimitive, 0⟩

/-- The descriptor and tables of a new current field (R141; 10_state.md R34): FPOLY is the operand as written. -/
def setField (t : Table × Table) (s : State) : State :=
  { s with
    fw := s.a 2
    fpoly := s.a 1
    fsym := s.a 3
    fmax := BitVec.ofNat 32 (2 ^ s.opU 2 - 1)
    exp := t.1
    log := t.2
    ready := true }

/-- What a BUILD that faults leaves of the field: FW, FPOLY, FSYM and FMAX are 0, READY is 0, and every table entry is
unspecified (R141; 60_exceptions.md R304). -/
def dropField (s : State) : State :=
  { s with fw := 0, fpoly := 0, fsym := 0, fmax := 0, exp := .blank, log := .blank, ready := false }

/-- BUILD (OP 0x01, R141). NOT_READY does not apply to it. -/
def execBuild (s : State) : Host.Outcome State Fault Refusal :=
  match ruleBuild s with
  | .ok t => .next (succeed ⟨[], none⟩ (setField t s))
  | .error f => .next (takeFault f (dropField s))

/-! ### Scalar value-form arithmetic (R143–R149) -/

/-- The effect of a command whose only write is RESULT. -/
def resultOnly (v : Word) : Effect := ⟨[], some v⟩

/-- MUL's rule (R143). -/
def ruleMul (s : State) : Rule := do
  s.checkV 1
  s.checkV 2
  .ok (resultOnly (BitVec.ofNat 32 (s.mulV (s.opU 1) (s.opU 2))))

/-- MUL (OP 0x02, R143): the product of two field elements. -/
def execMul (s : State) : Host.Outcome State Fault Refusal := runCommand ruleMul s

/-- DIV's rule (R144): DIV_ZERO(2) whenever the divisor is 0, also for a zero dividend. -/
def ruleDiv (s : State) : Rule := do
  s.checkV 1
  s.checkV 2
  require (s.opU 2 != 0) .divZero 2
  .ok (resultOnly (BitVec.ofNat 32 (s.divV (s.opU 1) (s.opU 2))))

/-- DIV (OP 0x03, R144): the quotient of two field elements. -/
def execDiv (s : State) : Host.Outcome State Fault Refusal := runCommand ruleDiv s

/-- INV's rule (R145). -/
def ruleInv (s : State) : Rule := do
  s.checkV 1
  require (s.opU 1 != 0) .zeroDomain 1
  .ok (resultOnly (BitVec.ofNat 32 (s.expAt (s.fieldMax - s.logAt (s.opU 1)))))

/-- INV (OP 0x04, R145): the multiplicative inverse. -/
def execInv (s : State) : Host.Outcome State Fault Refusal := runCommand ruleInv s

/-- MULEXP's rule (R146): the exponent is checked even when the element is 0. -/
def ruleMulexp (s : State) : Rule := do
  s.checkV 1
  require (decide (s.opU 2 ≤ s.fieldMax)) .tableIndex 2
  .ok (resultOnly (BitVec.ofNat 32 (s.mulExpV (s.opU 1) (s.opU 2))))

/-- MULEXP (OP 0x05, R146): multiply by `α^e`. -/
def execMulexp (s : State) : Host.Outcome State Fault Refusal := runCommand ruleMulexp s

/-- DIVEXP's rule (R147). -/
def ruleDivexp (s : State) : Rule := do
  s.checkV 1
  require (decide (s.opU 2 ≤ s.fieldMax)) .tableIndex 2
  .ok (resultOnly (BitVec.ofNat 32
    (if s.opU 1 = 0 then 0 else s.expAt (s.logAt (s.opU 1) + s.fieldMax - s.opU 2))))

/-- DIVEXP (OP 0x06, R147): divide by `α^e`. -/
def execDivexp (s : State) : Host.Outcome State Fault Refusal := runCommand ruleDivexp s

/-- TOEXP's rule (R148). -/
def ruleToexp (s : State) : Rule := do
  require (decide (s.opU 1 < 2 * s.fieldMax)) .tableIndex 1
  .ok (resultOnly (BitVec.ofNat 32 (s.expAt (s.opU 1))))

/-- TOEXP (OP 0x07, R148): raw EXP table read. -/
def execToexp (s : State) : Host.Outcome State Fault Refusal := runCommand ruleToexp s

/-- TOLOG's rule (R149). -/
def ruleTolog (s : State) : Rule := do
  s.checkV 1
  require (s.opU 1 != 0) .zeroDomain 1
  .ok (resultOnly (BitVec.ofNat 32 (s.logAt (s.opU 1))))

/-- TOLOG (OP 0x08, R149): discrete logarithm of a nonzero element. -/
def execTolog (s : State) : Host.Outcome State Fault Refusal := runCommand ruleTolog s

end Sys2Proof.Machine
end

