-- ==== Sys2Proof/Machine/LogScalar.lean ====
section
/-! DEFINITION. The log-form scalar commands LADD, LMUL, LDIV, LPOW (42_log_scalar.md). -/

namespace Sys2Proof.Machine

/-- Log-form addition by way of the value form (R180). -/
def State.addL (s : State) (a b : Int) : Int := s.toLogf (s.toVal a ^^^ s.toVal b)

/-- LADD's rule (R180). -/
def ruleLadd (s : State) : Rule := do
  s.checkL 1
  s.checkL 2
  .ok (resultOnly (u32 (s.addL (s.opS 1) (s.opS 2))))

/-- LADD (OP 0x10, R180): log-form addition. -/
def execLadd (s : State) : Host.Outcome State Fault Refusal := runCommand ruleLadd s

/-- LMUL's rule (R181): the sentinel propagates. -/
def ruleLmul (s : State) : Rule := do
  s.checkL 1
  s.checkL 2
  .ok (resultOnly (u32 (if s.opS 1 = -1 ∨ s.opS 2 = -1 then -1 else (s.opS 1 + s.opS 2) % s.fieldMax)))

/-- LMUL (OP 0x11, R181): log-form multiplication. -/
def execLmul (s : State) : Host.Outcome State Fault Refusal := runCommand ruleLmul s

/-- LDIV's rule (R182): DIV_ZERO(2) whenever the divisor is the sentinel. -/
def ruleLdiv (s : State) : Rule := do
  s.checkL 1
  s.checkL 2
  require (decide (s.opS 2 ≠ -1)) .divZero 2
  .ok (resultOnly (u32 (if s.opS 1 = -1 then -1 else (s.fieldMax + s.opS 1 - s.opS 2) % s.fieldMax)))

/-- LDIV (OP 0x12, R182): log-form division. -/
def execLdiv (s : State) : Host.Outcome State Fault Refusal := runCommand ruleLdiv s

/-- LPOW's rule (R183): the power is an unsigned integer and the product exact. -/
def ruleLpow (s : State) : Rule := do
  s.checkL 1
  .ok (resultOnly (u32 (if s.opS 1 = -1 then -1 else (s.opS 1 * s.opU 2) % s.fieldMax)))

/-- LPOW (OP 0x13, R183): power of a log-form element. -/
def execLpow (s : State) : Host.Outcome State Fault Refusal := runCommand ruleLpow s

end Sys2Proof.Machine
end

