-- ==== Sys2Proof/Machine/Polynomial.lean ====
section
/-! DEFINITION. The polynomial commands PXOR, LADDS, V2L, L2V, LCONV, VMUL, LDIFF, LSUBST (43_polynomial.md). A
command's first source region is region 0 and its second is region 1; every `MemRead` of a rule is a read site of its
own. -/

namespace Sys2Proof.Machine

/-! ### Element-wise commands (R200–R203) -/

/-- PXOR's rule (R200): dst = A[0], a = A[1], b = A[2], n = A[3]. -/
def rulePxor (s : State) : Rule := do
  s.checkRegion (s.opU 0) (s.opU 3)
  s.checkRegion (s.opU 1) (s.opU 3)
  s.checkRegion (s.opU 2) (s.opU 3)
  checkElementwise (s.opU 0) (s.opU 1) (s.opU 3)
  checkElementwise (s.opU 0) (s.opU 2) (s.opU 3)
  checkCells s.isValue (s.cells (.check 0) (s.opU 1) (s.opU 3) ++ s.cells (.check 1) (s.opU 2) (s.opU 3))
  .ok ⟨outCells (s.opU 0) (s.opU 3) fun i =>
    s.word (.use 0 0) (s.opU 1 + i) ^^^ s.word (.use 1 0) (s.opU 2 + i), none⟩

/-- PXOR (OP 0x20, R200): value-form polynomial addition. -/
def execPxor (s : State) : Host.Outcome State Fault Refusal := runCommand rulePxor s

/-- LADDS's rule (R201): dst = A[0], a = A[1], s = A[2], n = A[3]. -/
def ruleLadds (s : State) : Rule := do
  s.checkRegion (s.opU 0) (s.opU 3)
  s.checkRegion (s.opU 1) (s.opU 3)
  checkElementwise (s.opU 0) (s.opU 1) (s.opU 3)
  s.checkL 2
  checkCells s.isLog (s.cells (.check 0) (s.opU 1) (s.opU 3))
  .ok ⟨outCells (s.opU 0) (s.opU 3) fun i =>
    u32 (s.addL (s32 (s.word (.use 0 0) (s.opU 1 + i))) (s.opS 2)), none⟩

/-- LADDS (OP 0x21, R201): log-form polynomial plus a log-form scalar, element by element. -/
def execLadds (s : State) : Host.Outcome State Fault Refusal := runCommand ruleLadds s

/-- V2L's rule (R202): dst = A[0], src = A[1], n = A[3]. -/
def ruleV2l (s : State) : Rule := do
  s.checkRegion (s.opU 0) (s.opU 3)
  s.checkRegion (s.opU 1) (s.opU 3)
  checkElementwise (s.opU 0) (s.opU 1) (s.opU 3)
  checkCells s.isValue (s.cells (.check 0) (s.opU 1) (s.opU 3))
  .ok ⟨outCells (s.opU 0) (s.opU 3) fun i =>
    u32 (s.toLogf (s.word (.use 0 0) (s.opU 1 + i)).toNat), none⟩

/-- V2L (OP 0x22, R202): value form to log form. -/
def execV2l (s : State) : Host.Outcome State Fault Refusal := runCommand ruleV2l s

/-- L2V's rule (R203): dst = A[0], src = A[1], n = A[3]. -/
def ruleL2v (s : State) : Rule := do
  s.checkRegion (s.opU 0) (s.opU 3)
  s.checkRegion (s.opU 1) (s.opU 3)
  checkElementwise (s.opU 0) (s.opU 1) (s.opU 3)
  checkCells s.isLog (s.cells (.check 0) (s.opU 1) (s.opU 3))
  .ok ⟨outCells (s.opU 0) (s.opU 3) fun i =>
    BitVec.ofNat 32 (s.toVal (s32 (s.word (.use 0 0) (s.opU 1 + i)))), none⟩

/-- L2V (OP 0x23, R203): log form to value form. -/
def execL2v (s : State) : Host.Outcome State Fault Refusal := runCommand ruleL2v s

/-! ### Multiplication (R204, R205) -/

/-- XOR `v` into entry `k` of an accumulator; an index at or past its end changes nothing ("if ia + ib >= len:
continue", R204). -/
def xorAt : List Nat → Nat → Nat → List Nat
  | [], _, _ => []
  | y :: ys, 0, v => (y ^^^ v) :: ys
  | y :: ys, k + 1, v => y :: xorAt ys k v

/-- The accumulator after one term at index `k`: none where the rule says to continue (R204, R205). -/
def addTerm (acc : List Nat) (k : Nat) (term : Option Nat) : List Nat :=
  match term with
  | none => acc
  | some v => xorAt acc k v

/-- The inner loop of R204 and R205 over the second source, from output index `k`. -/
def convRow (term : Word → Word → Option Nat) (x : Word) : Nat → List Word → List Nat → List Nat
  | _, [], acc => acc
  | k, y :: ys, acc => convRow term x (k + 1) ys (addTerm acc k (term x y))

/-- The outer loop of R204 and R205 over the first source, from index `ia`; `ys ia` is the second source as round `ia`
reads it. -/
def convLoop (term : Word → Word → Option Nat) (ys : Nat → List Word) : Nat → List Word → List Nat → List Nat
  | _, [], acc => acc
  | ia, x :: xs, acc => convLoop term ys (ia + 1) xs (convRow term x ia (ys ia) acc)

/-- The accumulator of `len` words after the double loop, whose rounds each read the second source (R204, R205). -/
def convolveReads (term : Word → Word → Option Nat) (xs : List Word) (ys : Nat → List Word) (len : Nat) : List Nat :=
  convLoop term ys 0 xs (List.replicate len 0)

/-- The accumulator of `len` words for two lists of words (R204, R205). -/
def convolve (term : Word → Word → Option Nat) (xs ys : List Word) (len : Nat) : List Nat :=
  convolveReads term xs (fun _ => ys) len

/-- LCONV's term: nothing for a sentinel, else `EXP[x + y]` (R204). -/
def State.termL (s : State) (x y : Word) : Option Nat :=
  if s32 x = -1 ∨ s32 y = -1 then none else some (s.expI (s32 x + s32 y))

/-- VMUL's term: nothing for a zero, else `EXP[LOG[x] + LOG[y]]` (R205). -/
def State.termV (s : State) (x y : Word) : Option Nat :=
  if x = 0 ∨ y = 0 then none else some (s.expAt (s.logAt x.toNat + s.logAt y.toNat))

/-- The checks of LCONV and VMUL before their element checks (R204, R205): dst = A[0], a = A[1], b = A[2], len = A[3],
la = A[4], lb = A[5]. -/
def State.checkConv (s : State) : Except Raise Unit := do
  s.checkRegion (s.opU 0) (s.opU 3)
  s.checkRegion (s.opU 1) (s.opU 4)
  s.checkRegion (s.opU 2) (s.opU 5)
  checkDisjoint (s.opU 0) (s.opU 3) (s.opU 1) (s.opU 4)
  checkDisjoint (s.opU 0) (s.opU 3) (s.opU 2) (s.opU 5)

/-- The words of LCONV's and VMUL's two sources as their checks read them, each with its address. -/
def State.convCells (s : State) : List (Nat × Word) :=
  s.cells (.check 0) (s.opU 1) (s.opU 4) ++ s.cells (.check 1) (s.opU 2) (s.opU 5)

/-- The accumulator of LCONV or VMUL on this state's operands, as a list of `len` field values: round `ia` reads `a[ia]`
and then the words of `b`. -/
def State.convAcc (s : State) (term : Word → Word → Option Nat) : List Nat :=
  convolveReads term (s.words (.use 0 0) (s.opU 1) (s.opU 4)) (fun ia => s.words (.use 1 ia) (s.opU 2) (s.opU 5))
    (s.opU 3)

/-- The output words of a list, from address `dst` on. -/
def listCells (dst : Nat) : List Word → List (Nat × Word)
  | [] => []
  | w :: ws => (dst, w) :: listCells (dst + 1) ws

/-- LCONV's rule (R204). -/
def ruleLconv (s : State) : Rule := do
  s.checkConv
  checkCells s.isLog s.convCells
  .ok ⟨listCells (s.opU 0) ((s.convAcc s.termL).map fun v => u32 (s.toLogf v)), none⟩

/-- LCONV (OP 0x24, R204): log-form convolution truncated to `len` coefficients. -/
def execLconv (s : State) : Host.Outcome State Fault Refusal := runCommand ruleLconv s

/-- VMUL's rule (R205). -/
def ruleVmul (s : State) : Rule := do
  s.checkConv
  checkCells s.isValue s.convCells
  .ok ⟨listCells (s.opU 0) ((s.convAcc s.termV).map fun v => BitVec.ofNat 32 v), none⟩

/-- VMUL (OP 0x25, R205): value-form polynomial multiplication into `len` words. -/
def execVmul (s : State) : Host.Outcome State Fault Refusal := runCommand ruleVmul s

/-! ### Derivative and substitution (R206, R207) -/

/-- LDIFF's rule (R206), CUETOOLS's `gfdiff` exactly as stated: dst = A[0], src = A[1], n = A[3]. -/
def ruleLdiff (s : State) : Rule := do
  require (s.opU 3 != 0) .length 3
  s.checkRegion (s.opU 1) (s.opU 3)
  s.checkRegion (s.opU 0) (s.opU 3 - 1)
  checkDisjoint (s.opU 0) (s.opU 3 - 1) (s.opU 1) (s.opU 3)
  checkCells s.isLog (s.cells (.check 0) (s.opU 1) (s.opU 3))
  .ok ⟨outCells (s.opU 0) (s.opU 3 - 1) fun i =>
    if i % 2 = 0 then u32 (-1) else s.word (.use 0 0) (s.opU 1 + (i + 1)), none⟩

/-- LDIFF (OP 0x26, R206). -/
def execLdiff (s : State) : Host.Outcome State Fault Refusal := runCommand ruleLdiff s

/-- LSUBST's accumulator: term by term, the sentinel adding nothing (R207). -/
def State.substAcc (s : State) (src value terms : Nat) : Nat :=
  (List.range terms).foldl
    (fun acc p =>
      if s32 (s.word (.use 0 0) (src + p)) = -1 then acc
      else acc ^^^ s.expAt ((s32 (s.word (.use 0 0) (src + p)) + value * p) % s.fieldMax).toNat)
    0

/-- LSUBST's rule (R207): src = A[1], value = A[2], terms = A[3]. -/
def ruleLsubst (s : State) : Rule := do
  s.checkRegion (s.opU 1) (s.opU 3)
  require (decide (s.opU 2 < s.fieldMax)) .operandRange 2
  checkCells s.isLog (s.cells (.check 0) (s.opU 1) (s.opU 3))
  .ok (resultOnly (u32 (s.toLogf (s.substAcc (s.opU 1) (s.opU 2) (s.opU 3)))))

/-- LSUBST (OP 0x27, R207): evaluate a log-form polynomial at `α^value`. -/
def execLsubst (s : State) : Host.Outcome State Fault Refusal := runCommand ruleLsubst s

end Sys2Proof.Machine
end

