-- ==== Sys2Proof/Machine/Generator.lean ====
section
/-! DEFINITION. The generator and table commands MKGX, MKGXL, MKENC, MKDEC (44_generator.md). -/

namespace Sys2Proof.Machine

/-- One root step of the generator, with `times x` for `mul(x, r)` (R251): `g[j] <- mul(g[j], r) ^ g[j+1]` in ascending
`j`, with the old `g[j+1]`, and `g[npar-1] <- mul(g[npar-1], r)`. -/
def rootStep (times : Nat → Nat) : List Nat → List Nat
  | [] => []
  | [x] => [times x]
  | x :: y :: rest => (times x ^^^ y) :: rootStep times (y :: rest)

/-- One root step at the root `r` (R251). -/
def State.genStep (s : State) (r : Nat) (g : List Nat) : List Nat := rootStep (fun x => s.mulV x r) g

/-- The generator of `npar` words in generator storage order (R250, R251): from `1` at the highest index, one root step
for each `α^(S+k)`. -/
def State.generator (s : State) (npar : Nat) : List Nat :=
  (List.range npar).foldl (fun g k => s.genStep (s.expAt (s.symStart + k)) g) (List.replicate (npar - 1) 0 ++ [1])

/-- The LENGTH check on `npar = A[3]` (R251). -/
def State.checkNpar (s : State) : Except Raise Unit :=
  require (s.opU 3 != 0 && decide (s.opU 3 ≤ s.fieldMax)) .length 3

/-- The lowest index of a zero coefficient, if there is one (R252). -/
def firstZero (g : List Nat) : Option Nat := g.findIdx? (· == 0)

/-- The GEN_ZERO check: the lowest storage index of a zero coefficient is recorded (R252). -/
def checkGenerator (g : List Nat) : Except Raise Unit :=
  match firstZero g with
  | none => .ok ()
  | some j => .error ⟨.genZero, BitVec.ofNat 32 j⟩

/-- MKGX's rule (R251): dst = A[0], npar = A[3]. -/
def ruleMkgx (s : State) : Rule := do
  s.checkNpar
  s.checkRegion (s.opU 0) (s.opU 3)
  .ok ⟨listCells (s.opU 0) ((s.generator (s.opU 3)).map fun v => BitVec.ofNat 32 v), none⟩

/-- MKGX (OP 0x30, R251): the generator polynomial in value form. -/
def execMkgx (s : State) : Host.Outcome State Fault Refusal := runCommand ruleMkgx s

/-- MKGXL's rule (R252). -/
def ruleMkgxl (s : State) : Rule := do
  s.checkNpar
  s.checkRegion (s.opU 0) (s.opU 3)
  checkGenerator (s.generator (s.opU 3))
  .ok ⟨listCells (s.opU 0) ((s.generator (s.opU 3)).map fun v => BitVec.ofNat 32 (s.logAt v)), none⟩

/-- MKGXL (OP 0x31, R252): the generator in log form. -/
def execMkgxl (s : State) : Host.Outcome State Fault Refusal := runCommand ruleMkgxl s

/-- The byte planes of a table: with `w = 8` plane 1 is not written (R254, R255). -/
def State.planes (s : State) : List Nat := if s.fw = 8 then [0] else [0, 1]

/-- The value a byte stands for at byte position `pl`: `b << (8*pl)` (R250). -/
def planeValue (b pl : Nat) : Nat := b <<< (8 * pl)

/-- The cells of a byte table, row-major: entry `[b][pl][i]` at `dst + (2*b + pl)*npar + i` (R250). -/
def State.tableCells (s : State) (dst npar : Nat) (entry : Nat → Nat → Nat) : List (Nat × Word) :=
  (List.range 256).flatMap fun b =>
    s.planes.flatMap fun pl =>
      (List.range npar).map fun i =>
        (dst + (2 * b + pl) * npar + i, BitVec.ofNat 32 (entry (planeValue b pl) i))

/-- MKENC's entry for value `v` and log-form generator coefficient `gl[i]` (R254). -/
def State.encEntry (s : State) (gl : List Nat) (v i : Nat) : Nat :=
  if v = 0 then 0 else s.expAt (s.logAt v + gl.getD i 0)

/-- MKENC's rule (R254): dst = A[0], npar = A[3]. -/
def ruleMkenc (s : State) : Rule := do
  s.checkNpar
  s.checkRegion (s.opU 0) (512 * s.opU 3)
  checkGenerator (s.generator (s.opU 3))
  .ok ⟨s.tableCells (s.opU 0) (s.opU 3) (s.encEntry ((s.generator (s.opU 3)).map s.logAt)), none⟩

/-- MKENC (OP 0x32, R254): the byte-indexed encode table. -/
def execMkenc (s : State) : Host.Outcome State Fault Refusal := runCommand ruleMkenc s

/-- MKDEC's entry for value `v` and parity position `i`: the root is `α^i`, without symStart (R255). -/
def State.decEntry (s : State) (v i : Nat) : Nat := if v = 0 then 0 else s.expAt (s.logAt v + i)

/-- MKDEC's rule (R255): dst = A[0], npar = A[3]. -/
def ruleMkdec (s : State) : Rule := do
  s.checkNpar
  s.checkRegion (s.opU 0) (512 * s.opU 3)
  .ok ⟨s.tableCells (s.opU 0) (s.opU 3) s.decEntry, none⟩

/-- MKDEC (OP 0x33, R255): the byte-indexed decode table. -/
def execMkdec (s : State) : Host.Outcome State Fault Refusal := runCommand ruleMkdec s

end Sys2Proof.Machine
end

