-- ==== Sys2Proof/Machine/Syndrome.lean ====
section
/-! DEFINITION. The syndrome and Forney commands SYND, FORNEY (45_syndrome_forney.md). -/

namespace Sys2Proof.Machine

/-- The Horner loop of R280 at the root `α^i`, highest-degree symbol first. -/
def State.syndrome (s : State) (i : Nat) (block : List Word) : Nat :=
  block.foldl (fun wk x => x.toNat ^^^ s.mulExpV wk i) 0

/-- The syndromes `syn[0 .. njar)`, whose pass `i` reads the block `(data, length)` anew (R280). -/
def State.syndromes (s : State) (njar data length : Nat) : List Nat :=
  (List.range njar).map fun i => s.syndrome i (s.words (.use 0 i) data length)

/-- SYND's rule (R280): dst = A[0], data = A[1], length = A[3], njar = A[4]. RESULT is 1 when every syndrome is 0. -/
def ruleSynd (s : State) : Rule := do
  require (decide (s.opU 4 ≤ s.fieldMax)) .length 4
  s.checkRegion (s.opU 0) (s.opU 4)
  s.checkRegion (s.opU 1) (s.opU 3)
  checkDisjoint (s.opU 0) (s.opU 4) (s.opU 1) (s.opU 3)
  checkCells s.isValue (s.cells (.check 0) (s.opU 1) (s.opU 3))
  let syn := s.syndromes (s.opU 4) (s.opU 1) (s.opU 3)
  .ok ⟨listCells (s.opU 0) (syn.map fun v => BitVec.ofNat 32 v), some (if syn.all (· == 0) then 1 else 0)⟩

/-- SYND (OP 0x40, R280): evaluate a data block at the roots `α^0 … α^(njar-1)`. -/
def execSynd (s : State) : Host.Outcome State Fault Refusal := runCommand ruleSynd s

/-- `h`, the highest sigma index FORNEY reads: the largest odd number not above `jisu` (R281). -/
def forneyH (jisu : Nat) : Nat := if jisu % 2 = 1 then jisu else jisu - 1

/-- The sigma words FORNEY reads, as its checks read them, each with its address: the odd indices in `[1, h]` (R281). -/
def State.sigmaCells (s : State) (sigma h : Nat) : List (Nat × Word) :=
  ((List.range (h + 1)).filter fun k => k % 2 == 1).map fun k => (sigma + k, s.word (.check 0) (sigma + k))

/-- FORNEY's `ov`: omega evaluated at the inverse of `ps`, with `zlog` its exponent (R281 step 2). -/
def State.forneyOv (s : State) (omega zlog jisu : Nat) : Nat :=
  ((List.range jisu).filter fun j => decide (1 ≤ j)).foldl
    (fun ov j => ov ^^^ s.mulExpV (s.word (.use 1 0) (omega + j)).toNat ((zlog * j) % s.fieldMax))
    (s.word (.use 1 0) omega).toNat

/-- FORNEY's `dv`: sigma's formal derivative at the same point (R281 step 3). -/
def State.forneyDv (s : State) (sigma zlog jisu : Nat) : Nat :=
  ((List.range jisu).filter fun j => decide (2 ≤ j) && j % 2 == 0).foldl
    (fun dv j => dv ^^^ s.mulExpV (s.word (.use 0 0) (sigma + (j + 1))).toNat ((zlog * j) % s.fieldMax))
    (s.word (.use 0 0) (sigma + 1)).toNat

/-- FORNEY's rule (R281): sigma = A[1], omega = A[2], jisu = A[3], ps = A[4]; both polynomials in value form. -/
def ruleForney (s : State) : Rule := do
  require (s.opU 3 != 0) .length 3
  s.checkRegion (s.opU 1) (forneyH (s.opU 3) + 1)
  s.checkRegion (s.opU 2) (s.opU 3)
  s.checkV 4
  checkCells s.isValue (s.cells (.check 1) (s.opU 2) (s.opU 3) ++ s.sigmaCells (s.opU 1) (forneyH (s.opU 3)))
  require (s.opU 4 != 0) .zeroDomain 4
  let zlog := s.fieldMax - s.logAt (s.opU 4)
  let dv := s.forneyDv (s.opU 1) zlog (s.opU 3)
  require (dv != 0) .divZero 0
  .ok (resultOnly (BitVec.ofNat 32 (s.mulV (s.opU 4) (s.divV (s.forneyOv (s.opU 2) zlog (s.opU 3)) dv))))

/-- FORNEY (OP 0x41, R281): the magnitude of one error at a known position. -/
def execForney (s : State) : Host.Outcome State Fault Refusal := runCommand ruleForney s

end Sys2Proof.Machine
end

