-- ==== Sys2Proof/Machine/Dispatch.lean ====
section
/-! DEFINITION. One arm per command: its meaning, the completion step of 30_encoding.md R111. -/

namespace Sys2Proof.Machine

def exec (i : Instr) (s : State) : Host.Outcome State Fault Refusal :=
  match i with
  -- the field engine (41_field_engine.md)
  | .build => Sys2Proof.Machine.execBuild s
  | .mul => Sys2Proof.Machine.execMul s
  | .div => Sys2Proof.Machine.execDiv s
  | .inv => Sys2Proof.Machine.execInv s
  | .mulexp => Sys2Proof.Machine.execMulexp s
  | .divexp => Sys2Proof.Machine.execDivexp s
  | .toexp => Sys2Proof.Machine.execToexp s
  | .tolog => Sys2Proof.Machine.execTolog s
  -- log-form scalars (42_log_scalar.md)
  | .ladd => Sys2Proof.Machine.execLadd s
  | .lmul => Sys2Proof.Machine.execLmul s
  | .ldiv => Sys2Proof.Machine.execLdiv s
  | .lpow => Sys2Proof.Machine.execLpow s
  -- polynomials (43_polynomial.md)
  | .pxor => Sys2Proof.Machine.execPxor s
  | .ladds => Sys2Proof.Machine.execLadds s
  | .v2l => Sys2Proof.Machine.execV2l s
  | .l2v => Sys2Proof.Machine.execL2v s
  | .lconv => Sys2Proof.Machine.execLconv s
  | .vmul => Sys2Proof.Machine.execVmul s
  | .ldiff => Sys2Proof.Machine.execLdiff s
  | .lsubst => Sys2Proof.Machine.execLsubst s
  -- generators and tables (44_generator.md)
  | .mkgx => Sys2Proof.Machine.execMkgx s
  | .mkgxl => Sys2Proof.Machine.execMkgxl s
  | .mkenc => Sys2Proof.Machine.execMkenc s
  | .mkdec => Sys2Proof.Machine.execMkdec s
  -- syndromes and Forney (45_syndrome_forney.md)
  | .synd => Sys2Proof.Machine.execSynd s
  | .forney => Sys2Proof.Machine.execForney s

end Sys2Proof.Machine
end

