-- ==== Sys2Proof/Machine/Window.lean ====
section
/-! DEFINITION. The register window (10_state.md §2): which register an offset names, what a host read returns and
changes, and what a host write changes. -/

namespace Sys2Proof.Machine

/-- The registers of the window (10_state.md §2). -/
inductive Reg where
  | id
  | param
  | ctrl
  | status
  | cmd
  | errcode
  | errinfo
  | result
  | arg (k : Fin 6)
  | paddr
  | pdata
  | fw
  | fpoly
  | fsym
  | fmax
  | reserved
deriving DecidableEq, Repr

/-- The register at a byte offset (10_state.md §2; offsets 0x050–0xFFC are reserved, R35). -/
def Reg.ofOffset (offset : BitVec 12) : Reg :=
  match offset.toNat with
  | 0x000 => .id
  | 0x004 => .param
  | 0x008 => .ctrl
  | 0x00C => .status
  | 0x010 => .cmd
  | 0x014 => .errcode
  | 0x018 => .errinfo
  | 0x01C => .result
  | 0x020 => .arg 0
  | 0x024 => .arg 1
  | 0x028 => .arg 2
  | 0x02C => .arg 3
  | 0x030 => .arg 4
  | 0x034 => .arg 5
  | 0x038 => .paddr
  | 0x03C => .pdata
  | 0x040 => .fw
  | 0x044 => .fpoly
  | 0x048 => .fsym
  | 0x04C => .fmax
  | _ => .reserved

/-- The window offset of a bus address, where the platform decodes it to this block (20_memory.md R88). -/
def windowOffset (addr : Nat) : Option (BitVec 12) :=
  if Config.base ≤ addr ∧ addr < Config.base + 4096 then some (BitVec.ofNat 12 (addr - Config.base)) else none

/-- ID's constant, ASCII "GFRS" (10_state.md R22). -/
def idValue : Word := 0x47465253

/-- The value a register read returns, but for PDATA (10_state.md R22–R35); a read of any of them has no side effect
(20_memory.md R96). -/
def State.regValue (s : State) (r : Reg) : Word :=
  match r with
  | .id => idValue
  | .param => s.param
  | .ctrl => s.ctrlWord
  | .status => s.statusWord
  | .cmd => s.cmdl
  | .errcode => s.errcode.setWidth 32
  | .errinfo => s.errinfo
  | .result => s.result
  | .arg k => s.args[k]
  | .paddr => s.paddr
  | .pdata => 0
  | .fw => s.fw
  | .fpoly => s.fpoly
  | .fsym => s.fsym
  | .fmax => s.fmax
  | .reserved => 0

/-- PDATA is refused while a command runs or when PADDR is outside PMEM (10_state.md R33). -/
def State.pdataBlocked (s : State) : Bool := s.busy || decide (s.pmemWords ≤ s.paddr.toNat)

/-- A host read of PDATA (10_state.md R33): the word at PADDR, which then advances; or HERR and 0. -/
def readPdata (s : State) : State :=
  if s.pdataBlocked then { s.setHerr with resp := .data 0 }
  else { s with resp := .data (s.word .host s.paddr.toNat), paddr := s.paddr + 1, tick := s.tick + 1 }

/-- A host write of PDATA (10_state.md R33): the word at PADDR is written and PADDR advances; or HERR. -/
def writePdata (v : Word) (s : State) : State :=
  if s.pdataBlocked then s.setHerr
  else { s with pmem := s.pmem.write s.paddr.toNat v, paddr := s.paddr + 1 }

/-- A host write of CMD (10_state.md R26): acceptance while idle, dropped with HERR while BUSY. -/
def writeCmd (c : Word) (s : State) : State := if s.busy then s.setHerr else accept c s

/-- A host write to a register (10_state.md R22–R35): read-only and reserved registers ignore it. -/
def writeReg (r : Reg) (v : Word) (s : State) : State :=
  match r with
  | .ctrl => s.writeCtrl v
  | .status => s.writeStatus v
  | .cmd => writeCmd v s
  | .arg k => { s with args := s.args.set k v }
  | .paddr => { s with paddr := v }
  | .pdata => writePdata v s
  | .id | .param | .errcode | .errinfo | .result | .fw | .fpoly | .fsym | .fmax | .reserved => s

/-- A host read of a register: the bus returns its value; only PDATA's read changes anything else
(20_memory.md R96). -/
def readReg (r : Reg) (s : State) : State :=
  match r with
  | .pdata => readPdata s
  | _ => { s with resp := .data (s.regValue r) }

/-- One host access: an aligned 32-bit one is performed, any other gets a bus error and changes no state of the block
(20_memory.md R82). -/
def hostAccess (a : BusAccess) (s : State) : State :=
  if a.wf then
    match a.op with
    | .read => readReg (Reg.ofOffset a.offset) s
    | .write v => { writeReg (Reg.ofOffset a.offset) v s with resp := .ack }
  else { s with resp := .error }

end Sys2Proof.Machine
end

