-- ==== Sys2Proof/Machine/Engine.lean ====
section
/-! DEFINITION. The engine's completion step, and what each event of the schedule does (10_state.md R40;
20_memory.md R90; 30_encoding.md R111; 60_exceptions.md R307). -/

namespace Sys2Proof.Machine

/-- The engine's one indivisible step for the accepted command (30_encoding.md R111, R112): decode CMDL, then the
command's meaning, or ILLEGAL_CMD(0) for a word that names none. -/
def engineStep (s : State) : Host.Outcome State Fault Refusal :=
  match decode s.cmdl with
  | .ok i => exec i s
  | .error _ => .next (takeFault ⟨.illegalCmd, 0⟩ s)

/-- The engine's turn: it completes the running command, or stays idle (10_state.md R40, 60_exceptions.md R318). -/
def engineTurn (s : State) : Host.Outcome State Fault Refusal := if s.busy then engineStep s else .next s

/-- One event, already taken off the schedule (log 6). -/
def handle (e : Event) (s : State) : Host.Outcome State Fault Refusal :=
  match e with
  | .access a => .next (hostAccess a s)
  | .engine => engineTurn s
  | .reset => .next (resetBlock s)

/-- The next thing that happens: the schedule's first event, or, when no host access or reset is to come, the engine's
turn, since every accepted command completes (70_reset_and_hazards.md R356; log 6). -/
def advance (s : State) : Host.Outcome State Fault Refusal :=
  match s.events with
  | [] => engineTurn s
  | e :: rest => handle e { s with events := rest }

/-- The state in which the engine has accepted command word `w` and its completion is the very next event: the host
wrote `w` to CMD (30_encoding.md R110). Log 11. -/
def fetchWord (w : Nat) (s : State) : State :=
  { accept (BitVec.ofNat 32 w) s with events := .engine :: s.events }

end Sys2Proof.Machine
end

