-- ==== Sys2Proof/Machine/Step.lean ====
section
/-! DEFINITION. One step of the machine: the next event of the schedule, a host access, the engine's completion of the
running command, or a reset, each indivisible (20_memory.md R90). -/

namespace Sys2Proof.Machine

/-- One step. -/
def step (s : State) : Host.Outcome State Fault Refusal := advance s

/-- `s` with the command word `w` accepted, so that the very next step runs it. A command is one 32-bit word
(30_encoding.md R112), of which the opcode table gives `nbits`; the bits above are 0. Log 11. -/
def State.withFetchWord (s : State) (nbits w : Nat) : State := fetchWord (w % 2 ^ nbits) s

end Sys2Proof.Machine
end

