-- ==== Sys2Proof/Machine/HostOps.lean ====
section
/-! DEFINITION. The host's pseudo-instructions (30_encoding.md R118) as the bus accesses they expand to. The host's own
control flow and computation (`if`, `goto`, `let`) make no bus access and are not part of the block. -/

namespace Sys2Proof.Machine

/-- The byte offset of a register (10_state.md §2); the first reserved one for `reserved`. -/
def Reg.offset (r : Reg) : BitVec 12 :=
  match r with
  | .id => 0x000
  | .param => 0x004
  | .ctrl => 0x008
  | .status => 0x00C
  | .cmd => 0x010
  | .errcode => 0x014
  | .errinfo => 0x018
  | .result => 0x01C
  | .arg k => BitVec.ofNat 12 (0x020 + 4 * k)
  | .paddr => 0x038
  | .pdata => 0x03C
  | .fw => 0x040
  | .fpoly => 0x044
  | .fsym => 0x048
  | .fmax => 0x04C
  | .reserved => 0x050

/-- The host's pseudo-instructions (30_encoding.md R118). -/
inductive HostOp where
  /-- `WR REG, v`. -/
  | wr (r : Reg) (v : Word)
  /-- `RD REG -> t`. -/
  | rd (r : Reg)
  /-- `WAIT`: read STATUS until BUSY reads 0. -/
  | wait
  /-- `MNEMONIC n0=v0, …`: each named operand with its ARG index. -/
  | command (i : Instr) (operands : List (Fin 6 × Word))
  /-- `PUT addr, v0, v1, …`. -/
  | put (addr : Word) (vs : List Word)
  /-- `GET addr, n -> t[0..n)`. -/
  | get (addr : Word) (n : Nat)
deriving DecidableEq, Repr

/-- A command line names operands of its row only, in increasing k (30_encoding.md R114, R118). -/
def HostOp.wf (h : HostOp) : Bool :=
  match h with
  | .command i ops => ops.all (fun o => (operandKind i o.1).isSome) && decide (ops.Pairwise fun o p => o.1 < p.1)
  | _ => true

/-- One 32-bit write of a register, as an event. -/
def wrEvent (r : Reg) (v : Word) : Event := .access (BusAccess.write r.offset v)

/-- One 32-bit read of a register, as an event. -/
def rdEvent (r : Reg) : Event := .access (BusAccess.read r.offset)

/-- A `WAIT` that polls `polls` times before the engine's turn: the engine completes, and the next poll ends it
(30_encoding.md R118). DESIGN CHOICE, log 12: how often it polls is not fixed, and is this argument. On an idle block the
engine's turn changes nothing and R118's loop ends at its first read, so 0 is the only count that is R118's there. -/
def waitEvents (polls : Nat) : List Event :=
  List.replicate polls (rdEvent .status) ++ [.engine, rdEvent .status]

/-- The events a pseudo-instruction adds to the schedule (30_encoding.md R118), its WAIT polling `polls` times before the
engine's turn (log 12); one without a WAIT does not use the count. -/
def HostOp.expand (polls : Nat) (h : HostOp) : List Event :=
  match h with
  | .wr r v => [wrEvent r v]
  | .rd r => [rdEvent r]
  | .wait => waitEvents polls
  | .command i ops =>
    ops.map (fun o => wrEvent (.arg o.1) o.2) ++ wrEvent .cmd (encode i) :: waitEvents polls
  | .put addr vs => wrEvent .paddr addr :: vs.map (fun v => wrEvent .pdata v)
  | .get addr n => wrEvent .paddr addr :: List.replicate n (rdEvent .pdata)

/-- The schedule of a host program without branches: its pseudo-instructions in order, each with its WAIT's own count of
early polls. DESIGN CHOICE, log 12: R118 and LATENCY, which depends on the command and its operands (00_scope.md R5),
leave the count of each WAIT open, so the program is given one for each. -/
def hostProgram (p : List (Nat × HostOp)) : List Event := p.flatMap fun o => o.2.expand o.1

end Sys2Proof.Machine
end

