-- ==== Sys2Proof/Safety.lean ====
section
/-! DEFINITION. What counts as a good state and a good run, in the terms the statements use. -/

namespace Sys2Proof.Machine

/-- READY = 1 means: FW, FMAX and FSYM are those of a field this hardware has, and the tables are the ones BUILD makes
for FPOLY and FW (10_state.md R34, R36–R38; 41_field_engine.md R141). -/
def State.FieldInv (s : State) : Prop :=
  s.ready = true →
    (s.fw = 8 ∨ s.fw = 16) ∧ s.fieldMax = 2 ^ s.fw.toNat - 1 ∧ s.symStart < s.fieldMax
      ∧ buildTables s.fpoly.toNat s.fw.toNat = some (s.exp, s.log)

/-- The invariant of the block: what every step keeps. -/
structure State.Inv (s : State) : Prop where
  /-- PMEM_WORDS is in its range (20_memory.md R80). -/
  words : 1024 ≤ s.pmemWords ∧ s.pmemWords ≤ 2 ^ 31
  /-- PMEM keeps its canonical form. -/
  memWf : s.pmem.wf
  /-- No word outside PMEM is ever written (20_memory.md R81, R84). -/
  memBelow : s.pmem.below s.pmemWords
  /-- READY means a usable field (10_state.md R38). -/
  field : s.FieldInv
  /-- Without READY, and no BUILD running, the descriptor reads 0 (10_state.md R34, 70_reset_and_hazards.md R340). -/
  noField : s.ready = false → ¬(s.busy = true ∧ s.cmdl = 1) → s.fw = 0 ∧ s.fpoly = 0 ∧ s.fsym = 0 ∧ s.fmax = 0
  /-- While a command runs DONE and the fault record read 0 (30_encoding.md R110, 70_reset_and_hazards.md R351). -/
  running : s.busy = true → s.done = false ∧ s.err = false
  /-- ERR = 1 exactly when ERRCODE holds a cause, codes 1 to 12; without ERR, ERRINFO is 0
  (10_state.md R27, R28; 60_exceptions.md R301). -/
  record : (s.err = true ↔ s.errcode ≠ 0) ∧ s.errcode.toNat ≤ 12 ∧ (s.err = false → s.errinfo = 0)

/-- A run is at its end when nothing is left on the schedule and no command runs (70_reset_and_hazards.md R357). -/
def State.atEnd (s : State) : Bool := s.events.isEmpty && !s.busy

/-- Whether one step is the completion of a command that faulted (60_exceptions.md R310): the engine was running and is
idle after it with ERR = 1. -/
def completesFaulted (s t : State) : Bool := s.busy && !t.busy && t.err

/-- The run-level fault record of 60_exceptions.md R310: whether some completion among the next `n` steps faulted. -/
def runFaulted : Nat → State → Bool
  | 0, _ => false
  | n + 1, s =>
    match step s with
    | .next t => completesFaulted s t || runFaulted n t
    | _ => false

/-- Whether HERR is 1 in the state or in one of the next `n` (70_reset_and_hazards.md R350, R357: HERR = 1 marks a run in
which the host broke the BUSY protocol). -/
def runHerr : Nat → State → Bool
  | 0, s => s.herr
  | n + 1, s =>
    s.herr || match step s with
      | .next t => runHerr n t
      | _ => false

/-- A run without a reset that ended without a fault and in which the host kept the BUSY protocol
(70_reset_and_hazards.md R350, R357; 60_exceptions.md R310). DESIGN CHOICE, log 19: R357 says nothing of a run that
includes a reset, and none is counted clean here; HERR must be 0 in every state of the run, so that neither a STATUS
write nor a reset takes the mark of a broken protocol away. -/
def cleanRun (n : Nat) (s t : State) : Prop :=
  Sys2Proof.core.run n s = .next t ∧ t.atEnd = true ∧ runFaulted n s = false ∧ runHerr n s = false
    ∧ Event.reset ∉ s.events

/-! ### Terms the statements use -/

/-- The state after a command that completed without a fault and wrote RESULT and nothing else: BUSY = 0, DONE = 1
(30_encoding.md R111), every other field as before, but the model's own draw counter. -/
def afterResult (v : Word) (s : State) : State :=
  { s with result := v, busy := false, done := true, tick := s.tick + 1 }

/-- The state after a command that faulted (60_exceptions.md R300 item 3, R304): the fault record, BUSY = 0, DONE = 1,
every other field as before, but the model's own draw counter. -/
def afterFault (code : BitVec 8) (info : Word) (s : State) : State :=
  { s with err := true, errcode := code, errinfo := info, busy := false, done := true, tick := s.tick + 1 }

/-- The state after a BUILD that faulted (41_field_engine.md R141, 60_exceptions.md R304): also FW, FPOLY, FSYM and FMAX
are 0, READY is 0, and no table entry is specified. -/
def afterBuildFault (code : BitVec 8) (info : Word) (s : State) : State :=
  { afterFault code info s with
    fw := 0, fpoly := 0, fsym := 0, fmax := 0, ready := false, exp := .blank, log := .blank }

/-- `t` is `s` after a command that completed without a fault, wrote `out i` to the PMEM word at `dst + i` for every
`i < n` and, if `res` is some value, RESULT, and changed nothing else: every other word reads as before, and every other
field is as before, but BUSY = 0, DONE = 1 and the model's own draw counter. -/
structure StoredRegion (s t : State) (dst n : Nat) (out : Nat → Word) (res : Option Word) : Prop where
  stored : ∀ i, i < n → t.pmem.read (dst + i) = some (out i)
  others : ∀ a, ¬(dst ≤ a ∧ a < dst + n) → t.pmem.read a = s.pmem.read a
  rest : t = { s with pmem := t.pmem, result := res.getD s.result, busy := false, done := true, tick := s.tick + 1 }

/-- The region `(base, len)` lies inside PMEM, or is empty (20_memory.md R84). -/
abbrev State.Fits (s : State) (base len : Nat) : Prop := len = 0 ∨ base + len ≤ s.pmemWords

/-- Two regions share at least one word (20_memory.md R85). -/
abbrev Shares (base1 len1 base2 len2 : Nat) : Prop :=
  ∃ i, i < len1 ∧ ∃ j, j < len2 ∧ base1 + i = base2 + j

/-- `x` is the lowest address with a property (20_memory.md R86: "the lowest PMEM address among the failing words"). -/
abbrev Lowest (bad : Nat → Prop) (x : Nat) : Prop := bad x ∧ ∀ y, y < x → ¬bad y

/-- ERRINFO of an element fault at PMEM address `x` (60_exceptions.md R303). -/
def elementInfo (x : Nat) : Word := 0x80000000#32 ||| BitVec.ofNat 32 x

/-- The XOR of `f 0, …, f (n-1)`: a sum in the field (00_scope.md R8). -/
def xorSum (n : Nat) (f : Nat → Nat) : Nat := (List.range n).foldl (fun acc i => acc ^^^ f i) 0

/-- A value-form element: `0 ≤ v ≤ MAX` (00_scope.md R8). -/
abbrev State.ValueForm (s : State) (x : Word) : Prop := x.toNat ≤ s.fieldMax

/-- A log-form element: `-1 ≤ l < MAX` (00_scope.md R8). -/
abbrev State.LogForm (s : State) (x : Word) : Prop := -1 ≤ s32 x ∧ s32 x < s.fieldMax

/-- The polynomial with coefficients `cs`, highest degree first, at the field value `x`, by Horner's rule. -/
def State.evalDesc (s : State) (x : Nat) (cs : List Nat) : Nat := cs.foldl (fun acc c => s.mulV acc x ^^^ c) 0

/-- The ARG registers after the writes of a command line's operands (30_encoding.md R118). -/
def setArgs (ops : List (Fin 6 × Word)) (args : Vector Word 6) : Vector Word 6 :=
  ops.foldl (fun acc o => acc.set o.1 o.2) args

/-- The host accesses that 70_reset_and_hazards.md R352 lists: a CMD write while BUSY, a PDATA access while BUSY, a
PDATA access with PADDR outside PMEM; of the accesses the window performs. -/
def State.ProtocolError (s : State) (e : Event) : Prop :=
  (∃ v, e = .access (BusAccess.write 0x010 v) ∧ s.busy = true)
    ∨ (∃ op, e = .access ⟨0x03C, 4, op⟩ ∧ (s.busy = true ∨ s.pmemWords ≤ s.paddr.toNat))

/-- The commands that produce a RESULT (10_state.md R29). -/
def resultProducers : List Instr :=
  [.mul, .div, .inv, .mulexp, .divexp, .toexp, .tolog, .ladd, .lmul, .ldiv, .lpow, .lsubst, .synd, .forney]

/-- What LCONV and VMUL share: the conditions on their operands, in order, and their faults
(43_polynomial.md R204, R205). `good` is the element domain and `coeff k` the output word of index `k`. -/
def ConvOutcome (i : Instr) (s : State) (good : Word → Prop) (coeff : Nat → Word) : Prop :=
  let dst := s.opU 0
  let a := s.opU 1
  let b := s.opU 2
  let len := s.opU 3
  let la := s.opU 4
  let lb := s.opU 5
  let fits := s.Fits dst len ∧ s.Fits a la ∧ s.Fits b lb
  let apart := ¬Shares dst len a la ∧ ¬Shares dst len b lb
  let bad := fun x => (∃ j, j < la ∧ x = a + j ∧ ¬good (s.word (.check 0) x)) ∨ (∃ j, j < lb ∧ x = b + j ∧ ¬good (s.word (.check 1) x))
  (fits → apart → (∀ x, ¬bad x) → ∃ t, exec i s = .next t ∧ StoredRegion s t dst len coeff none)
    ∧ (¬fits → exec i s = .next (afterFault 5 0 s))
    ∧ (fits → ¬apart → exec i s = .next (afterFault 6 0 s))
    ∧ (fits → apart → ∀ x, Lowest bad x → exec i s = .next (afterFault 7 (elementInfo x) s))

/-- What MKENC and MKDEC store (44_generator.md R250, R254, R255): entry `[b][pl][i]`, the product of `b << 8pl` with
`factor i`, at `dst + (2b + pl)·npar + i`, plane 1 only when the width is not 8; every other word and field is as
before. -/
def StoredTable (s t : State) (factor : Nat → Nat) : Prop :=
  let dst := s.opU 0
  let npar := s.opU 3
  let planes := if s.fw = 8 then 1 else 2
  (∀ b pl i, b < 256 → pl < planes → i < npar →
      t.pmem.read (dst + (2 * b + pl) * npar + i) = some (BitVec.ofNat 32 (s.mulV (b * 256 ^ pl) (factor i))))
    ∧ (∀ x, (∀ b pl i, b < 256 → pl < planes → i < npar → x ≠ dst + (2 * b + pl) * npar + i) →
      t.pmem.read x = s.pmem.read x)
    ∧ t = { s with pmem := t.pmem, busy := false, done := true, tick := s.tick + 1 }

end Sys2Proof.Machine
end

