-- ==== Sys2Proof/Certificates/Slice0/Obligations.lean ====
section
/-! DEFINITION. The statements about the model, for the provers: one `def Obligations.<Name> : Prop` each, listed in
OBLIGATIONS.json. Where a command reads PMEM, `s.word r a` is the read at site `r` of the rule, a free draw at each read
of a word not written since reset (log 2); `tick`, on which the draws depend, is the model's own (log 3). -/

open Sys2Proof Sys2Proof.Machine

/-! ### Encoding and stepping -/

/-- 30_encoding.md R112, R113: a word decodes to a command exactly when it is that command's encoding, so decoding an
encoding gives the command back and no other word names a command. -/
def Obligations.DecodeIffEncode : Prop :=
  ∀ (c : Word) (i : Instr), decode c = .ok i ↔ c = encode i

/-- 30_encoding.md R113: a few command words, one per family, decode to the command of their row. -/
def Obligations.DecodeSamples : Prop :=
  decode 0x00000001 = .ok .build ∧ decode 0x00000008 = .ok .tolog ∧ decode 0x00000013 = .ok .lpow
    ∧ decode 0x00000027 = .ok .lsubst ∧ decode 0x00000032 = .ok .mkenc ∧ decode 0x00000041 = .ok .forney
    ∧ decode 0x00000102 = .error .reservedBits ∧ decode 0x00000042 = .error .unassignedOpcode

/-- 30_encoding.md R116: the engine, also when nothing is left on the schedule, raises ILLEGAL_CMD(0) for every word
with RSVD ≠ 0 and every unassigned opcode, whatever READY is, and every other word names a command. -/
def Obligations.ReservedWordsFaultIllegal : Prop :=
  ∀ (s : State) (rest : List Event), s.busy = true →
    let op := s.cmdl.toNat % 256
    let reserved := s.cmdl.toNat / 256 ≠ 0 ∨ op = 0x00 ∨ (0x09 ≤ op ∧ op ≤ 0x0F) ∨ (0x14 ≤ op ∧ op ≤ 0x1F)
      ∨ (0x28 ≤ op ∧ op ≤ 0x2F) ∨ (0x34 ≤ op ∧ op ≤ 0x3F) ∨ 0x42 ≤ op
    (reserved →
        step { s with events := .engine :: rest } = .next (afterFault 1 0 { s with events := rest })
          ∧ step { s with events := [] } = .next (afterFault 1 0 { s with events := [] }))
      ∧ (¬reserved → ∃ i, decode s.cmdl = .ok i)

/-- 20_memory.md R83: byte lane `k` of a transfer carries bits `[8k+7:8k]`, and the four lanes are the word. -/
def Obligations.ByteLanesLittleEndian : Prop :=
  ∀ w : Word,
    (∀ k j, k < 4 → j < 8 → (byteLane w k).getLsbD j = w.getLsbD (8 * k + j))
      ∧ wordOfLanes (byteLane w 0) (byteLane w 1) (byteLane w 2) (byteLane w 3) = w

/-- 30_encoding.md R111: when the engine's turn comes while a command runs, the step is the meaning of the command that
CMDL decodes to; with nothing left on the schedule it is the engine's turn. An idle engine's turn changes nothing,
whatever CMDL holds (10_state.md R40, 60_exceptions.md R318). The schedule is the model's own form of the order the spec
leaves open (log 6). -/
def Obligations.StepRunsDecodedCommand : Prop :=
  ∀ (s : State) (rest : List Event),
    (∀ i, decode s.cmdl = .ok i → s.busy = true →
      (s.events = [] → step s = exec i s)
        ∧ (s.events = .engine :: rest → step s = exec i { s with events := rest }))
    ∧ (s.busy = false →
      (s.events = [] → step s = .next s)
        ∧ (s.events = .engine :: rest → step s = .next { s with events := rest }))

/-- 30_encoding.md R110: a write of CMD while BUSY = 0 latches the word and the operands, clears DONE and the fault
record, clears READY for BUILD's word only, sets BUSY, and changes nothing else. -/
def Obligations.AcceptanceLatchesCommand : Prop :=
  ∀ (s : State) (c : Word) (rest : List Event), s.busy = false →
    step { s with events := .access (BusAccess.write 0x010 c) :: rest }
      = .next { s with
          events := rest
          cmdl := c
          latch := s.args
          done := false
          err := false
          errcode := 0
          errinfo := 0
          ready := if c = 0x00000001 then false else s.ready
          busy := true
          resp := .ack }

/-! ### The register window -/

/-- 10_state.md R22–R35, 20_memory.md R96: a read of any register but PDATA returns the register's value, at its offset,
and changes nothing. -/
def Obligations.RegisterReadsReturnValues : Prop :=
  ∀ (s : State) (rest : List Event),
    let reads := fun (offset : BitVec 12) (v : Word) =>
      step { s with events := .access (BusAccess.read offset) :: rest }
        = .next { s with events := rest, resp := .data v }
    (reads 0x000 0x47465253 ∧ reads 0x004 s.param ∧ reads 0x010 s.cmdl ∧ reads 0x014 (0#24 ++ s.errcode)
      ∧ reads 0x018 s.errinfo ∧ reads 0x01C s.result ∧ reads 0x038 s.paddr
      ∧ reads 0x040 s.fw ∧ reads 0x044 s.fpoly ∧ reads 0x048 s.fsym ∧ reads 0x04C s.fmax)
    ∧ (∀ k : Fin 6, reads (BitVec.ofNat 12 (0x020 + 4 * k)) s.args[k])
    ∧ (∃ ctrl, reads 0x008 ctrl ∧ ctrl.getLsbD 0 = s.ie ∧ ∀ k, 1 ≤ k → ctrl.getLsbD k = false)
    ∧ (∃ status, reads 0x00C status ∧ status.getLsbD 0 = s.busy ∧ status.getLsbD 1 = s.ready
        ∧ status.getLsbD 2 = s.done ∧ status.getLsbD 3 = s.err ∧ status.getLsbD 4 = s.herr
        ∧ ∀ k, 5 ≤ k → status.getLsbD k = false)

/-- 10_state.md R24, R25, R30, R32 and the read-only registers R22, R23, R27–R29, R34: what a register write changes,
whether or not a command runs. That the bus acknowledges a write which its register ignores is the model's choice
(log 7). -/
def Obligations.RegisterWritesChangeOnlyTheirs : Prop :=
  ∀ (s : State) (v : Word) (rest : List Event),
    let writes := fun (offset : BitVec 12) (t : State) =>
      step { s with events := .access (BusAccess.write offset v) :: rest }
        = .next { t with events := rest, resp := .ack }
    (writes 0x000 s ∧ writes 0x004 s ∧ writes 0x014 s ∧ writes 0x018 s ∧ writes 0x01C s
      ∧ writes 0x040 s ∧ writes 0x044 s ∧ writes 0x048 s ∧ writes 0x04C s)
    ∧ writes 0x008 { s with ie := v.getLsbD 0 }
    ∧ writes 0x00C { s with
        done := if v.getLsbD 2 = true then false else s.done
        herr := if v.getLsbD 4 = true then false else s.herr }
    ∧ (∀ k : Fin 6, writes (BitVec.ofNat 12 (0x020 + 4 * k)) { s with args := s.args.set k v })
    ∧ writes 0x038 { s with paddr := v }

/-- 10_state.md R35: the offsets 0x050 through 0xFFC read 0 and ignore writes, with no other effect and no HERR.
That the bus acknowledges the ignored write is the model's choice (log 7). -/
def Obligations.ReservedOffsetsReadZero : Prop :=
  ∀ (s : State) (offset : BitVec 12) (v : Word) (rest : List Event),
    0x050 ≤ offset.toNat → offset.toNat % 4 = 0 →
    step { s with events := .access (BusAccess.read offset) :: rest } = .next { s with events := rest, resp := .data 0 }
      ∧ step { s with events := .access (BusAccess.write offset v) :: rest }
          = .next { s with events := rest, resp := .ack }

/-- 10_state.md R33, 20_memory.md R81: the host's reads and writes of PDATA, and that every read of a written word, the
host's or a command's, returns what was written. A word not written since reset reads as a free draw
(93_implementation_defined.md U2; the model's form of it, and its draw counter: log 2, 3). That the bus acknowledges a
refused write is the model's choice (log 7). -/
def Obligations.PdataAccess : Prop :=
  ∀ (s : State) (v : Word) (rest : List Event),
    let blocked := s.busy = true ∨ s.pmemWords ≤ s.paddr.toNat
    (blocked →
      step { s with events := .access (BusAccess.read 0x03C) :: rest }
          = .next { s with events := rest, herr := true, resp := .data 0 }
        ∧ step { s with events := .access (BusAccess.write 0x03C v) :: rest }
          = .next { s with events := rest, herr := true, resp := .ack })
    ∧ (¬blocked →
      step { s with events := .access (BusAccess.read 0x03C) :: rest }
          = .next { s with
              events := rest
              resp := .data (s.word .host s.paddr.toNat)
              paddr := s.paddr + 1
              tick := s.tick + 1 }
        ∧ ∃ t, step { s with events := .access (BusAccess.write 0x03C v) :: rest } = .next t
            ∧ t.pmem.read s.paddr.toNat = some v
            ∧ (∀ a, a ≠ s.paddr.toNat → t.pmem.read a = s.pmem.read a)
            ∧ t = { s with events := rest, resp := .ack, paddr := s.paddr + 1, pmem := t.pmem })
    ∧ ∀ (r : ReadSite) (a : Nat) (w : Word), s.pmem.read a = some w → s.word r a = w

/-- 70_reset_and_hazards.md R354: a PDATA access that succeeds advances PADDR without wrapping, and one past the end of
PMEM leaves PADDR where it is. -/
def Obligations.PaddrNeverWraps : Prop :=
  ∀ (s t : State) (op : BusOp) (rest : List Event), s.Inv →
    step { s with events := .access ⟨0x03C, 4, op⟩ :: rest } = .next t →
    (t.paddr.toNat = s.paddr.toNat + 1 ∧ s.paddr.toNat < s.pmemWords ∧ t.herr = s.herr)
      ∨ (t.paddr = s.paddr ∧ (s.busy = true ∨ s.pmemWords ≤ s.paddr.toNat) ∧ t.herr = true)

/-- 20_memory.md R82: an access of another width, or at an offset that is not a multiple of 4, gets a bus error and
changes no state of the block, not even HERR. -/
def Obligations.BadAccessRefused : Prop :=
  ∀ (s : State) (a : BusAccess) (rest : List Event), a.size ≠ 4 ∨ a.offset.toNat % 4 ≠ 0 →
    step { s with events := .access a :: rest } = .next { s with events := rest, resp := .error }

/-- 70_reset_and_hazards.md R352: HERR is set by exactly the listed host accesses, which have no other effect (and so
raise no interrupt), and by no command, and stays 1 until a STATUS write with bit 4 = 1 or a reset. -/
def Obligations.HerrSetExactly : Prop :=
  ∀ s t : State, step s = .next t →
    (∀ (e : Event) (rest : List Event), s.events = e :: rest →
      (s.ProtocolError e → ∃ r, t = { s with events := rest, herr := true, resp := r })
        ∧ (¬s.ProtocolError e → s.herr = false → t.herr = false)
        ∧ (s.herr = true → t.herr = false →
            e = .reset ∨ ∃ v, e = .access (BusAccess.write 0x00C v) ∧ v.getLsbD 4 = true))
    ∧ (s.events = [] → t.herr = s.herr)

/-- 70_reset_and_hazards.md R340, R341: a reset, also while a command runs, gives every register its reset value and
leaves no PMEM word and no table entry specified; the IRQ output is 0. PARAM is the instance's constant. The schedule
and the draw counter are the model's own (log 3, 6). -/
def Obligations.ResetGivesResetState : Prop :=
  ∀ (s t : State) (rest : List Event), s.events = .reset :: rest → step s = .next t →
    t.regValue .id = 0x47465253 ∧ t.param = s.param ∧ t.regValue .reserved = 0 ∧ t.ie = false ∧ t.busy = false ∧ t.ready = false ∧ t.done = false ∧ t.err = false
      ∧ t.herr = false ∧ t.statusWord = 0 ∧ t.ctrlWord = 0 ∧ t.cmdl = 0 ∧ t.errcode = 0 ∧ t.errinfo = 0
      ∧ t.result = 0 ∧ (∀ k : Fin 6, t.args[k] = 0 ∧ t.latch[k] = 0) ∧ t.paddr = 0
      ∧ t.fw = 0 ∧ t.fpoly = 0 ∧ t.fsym = 0 ∧ t.fmax = 0 ∧ t.irq = false
      ∧ (∀ i, Table.read expBits t.exp i = none) ∧ (∀ v, Table.read logBits t.log v = none)
      ∧ (∀ a, t.pmem.read a = none) ∧ t.events = rest

/-- 10_state.md R39, 60_exceptions.md R306: IRQ is IE & DONE after every event that can change it: completion raises it
when IE = 1, a CTRL write moves it with IE without clearing DONE, W1C of DONE, acceptance and reset lower it. -/
def Obligations.InterruptFollowsEnableAndDone : Prop :=
  (∀ s : State, s.irq = (s.ie && s.done))
    ∧ (∀ (s t : State) (i : Instr), exec i s = .next t → t.irq = s.ie ∧ t.done = true)
    ∧ ∀ (s t : State) (e : Event) (v : Word) (rest : List Event), s.events = e :: rest → step s = .next t →
      (e = .access (BusAccess.write 0x008 v) → t.irq = (v.getLsbD 0 && s.done) ∧ t.done = s.done)
        ∧ (e = .access (BusAccess.write 0x00C v) → v.getLsbD 2 = true → t.irq = false ∧ t.done = false)
        ∧ (e = .access (BusAccess.write 0x010 v) → s.busy = false → t.irq = false)
        ∧ (e = .reset → t.irq = false)

/-! ### Whole-machine rules -/

/-- The invariant of the block, kept by every step: PMEM canonical and inside its bounds, READY only with a usable field
whose tables are BUILD's, the descriptor 0 without a field, DONE and ERR 0 while a command runs, ERR = 1 exactly with a
cause code 1..12. -/
def Obligations.StepKeepsInvariant : Prop :=
  ∀ s t : State, s.Inv → step s = .next t → t.Inv

/-- The reset state meets the invariant. Its PMEM_WORDS is the reference instance's (log 1). -/
def Obligations.ResetMeetsInvariant : Prop := State.reset.Inv

/-- 60_exceptions.md R305, 70_reset_and_hazards.md R356: the block never halts and refuses no command word: every step
answers a next state; and an accepted command completes, or is abandoned by reset, at the latest when the schedule's
events are over (the schedule is the model's own, log 6). -/
def Obligations.BlockNeverHalts : Prop :=
  (∀ s : State, ∃ t, step s = .next t)
    ∧ ∀ s : State, s.busy = true →
      ∃ k t, 1 ≤ k ∧ k ≤ s.events.length + 1 ∧ Sys2Proof.core.run k s = .next t ∧ t.busy = false

/-- 60_exceptions.md R313, 10_state.md R34, R36, R37: no command but BUILD, and no host access but the acceptance of
BUILD (which clears READY), changes the current field, READY or the tables. -/
def Obligations.OnlyBuildChangesField : Prop :=
  (∀ (s t : State) (i : Instr), i ≠ .build → exec i s = .next t →
    t.fw = s.fw ∧ t.fpoly = s.fpoly ∧ t.fsym = s.fsym ∧ t.fmax = s.fmax ∧ t.ready = s.ready
      ∧ t.exp = s.exp ∧ t.log = s.log)
    ∧ ∀ (s t : State) (a : BusAccess) (rest : List Event), s.events = .access a :: rest → step s = .next t →
      t.fw = s.fw ∧ t.fpoly = s.fpoly ∧ t.fsym = s.fsym ∧ t.fmax = s.fmax ∧ t.exp = s.exp ∧ t.log = s.log
        ∧ (t.ready = s.ready ∨ (t.ready = false ∧ a = BusAccess.write 0x010 0x00000001 ∧ s.busy = false))

/-- 60_exceptions.md R304: a fault changes nothing but the fault record and the completion bits; a faulting BUILD also
zeroes the descriptor, clears READY and leaves the tables unspecified; and no command, faulting or not, changes CTRL,
ARG0..ARG5, PADDR, the latch or CMDL. -/
def Obligations.FaultsArePrecise : Prop :=
  (∀ (s t : State) (i : Instr), i ≠ .build → s.err = false → exec i s = .next t → t.err = true →
    t = afterFault t.errcode t.errinfo s)
    ∧ (∀ s t : State, s.err = false → exec .build s = .next t → t.err = true →
      t = afterBuildFault t.errcode t.errinfo s)
    ∧ ∀ (s t : State) (i : Instr), exec i s = .next t →
      t.ie = s.ie ∧ t.args = s.args ∧ t.paddr = s.paddr ∧ t.latch = s.latch ∧ t.cmdl = s.cmdl

/-- 30_encoding.md R111, 10_state.md R42: completion clears BUSY and sets DONE; a command never touches HERR, PARAM or
the schedule, sets ERR only when it faults, and a command that does not fault leaves ERRCODE and ERRINFO alone. -/
def Obligations.CompletionSetsDone : Prop :=
  ∀ (s t : State) (i : Instr), exec i s = .next t →
    t.busy = false ∧ t.done = true ∧ t.herr = s.herr ∧ t.param = s.param ∧ t.events = s.events ∧ t.resp = s.resp
      ∧ ((t.err = true ∧ t.errcode ≠ 0) ∨ (t.err = s.err ∧ t.errcode = s.errcode ∧ t.errinfo = s.errinfo))

/-- 10_state.md R29: in a state that meets the invariant, RESULT changes only at the completion, without a fault, of a
command that produces one, or at reset. -/
def Obligations.ResultChangesOnlyAtSuccess : Prop :=
  ∀ s t : State, s.Inv → step s = .next t → t.result ≠ s.result →
    (∃ rest, s.events = .reset :: rest)
      ∨ (s.busy = true ∧ (s.events = [] ∨ ∃ rest, s.events = .engine :: rest) ∧ t.err = false
          ∧ ∃ i ∈ resultProducers, decode s.cmdl = .ok i)

/-- 60_exceptions.md R302 item 2, R301 code 2: without a current field every command but BUILD faults NOT_READY(0). -/
def Obligations.NotReadyFaults : Prop :=
  ∀ (s : State) (i : Instr), i ≠ .build → s.ready = false → exec i s = .next (afterFault 2 0 s)

/-- 70_reset_and_hazards.md R351, 10_state.md R31, 20_memory.md R90: while a command runs, a host access changes neither
the command nor its outcome. -/
def Obligations.HostCannotDisturbRunningCommand : Prop :=
  ∀ (s t t' : State) (a : BusAccess) (i : Instr), s.busy = true →
    exec i s = .next t → exec i (hostAccess a s) = .next t' →
    (hostAccess a s).busy = true ∧ (hostAccess a s).cmdl = s.cmdl ∧ (hostAccess a s).latch = s.latch
      ∧ t'.result = t.result ∧ t'.pmem = t.pmem ∧ t'.err = t.err ∧ t'.errcode = t.errcode ∧ t'.errinfo = t.errinfo
      ∧ t'.ready = t.ready ∧ t'.fw = t.fw ∧ t'.fpoly = t.fpoly ∧ t'.fsym = t.fsym ∧ t'.fmax = t.fmax
      ∧ t'.exp = t.exp ∧ t'.log = t.log ∧ t'.busy = t.busy ∧ t'.done = t.done

/-- 30_encoding.md R118: a command line run from an idle block writes the named ARG registers, has its command accepted
with them, waits however often it polls (log 12), and ends with the command's outcome and a STATUS read that shows
BUSY = 0. -/
def Obligations.CommandLineRunsCommand : Prop :=
  ∀ (s : State) (i : Instr) (ops : List (Fin 6 × Word)) (polls : Nat) (rest : List Event),
    s.busy = false → s.events = (HostOp.command i ops).expand polls ++ rest →
    ∃ r t, exec i { accept (encode i) { s with args := setArgs ops s.args } with
          events := rdEvent .status :: rest, resp := r } = .next t
      ∧ t.busy = false
      ∧ Sys2Proof.core.run (ops.length + 1 + polls + 2) s = .next { t with events := rest, resp := .data t.statusWord }

/-! ### BUILD and the field -/

/-- 41_field_engine.md R141: BUILD. With a legal width and symStart, when the walk from 1 first returns to 1 after
`2^w - 1` steps, the new field is set, its tables hold the walk, and nothing else changes; the two CONFIG faults and
NONPRIMITIVE are raised in this order otherwise. -/
def Obligations.BuildOutcome : Prop :=
  ∀ s : State,
    let poly := s.opU 1
    let w := s.opU 2
    let m := 2 ^ w - 1
    let walk := fun i => (walkStep poly w)^[i] 1
    let primitive := (∀ i, 0 < i → i < m → walk i ≠ 1) ∧ walk m = 1
    (w ≠ 8 → w ≠ 16 → exec .build s = .next (afterBuildFault 3 2 s))
    ∧ ((w = 8 ∨ w = 16) → m ≤ s.opU 3 → exec .build s = .next (afterBuildFault 3 3 s))
    ∧ ((w = 8 ∨ w = 16) → s.opU 3 < m → ¬primitive → exec .build s = .next (afterBuildFault 12 0 s))
    ∧ ((w = 8 ∨ w = 16) → s.opU 3 < m → primitive →
        ∃ t, exec .build s = .next t
          ∧ (∀ i, i < m → t.expAt i = walk i ∧ t.expAt (m + i) = walk i ∧ t.logAt (walk i) = i)
          ∧ t = { s with
              fw := s.a 2
              fpoly := s.a 1
              fsym := s.a 3
              fmax := BitVec.ofNat 32 m
              ready := true
              exp := t.exp
              log := t.log
              busy := false
              done := true
              tick := s.tick + 1 })

/-- 41_field_engine.md R142: only POLY[w-1:0] affects the tables. -/
def Obligations.PolyHighBitsIgnored : Prop :=
  ∀ poly poly' w : Nat, poly % 2 ^ w = poly' % 2 ^ w → buildTables poly w = buildTables poly' w

/-- 41_field_engine.md R150 and 10_state.md R36, R37: in a state with a field, the tables are inverse to each other and
periodic, every EXP entry is a nonzero element and every logarithm is below MAX; INV is the inverse of MUL, and DIV undoes
MUL. -/
def Obligations.FieldTablesAreInverse : Prop :=
  ∀ s : State, s.ready = true → s.FieldInv →
    (∀ v, 1 ≤ v → v ≤ s.fieldMax → s.expAt (s.logAt v) = v ∧ s.logAt v < s.fieldMax)
      ∧ (∀ i, i < s.fieldMax → s.logAt (s.expAt i) = i ∧ 1 ≤ s.expAt i ∧ s.expAt i ≤ s.fieldMax)
      ∧ (∀ i, i < s.fieldMax → s.expAt (i + s.fieldMax) = s.expAt i)
      ∧ (∀ a, 1 ≤ a → a ≤ s.fieldMax → s.mulV a (s.expAt (s.fieldMax - s.logAt a)) = 1)
      ∧ (∀ a b, 1 ≤ a → a ≤ s.fieldMax → 1 ≤ b → b ≤ s.fieldMax → s.divV (s.mulV a b) b = a)

/-- 41_field_engine.md R151: MUL is commutative, associative and distributes over XOR, 1 is its identity, and it stays in
the field; the nonzero elements are the powers of α = 2, whose exponents add modulo MAX. -/
def Obligations.FieldMultiplicationLaws : Prop :=
  ∀ s : State, s.ready = true → s.FieldInv →
    ∀ a b c, a ≤ s.fieldMax → b ≤ s.fieldMax → c ≤ s.fieldMax →
      s.mulV a b = s.mulV b a
        ∧ s.mulV (s.mulV a b) c = s.mulV a (s.mulV b c)
        ∧ s.mulV a (b ^^^ c) = s.mulV a b ^^^ s.mulV a c
        ∧ s.mulV 1 a = a ∧ s.mulV a b ≤ s.fieldMax ∧ b ^^^ c ≤ s.fieldMax
        ∧ (s.expAt 1 = 2)
        ∧ (∀ i j, i < s.fieldMax → j < s.fieldMax →
            s.mulV (s.expAt i) (s.expAt j) = s.expAt ((i + j) % s.fieldMax))

/-! ### The field engine's scalar commands -/

/-- 41_field_engine.md R143: MUL. -/
def Obligations.MulOutcome : Prop :=
  ∀ s : State, s.ready = true →
    let a := s.opU 1
    let b := s.opU 2
    (a ≤ s.fieldMax → b ≤ s.fieldMax →
      exec .mul s = .next (afterResult
        (if a = 0 ∨ b = 0 then 0 else BitVec.ofNat 32 (s.expAt (s.logAt a + s.logAt b))) s))
    ∧ (s.fieldMax < a → exec .mul s = .next (afterFault 7 1 s))
    ∧ (a ≤ s.fieldMax → s.fieldMax < b → exec .mul s = .next (afterFault 7 2 s))

/-- 41_field_engine.md R144: DIV; a zero divisor faults whatever the dividend is. -/
def Obligations.DivOutcome : Prop :=
  ∀ s : State, s.ready = true →
    let a := s.opU 1
    let b := s.opU 2
    (a ≤ s.fieldMax → b ≤ s.fieldMax → b ≠ 0 →
      exec .div s = .next (afterResult
        (if a = 0 then 0 else BitVec.ofNat 32 (s.expI ((s.logAt a : Int) + s.fieldMax - s.logAt b))) s))
    ∧ (s.fieldMax < a → exec .div s = .next (afterFault 7 1 s))
    ∧ (a ≤ s.fieldMax → s.fieldMax < b → exec .div s = .next (afterFault 7 2 s))
    ∧ (a ≤ s.fieldMax → b = 0 → exec .div s = .next (afterFault 10 2 s))

/-- 41_field_engine.md R145: INV. -/
def Obligations.InvOutcome : Prop :=
  ∀ s : State, s.ready = true →
    let a := s.opU 1
    (a ≤ s.fieldMax → a ≠ 0 →
      exec .inv s = .next (afterResult (BitVec.ofNat 32 (s.expAt (s.fieldMax - s.logAt a))) s))
    ∧ (s.fieldMax < a → exec .inv s = .next (afterFault 7 1 s))
    ∧ (a = 0 → exec .inv s = .next (afterFault 8 1 s))

/-- 41_field_engine.md R146: MULEXP; the exponent is checked even when the element is 0. -/
def Obligations.MulexpOutcome : Prop :=
  ∀ s : State, s.ready = true →
    let a := s.opU 1
    let e := s.opU 2
    (a ≤ s.fieldMax → e ≤ s.fieldMax →
      exec .mulexp s = .next (afterResult (if a = 0 then 0 else BitVec.ofNat 32 (s.expAt (s.logAt a + e))) s))
    ∧ (s.fieldMax < a → exec .mulexp s = .next (afterFault 7 1 s))
    ∧ (a ≤ s.fieldMax → s.fieldMax < e → exec .mulexp s = .next (afterFault 9 2 s))

/-- 41_field_engine.md R147: DIVEXP; in a state with a field the exponents 0 and MAX both return the element, and DIVEXP
undoes MULEXP. -/
def Obligations.DivexpOutcome : Prop :=
  ∀ s : State, s.ready = true →
    let a := s.opU 1
    let e := s.opU 2
    (a ≤ s.fieldMax → e ≤ s.fieldMax →
      exec .divexp s
        = .next (afterResult (if a = 0 then 0 else BitVec.ofNat 32 (s.expAt (s.logAt a + s.fieldMax - e))) s))
    ∧ (s.fieldMax < a → exec .divexp s = .next (afterFault 7 1 s))
    ∧ (a ≤ s.fieldMax → s.fieldMax < e → exec .divexp s = .next (afterFault 9 2 s))
    ∧ (s.FieldInv → a ≤ s.fieldMax → e = 0 ∨ e = s.fieldMax → exec .divexp s = .next (afterResult (s.a 1) s))
    ∧ (s.FieldInv → 1 ≤ a → a ≤ s.fieldMax → e ≤ s.fieldMax →
        s.expAt (s.logAt (s.mulExpV a e) + s.fieldMax - e) = a)

/-- 41_field_engine.md R148, R149: TOEXP and TOLOG, the raw table reads. -/
def Obligations.TableReadOutcome : Prop :=
  ∀ s : State, s.ready = true →
    (s.opU 1 < 2 * s.fieldMax → exec .toexp s = .next (afterResult (BitVec.ofNat 32 (s.expAt (s.opU 1))) s))
    ∧ (2 * s.fieldMax ≤ s.opU 1 → exec .toexp s = .next (afterFault 9 1 s))
    ∧ (s.opU 1 ≤ s.fieldMax → s.opU 1 ≠ 0 →
        exec .tolog s = .next (afterResult (BitVec.ofNat 32 (s.logAt (s.opU 1))) s))
    ∧ (s.fieldMax < s.opU 1 → exec .tolog s = .next (afterFault 7 1 s))
    ∧ (s.opU 1 = 0 → exec .tolog s = .next (afterFault 8 1 s))

/-! ### Log-form scalars -/

/-- 42_log_scalar.md R180: LADD. -/
def Obligations.LaddOutcome : Prop :=
  ∀ s : State, s.ready = true →
    (s.LogForm (s.a 1) → s.LogForm (s.a 2) →
      exec .ladd s = .next (afterResult (u32 (s.toLogf (s.toVal (s.opS 1) ^^^ s.toVal (s.opS 2)))) s))
    ∧ (¬s.LogForm (s.a 1) → exec .ladd s = .next (afterFault 7 1 s))
    ∧ (s.LogForm (s.a 1) → ¬s.LogForm (s.a 2) → exec .ladd s = .next (afterFault 7 2 s))

/-- 42_log_scalar.md R181: LMUL; the sentinel propagates. -/
def Obligations.LmulOutcome : Prop :=
  ∀ s : State, s.ready = true →
    (s.LogForm (s.a 1) → s.LogForm (s.a 2) →
      exec .lmul s = .next (afterResult
        (if s.opS 1 = -1 ∨ s.opS 2 = -1 then 0xFFFFFFFF else u32 ((s.opS 1 + s.opS 2) % s.fieldMax)) s))
    ∧ (¬s.LogForm (s.a 1) → exec .lmul s = .next (afterFault 7 1 s))
    ∧ (s.LogForm (s.a 1) → ¬s.LogForm (s.a 2) → exec .lmul s = .next (afterFault 7 2 s))

/-- 42_log_scalar.md R182: LDIV; a sentinel divisor faults whatever the dividend is. -/
def Obligations.LdivOutcome : Prop :=
  ∀ s : State, s.ready = true →
    (s.LogForm (s.a 1) → s.LogForm (s.a 2) → s.opS 2 ≠ -1 →
      exec .ldiv s = .next (afterResult
        (if s.opS 1 = -1 then 0xFFFFFFFF else u32 ((s.fieldMax + s.opS 1 - s.opS 2) % s.fieldMax)) s))
    ∧ (¬s.LogForm (s.a 1) → exec .ldiv s = .next (afterFault 7 1 s))
    ∧ (s.LogForm (s.a 1) → ¬s.LogForm (s.a 2) → exec .ldiv s = .next (afterFault 7 2 s))
    ∧ (s.LogForm (s.a 1) → s.opS 2 = -1 → exec .ldiv s = .next (afterFault 10 2 s))

/-- 42_log_scalar.md R183: LPOW; the power is any unsigned 32-bit integer and the product is exact. -/
def Obligations.LpowOutcome : Prop :=
  ∀ s : State, s.ready = true →
    (s.LogForm (s.a 1) →
      exec .lpow s = .next (afterResult
        (if s.opS 1 = -1 then 0xFFFFFFFF else u32 ((s.opS 1 * s.opU 2) % s.fieldMax)) s))
    ∧ (¬s.LogForm (s.a 1) → exec .lpow s = .next (afterFault 7 1 s))

/-- 42_log_scalar.md R184: each log-form command agrees with its value-form counterpart under the conversions; the RESULT
word is read back with s32. -/
def Obligations.LogCommandsAgreeWithValue : Prop :=
  ∀ (s t : State), s.ready = true → s.FieldInv → s.LogForm (s.a 1) → s.LogForm (s.a 2) →
    (exec .lmul s = .next t → s.toVal (s32 t.result) = s.mulV (s.toVal (s.opS 1)) (s.toVal (s.opS 2)))
    ∧ (exec .ldiv s = .next t → s.opS 2 ≠ -1 →
        s.toVal (s32 t.result) = s.divV (s.toVal (s.opS 1)) (s.toVal (s.opS 2)))
    ∧ (exec .ladd s = .next t → s.toVal (s32 t.result) = s.toVal (s.opS 1) ^^^ s.toVal (s.opS 2))

/-! ### Polynomials -/

/-- 43_polynomial.md R200: PXOR, its stores, its frame and its faults in order. That the address recorded is the lowest
one over both sources is read from 20_memory.md R86 (log 9). -/
def Obligations.PxorOutcome : Prop :=
  ∀ s : State, s.ready = true →
    let dst := s.opU 0
    let a := s.opU 1
    let b := s.opU 2
    let n := s.opU 3
    let fits := s.Fits dst n ∧ s.Fits a n ∧ s.Fits b n
    let apart := (dst = a ∨ ¬Shares dst n a n) ∧ (dst = b ∨ ¬Shares dst n b n)
    let bad := fun x => ∃ i, i < n ∧
      ((x = a + i ∧ ¬s.ValueForm (s.word (.check 0) x)) ∨ (x = b + i ∧ ¬s.ValueForm (s.word (.check 1) x)))
    (fits → apart → (∀ x, ¬bad x) →
      ∃ t, exec .pxor s = .next t
        ∧ StoredRegion s t dst n (fun i => s.word (.use 0 0) (a + i) ^^^ s.word (.use 1 0) (b + i)) none)
    ∧ (¬fits → exec .pxor s = .next (afterFault 5 0 s))
    ∧ (fits → ¬apart → exec .pxor s = .next (afterFault 6 0 s))
    ∧ (fits → apart → ∀ x, Lowest bad x → exec .pxor s = .next (afterFault 7 (elementInfo x) s))

/-- 43_polynomial.md R201: LADDS, its stores, its frame and its faults in order. -/
def Obligations.LaddsOutcome : Prop :=
  ∀ s : State, s.ready = true →
    let dst := s.opU 0
    let a := s.opU 1
    let n := s.opU 3
    let fits := s.Fits dst n ∧ s.Fits a n
    let apart := dst = a ∨ ¬Shares dst n a n
    let bad := fun x => ∃ i, i < n ∧ x = a + i ∧ ¬s.LogForm (s.word (.check 0) x)
    (fits → apart → s.LogForm (s.a 2) → (∀ x, ¬bad x) →
      ∃ t, exec .ladds s = .next t
        ∧ StoredRegion s t dst n
            (fun i => u32 (s.toLogf (s.toVal (s32 (s.word (.use 0 0) (a + i))) ^^^ s.toVal (s.opS 2)))) none)
    ∧ (¬fits → exec .ladds s = .next (afterFault 5 0 s))
    ∧ (fits → ¬apart → exec .ladds s = .next (afterFault 6 0 s))
    ∧ (fits → apart → ¬s.LogForm (s.a 2) → exec .ladds s = .next (afterFault 7 2 s))
    ∧ (fits → apart → s.LogForm (s.a 2) → ∀ x, Lowest bad x →
        exec .ladds s = .next (afterFault 7 (elementInfo x) s))

/-- 43_polynomial.md R202: V2L, its stores (in a state with a field 1 becomes 0), its frame and its faults in order. -/
def Obligations.V2lOutcome : Prop :=
  ∀ s : State, s.ready = true →
    let dst := s.opU 0
    let src := s.opU 1
    let n := s.opU 3
    let fits := s.Fits dst n ∧ s.Fits src n
    let apart := dst = src ∨ ¬Shares dst n src n
    let bad := fun x => ∃ i, i < n ∧ x = src + i ∧ ¬s.ValueForm (s.word (.check 0) x)
    let out := fun i => if s.word (.use 0 0) (src + i) = 0 then 0xFFFFFFFF
      else BitVec.ofNat 32 (s.logAt (s.word (.use 0 0) (src + i)).toNat)
    (fits → apart → (∀ x, ¬bad x) → ∃ t, exec .v2l s = .next t ∧ StoredRegion s t dst n out none)
    ∧ (s.FieldInv → ∀ i, s.word (.use 0 0) (src + i) = 1 → out i = 0)
    ∧ (¬fits → exec .v2l s = .next (afterFault 5 0 s))
    ∧ (fits → ¬apart → exec .v2l s = .next (afterFault 6 0 s))
    ∧ (fits → apart → ∀ x, Lowest bad x → exec .v2l s = .next (afterFault 7 (elementInfo x) s))

/-- 43_polynomial.md R203: L2V, its stores, its frame and its faults in order. -/
def Obligations.L2vOutcome : Prop :=
  ∀ s : State, s.ready = true →
    let dst := s.opU 0
    let src := s.opU 1
    let n := s.opU 3
    let fits := s.Fits dst n ∧ s.Fits src n
    let apart := dst = src ∨ ¬Shares dst n src n
    let bad := fun x => ∃ i, i < n ∧ x = src + i ∧ ¬s.LogForm (s.word (.check 0) x)
    (fits → apart → (∀ x, ¬bad x) →
      ∃ t, exec .l2v s = .next t
        ∧ StoredRegion s t dst n
            (fun i => if s.word (.use 0 0) (src + i) = 0xFFFFFFFF then 0
              else BitVec.ofNat 32 (s.expI (s32 (s.word (.use 0 0) (src + i))))) none)
    ∧ (¬fits → exec .l2v s = .next (afterFault 5 0 s))
    ∧ (fits → ¬apart → exec .l2v s = .next (afterFault 6 0 s))
    ∧ (fits → apart → ∀ x, Lowest bad x → exec .l2v s = .next (afterFault 7 (elementInfo x) s))

/-- 43_polynomial.md R204: LCONV: coefficient `k` is the field sum of `α^(a[ia] + b[ib])` over the pairs with
`ia + ib = k` and no sentinel, in log form; its frame and its faults in order. That the address recorded is the lowest
one over both sources is read from 20_memory.md R86 (log 9). -/
def Obligations.LconvOutcome : Prop :=
  ∀ s : State, s.ready = true →
    ConvOutcome .lconv s s.LogForm fun k =>
      u32 (s.toLogf (xorSum (s.opU 4) fun ia =>
        if ia ≤ k ∧ k - ia < s.opU 5 then
          let x := s32 (s.word (.use 0 0) (s.opU 1 + ia))
          let y := s32 (s.word (.use 1 ia) (s.opU 2 + (k - ia)))
          if x = -1 ∨ y = -1 then 0 else s.expI (x + y)
        else 0))

/-- 43_polynomial.md R205: VMUL: coefficient `k` is the field sum of the products of the pairs with `ia + ib = k`; its
frame and its faults in order. That the address recorded is the lowest one over both sources is read from 20_memory.md
R86 (log 9). -/
def Obligations.VmulOutcome : Prop :=
  ∀ s : State, s.ready = true →
    ConvOutcome .vmul s s.ValueForm fun k =>
      BitVec.ofNat 32 (xorSum (s.opU 4) fun ia =>
        if ia ≤ k ∧ k - ia < s.opU 5 then
          s.mulV (s.word (.use 0 0) (s.opU 1 + ia)).toNat (s.word (.use 1 ia) (s.opU 2 + (k - ia))).toNat
        else 0)

/-- 43_polynomial.md R208: converting to log form, convolving and converting back gives the words of the value-form
product, for every truncation `len`; and V2L followed by L2V gives every value-form word back. -/
def Obligations.DualMultiplicationAgrees : Prop :=
  ∀ s : State, s.ready = true → s.FieldInv →
    let v2l := fun x : Word => u32 (s.toLogf x.toNat)
    let l2v := fun x : Word => BitVec.ofNat 32 (s.toVal (s32 x))
    (∀ x : Word, s.ValueForm x → l2v (v2l x) = x ∧ s.LogForm (v2l x))
      ∧ ∀ (xs ys : List Word) (len : Nat), (∀ x ∈ xs, s.ValueForm x) → (∀ y ∈ ys, s.ValueForm y) →
        ((convolve s.termL (xs.map v2l) (ys.map v2l) len).map fun v => l2v (u32 (s.toLogf v)))
          = (convolve s.termV xs ys len).map fun v => BitVec.ofNat 32 v

/-- 43_polynomial.md R206: LDIFF, CUETOOLS's `gfdiff` as stated: the sentinel at even indices and the source's
coefficient `i + 1` at odd ones; its frame and its faults in order. -/
def Obligations.LdiffOutcome : Prop :=
  ∀ s : State, s.ready = true →
    let dst := s.opU 0
    let src := s.opU 1
    let n := s.opU 3
    let fits := s.Fits src n ∧ s.Fits dst (n - 1)
    let apart := ¬Shares dst (n - 1) src n
    let bad := fun x => ∃ i, i < n ∧ x = src + i ∧ ¬s.LogForm (s.word (.check 0) x)
    (n ≠ 0 → fits → apart → (∀ x, ¬bad x) →
      ∃ t, exec .ldiff s = .next t
        ∧ StoredRegion s t dst (n - 1)
            (fun i => if i % 2 = 0 then 0xFFFFFFFF else s.word (.use 0 0) (src + i + 1)) none)
    ∧ (n = 0 → exec .ldiff s = .next (afterFault 4 3 s))
    ∧ (n ≠ 0 → ¬fits → exec .ldiff s = .next (afterFault 5 0 s))
    ∧ (n ≠ 0 → fits → ¬apart → exec .ldiff s = .next (afterFault 6 0 s))
    ∧ (n ≠ 0 → fits → apart → ∀ x, Lowest bad x → exec .ldiff s = .next (afterFault 7 (elementInfo x) s))

/-- 43_polynomial.md R207: LSUBST: the field sum of `α^(c_p + value·p)` over the coefficients that are not the sentinel,
in log form; its faults in order. -/
def Obligations.LsubstOutcome : Prop :=
  ∀ s : State, s.ready = true →
    let src := s.opU 1
    let value := s.opU 2
    let terms := s.opU 3
    let bad := fun x => ∃ i, i < terms ∧ x = src + i ∧ ¬s.LogForm (s.word (.check 0) x)
    (s.Fits src terms → value < s.fieldMax → (∀ x, ¬bad x) →
      exec .lsubst s = .next (afterResult (u32 (s.toLogf (xorSum terms fun p =>
        let c := s32 (s.word (.use 0 0) (src + p))
        if c = -1 then 0 else s.expAt ((c + value * p) % s.fieldMax).toNat))) s))
    ∧ (¬s.Fits src terms → exec .lsubst s = .next (afterFault 5 0 s))
    ∧ (s.Fits src terms → s.fieldMax ≤ value → exec .lsubst s = .next (afterFault 7 2 s))
    ∧ (s.Fits src terms → value < s.fieldMax → ∀ x, Lowest bad x →
        exec .lsubst s = .next (afterFault 7 (elementInfo x) s))

/-! ### Generators and tables -/

/-- 44_generator.md R251: MKGX stores the generator's `npar` words (R253 says which polynomial they are); its frame and
its faults in order. -/
def Obligations.MkgxOutcome : Prop :=
  ∀ s : State, s.ready = true →
    let dst := s.opU 0
    let npar := s.opU 3
    let range := npar ≠ 0 ∧ npar ≤ s.fieldMax
    (range → s.Fits dst npar →
      ∃ t, exec .mkgx s = .next t
        ∧ StoredRegion s t dst npar (fun j => BitVec.ofNat 32 ((s.generator npar).getD j 0)) none)
    ∧ (¬range → exec .mkgx s = .next (afterFault 4 3 s))
    ∧ (range → ¬s.Fits dst npar → exec .mkgx s = .next (afterFault 5 0 s))

/-- 44_generator.md R252: MKGXL stores the generator's logarithms, or faults GEN_ZERO with the lowest index of a zero
coefficient. -/
def Obligations.MkgxlOutcome : Prop :=
  ∀ s : State, s.ready = true →
    let dst := s.opU 0
    let npar := s.opU 3
    let g := s.generator npar
    let range := npar ≠ 0 ∧ npar ≤ s.fieldMax
    let zero := fun j => j < npar ∧ g.getD j 0 = 0
    (range → s.Fits dst npar → (∀ j, ¬zero j) →
      ∃ t, exec .mkgxl s = .next t
        ∧ StoredRegion s t dst npar (fun j => BitVec.ofNat 32 (s.logAt (g.getD j 0))) none)
    ∧ (¬range → exec .mkgxl s = .next (afterFault 4 3 s))
    ∧ (range → ¬s.Fits dst npar → exec .mkgxl s = .next (afterFault 5 0 s))
    ∧ (range → s.Fits dst npar → ∀ j, Lowest zero j →
        exec .mkgxl s = .next (afterFault 11 (BitVec.ofNat 32 j) s))

/-- 44_generator.md R254, R256: MKENC's entry is the byte's value times the generator coefficient; its frame and its
faults in order. -/
def Obligations.MkencOutcome : Prop :=
  ∀ s : State, s.ready = true →
    let npar := s.opU 3
    let g := s.generator npar
    let range := npar ≠ 0 ∧ npar ≤ s.fieldMax
    let fits := s.Fits (s.opU 0) (512 * npar)
    let zero := fun j => j < npar ∧ g.getD j 0 = 0
    (range → fits → (∀ j, ¬zero j) → ∃ t, exec .mkenc s = .next t ∧ StoredTable s t fun i => g.getD i 0)
    ∧ (¬range → exec .mkenc s = .next (afterFault 4 3 s))
    ∧ (range → ¬fits → exec .mkenc s = .next (afterFault 5 0 s))
    ∧ (range → fits → ∀ j, Lowest zero j → exec .mkenc s = .next (afterFault 11 (BitVec.ofNat 32 j) s))

/-- 44_generator.md R255, R256: MKDEC's entry is the byte's value times `α^i`, without symStart, in a state with a field;
its frame and its faults in order. -/
def Obligations.MkdecOutcome : Prop :=
  ∀ s : State, s.ready = true →
    let npar := s.opU 3
    let range := npar ≠ 0 ∧ npar ≤ s.fieldMax
    let fits := s.Fits (s.opU 0) (512 * npar)
    (s.FieldInv → range → fits → ∃ t, exec .mkdec s = .next t ∧ StoredTable s t s.expAt)
    ∧ (¬range → exec .mkdec s = .next (afterFault 4 3 s))
    ∧ (range → ¬fits → exec .mkdec s = .next (afterFault 5 0 s))

/-- 44_generator.md R253: the generator's words, with its leading 1, are the polynomial `Π (x + α^(S+k))`: the two agree
at every field value. -/
def Obligations.GeneratorIsProductOfRoots : Prop :=
  ∀ s : State, s.ready = true → s.FieldInv →
    ∀ npar x, 1 ≤ npar → npar ≤ s.fieldMax → x ≤ s.fieldMax →
      (s.generator npar).length = npar
        ∧ s.evalDesc x (1 :: s.generator npar)
          = (List.range npar).foldl (fun p k => s.mulV p (x ^^^ s.expAt (s.symStart + k))) 1

/-- 44_generator.md R256: LSUBST of the generator in ascending log form, with its leading 1 restored, gives the sentinel
at every root `α^(S+k)`. Every read of a coefficient gives the same word, as it does of a written one. -/
def Obligations.GeneratorVanishesAtRoots : Prop :=
  ∀ (s : State) (npar k : Nat), s.ready = true → s.FieldInv → 1 ≤ npar → npar ≤ s.fieldMax → k < npar →
    (∀ j, j < npar → (s.generator npar).getD j 0 ≠ 0) →
    s.opU 2 = (s.symStart + k) % s.fieldMax → s.opU 3 = npar + 1 → s.Fits (s.opU 1) (npar + 1) →
    (∀ r j, j < npar →
      s.word r (s.opU 1 + j) = BitVec.ofNat 32 (s.logAt ((s.generator npar).getD (npar - 1 - j) 0))) →
    (∀ r, s.word r (s.opU 1 + npar) = 0) →
    exec .lsubst s = .next (afterResult 0xFFFFFFFF s)

/-! ### Syndromes and Forney -/

/-- 45_syndrome_forney.md R280: SYND stores the syndromes and its verdict; its frame and its faults in order. -/
def Obligations.SyndOutcome : Prop :=
  ∀ s : State, s.ready = true →
    let dst := s.opU 0
    let data := s.opU 1
    let len := s.opU 3
    let njar := s.opU 4
    let fits := s.Fits dst njar ∧ s.Fits data len
    let apart := ¬Shares dst njar data len
    let bad := fun x => ∃ j, j < len ∧ x = data + j ∧ ¬s.ValueForm (s.word (.check 0) x)
    let syn := fun i => (List.range len).foldl
      (fun wk j => (s.word (.use 0 i) (data + j)).toNat ^^^ (if wk = 0 then 0 else s.expAt (s.logAt wk + i))) 0
    (njar ≤ s.fieldMax → fits → apart → (∀ x, ¬bad x) →
      ∃ t, exec .synd s = .next t
        ∧ (((∀ i, i < njar → syn i = 0) ∧ StoredRegion s t dst njar (fun i => BitVec.ofNat 32 (syn i)) (some 1))
          ∨ ((∃ i, i < njar ∧ syn i ≠ 0) ∧ StoredRegion s t dst njar (fun i => BitVec.ofNat 32 (syn i)) (some 0))))
    ∧ (s.fieldMax < njar → exec .synd s = .next (afterFault 4 4 s))
    ∧ (njar ≤ s.fieldMax → ¬fits → exec .synd s = .next (afterFault 5 0 s))
    ∧ (njar ≤ s.fieldMax → fits → ¬apart → exec .synd s = .next (afterFault 6 0 s))
    ∧ (njar ≤ s.fieldMax → fits → apart → ∀ x, Lowest bad x →
        exec .synd s = .next (afterFault 7 (elementInfo x) s))

/-- 45_syndrome_forney.md R283 items 1 and 2: the Horner loop is the block's polynomial at `α^i` (the symbol at offset
`j` of a block of `n` is the coefficient of `x^(n-1-j)`, R282), and SYND is linear. -/
def Obligations.SyndromeEvaluatesBlock : Prop :=
  ∀ (s : State) (i : Nat), s.ready = true → s.FieldInv → i < s.fieldMax →
    (∀ block : List Word, (∀ x ∈ block, s.ValueForm x) →
      s.syndrome i block = xorSum block.length fun j =>
        s.mulV (block.getD j 0).toNat (s.expAt ((i * (block.length - 1 - j)) % s.fieldMax)))
    ∧ ∀ block block' : List Word, block.length = block'.length →
        (∀ x ∈ block, s.ValueForm x) → (∀ x ∈ block', s.ValueForm x) →
        s.syndrome i (List.zipWith (· ^^^ ·) block block') = s.syndrome i block ^^^ s.syndrome i block'

/-- 45_syndrome_forney.md R283 item 3: with symStart 0, every block that is a multiple of the generator (data times
generator, both highest degree first, by VMUL's convolution) has only zero syndromes at `α^0 … α^(npar-1)`. -/
def Obligations.CodewordSyndromesVanish : Prop :=
  ∀ (s : State) (npar i : Nat) (data : List Word), s.ready = true → s.FieldInv → s.symStart = 0 →
    1 ≤ npar → npar ≤ s.fieldMax → i < npar → (∀ x ∈ data, s.ValueForm x) →
    s.syndrome i ((convolve s.termV data ((1 :: s.generator npar).map fun v => BitVec.ofNat 32 v)
      (data.length + npar)).map fun v => BitVec.ofNat 32 v) = 0

/-- 45_syndrome_forney.md R281: FORNEY; which words it reads and checks, its formula and its faults in order. -/
def Obligations.ForneyOutcome : Prop :=
  ∀ s : State, s.ready = true →
    let sigma := s.opU 1
    let omega := s.opU 2
    let jisu := s.opU 3
    let ps := s.opU 4
    let h := if jisu % 2 = 1 then jisu else jisu - 1
    let fits := s.Fits sigma (h + 1) ∧ s.Fits omega jisu
    let bad := fun x => (∃ j, j < jisu ∧ x = omega + j ∧ ¬s.ValueForm (s.word (.check 1) x))
      ∨ (∃ k, k ≤ h ∧ k % 2 = 1 ∧ x = sigma + k ∧ ¬s.ValueForm (s.word (.check 0) x))
    let zlog := s.fieldMax - s.logAt ps
    let ov := xorSum jisu fun j =>
      if j = 0 then (s.word (.use 1 0) omega).toNat
      else s.mulExpV (s.word (.use 1 0) (omega + j)).toNat ((zlog * j) % s.fieldMax)
    let dv := xorSum jisu fun j =>
      if j = 0 then (s.word (.use 0 0) (sigma + 1)).toNat
      else if j % 2 = 0 then s.mulExpV (s.word (.use 0 0) (sigma + j + 1)).toNat ((zlog * j) % s.fieldMax)
      else 0
    (jisu ≠ 0 → fits → s.ValueForm (s.a 4) → (∀ x, ¬bad x) → ps ≠ 0 → dv ≠ 0 →
      exec .forney s = .next (afterResult (BitVec.ofNat 32 (s.mulV ps (s.divV ov dv))) s))
    ∧ (jisu = 0 → exec .forney s = .next (afterFault 4 3 s))
    ∧ (jisu ≠ 0 → ¬fits → exec .forney s = .next (afterFault 5 0 s))
    ∧ (jisu ≠ 0 → fits → ¬s.ValueForm (s.a 4) → exec .forney s = .next (afterFault 7 4 s))
    ∧ (jisu ≠ 0 → fits → s.ValueForm (s.a 4) → ∀ x, Lowest bad x →
        exec .forney s = .next (afterFault 7 (elementInfo x) s))
    ∧ (jisu ≠ 0 → fits → (∀ x, ¬bad x) → ps = 0 → exec .forney s = .next (afterFault 8 4 s))
    ∧ (jisu ≠ 0 → fits → s.ValueForm (s.a 4) → (∀ x, ¬bad x) → ps ≠ 0 → dv = 0 →
        exec .forney s = .next (afterFault 10 0 s))

/-- 45_syndrome_forney.md R284: for every nonzero `E` and every position, FORNEY with `jisu = 1`, `sigma = [1, ps]` and
`omega = [E]` returns `E`. Every read of those words gives the same, as it does of a written word. -/
def Obligations.ForneySingleErrorReturnsError : Prop :=
  ∀ (s : State) (E : Word), s.ready = true → s.FieldInv → s.ValueForm E → E ≠ 0 →
    s.opU 3 = 1 → s.Fits (s.opU 1) 2 → s.Fits (s.opU 2) 1 → 1 ≤ s.opU 4 → s.opU 4 ≤ s.fieldMax →
    (∀ r, s.word r (s.opU 1) = 1 ∧ s.word r (s.opU 1 + 1) = s.a 4 ∧ s.word r (s.opU 2) = E) →
    exec .forney s = .next (afterResult E s)
end

