-- ==== Sys2Proof/Laws/Checks.lean ====
section
/-! SUPPORT. The checks of 20_memory.md and 60_exceptions.md R302: what each condition means, and how a rule goes on
after a check that passes and after one that fails. -/

namespace Sys2Proof.Machine

variable {α : Type} {s : State}

/-! ### What the conditions mean -/

theorem regionOk_iff {base len : Nat} : s.regionOk base len = true ↔ s.Fits base len := by
  simp [State.regionOk, State.Fits]

theorem overlaps_iff {b1 l1 b2 l2 : Nat} : overlaps b1 l1 b2 l2 = true ↔ Shares b1 l1 b2 l2 := by
  simp only [overlaps, Bool.and_eq_true, decide_eq_true_eq]
  constructor
  · rintro ⟨⟨⟨_, _⟩, _⟩, _⟩
    exact ⟨max b1 b2 - b1, by omega, max b1 b2 - b2, by omega, by omega⟩
  · rintro ⟨i, _, j, _, _⟩
    omega

theorem isValue_iff {x : Word} : s.isValue x = true ↔ s.ValueForm x := by simp [State.isValue]

theorem isLog_iff {x : Word} : s.isLog x = true ↔ s.LogForm x := by simp [State.isLog, State.LogForm]

/-! ### Going on after a check -/

theorem require_ok {p : Bool} {c : Cause} {i : Word} {k : Unit → Except Raise α} (h : p = true) :
    (require p c i >>= k) = k () := by
  subst h
  rfl

theorem require_error {p : Bool} {c : Cause} {i : Word} {k : Unit → Except Raise α} (h : ¬p = true) :
    (require p c i >>= k) = .error ⟨c, i⟩ := by
  rw [Bool.not_eq_true] at h
  subst h
  rfl

theorem checkRegion_ok {b l : Nat} {k : Unit → Except Raise α} (h : s.Fits b l) :
    (s.checkRegion b l >>= k) = k () := require_ok (regionOk_iff.2 h)

theorem checkRegion_error {b l : Nat} {k : Unit → Except Raise α} (h : ¬s.Fits b l) :
    (s.checkRegion b l >>= k) = .error ⟨.addrRange, 0⟩ := require_error fun h' => h (regionOk_iff.1 h')

theorem checkDisjoint_ok {b1 l1 b2 l2 : Nat} {k : Unit → Except Raise α} (h : ¬Shares b1 l1 b2 l2) :
    (checkDisjoint b1 l1 b2 l2 >>= k) = k () :=
  require_ok (by rw [Bool.not_eq_true', ← Bool.not_eq_true, overlaps_iff]; exact h)

theorem checkDisjoint_error {b1 l1 b2 l2 : Nat} {k : Unit → Except Raise α} (h : Shares b1 l1 b2 l2) :
    (checkDisjoint b1 l1 b2 l2 >>= k) = .error ⟨.overlap, 0⟩ :=
  require_error (by rw [overlaps_iff.2 h]; decide)

theorem checkElementwise_ok {d b n : Nat} {k : Unit → Except Raise α} (h : d = b ∨ ¬Shares d n b n) :
    (checkElementwise d b n >>= k) = k () :=
  require_ok (by rw [Bool.or_eq_true, beq_iff_eq, Bool.not_eq_true', ← Bool.not_eq_true, overlaps_iff]; exact h)

theorem checkElementwise_error {d b n : Nat} {k : Unit → Except Raise α} (h : ¬(d = b ∨ ¬Shares d n b n)) :
    (checkElementwise d b n >>= k) = .error ⟨.overlap, 0⟩ :=
  require_error (by rw [Bool.or_eq_true, beq_iff_eq, Bool.not_eq_true', ← Bool.not_eq_true, overlaps_iff]; exact h)

theorem checkV_ok {i : Fin 6} {k : Unit → Except Raise α} (h : s.ValueForm (s.a i)) :
    (s.checkV i >>= k) = k () := require_ok (isValue_iff.2 h)

theorem checkV_error {i : Fin 6} {k : Unit → Except Raise α} (h : ¬s.ValueForm (s.a i)) :
    (s.checkV i >>= k) = .error ⟨.operandRange, BitVec.ofNat 32 i⟩ := require_error fun h' => h (isValue_iff.1 h')

theorem checkL_ok {i : Fin 6} {k : Unit → Except Raise α} (h : s.LogForm (s.a i)) :
    (s.checkL i >>= k) = k () := require_ok (isLog_iff.2 h)

theorem checkL_error {i : Fin 6} {k : Unit → Except Raise α} (h : ¬s.LogForm (s.a i)) :
    (s.checkL i >>= k) = .error ⟨.operandRange, BitVec.ofNat 32 i⟩ := require_error fun h' => h (isLog_iff.1 h')

/-! ### The element checks -/

theorem lowestBad_eq_none {good : Word → Bool} {cells : List (Nat × Word)} :
    lowestBad good cells = none ↔ ∀ c ∈ cells, good c.2 = true := by
  induction cells with
  | nil => simp [lowestBad]
  | cons c cs ih =>
    obtain ⟨a, x⟩ := c
    by_cases hg : good x = true
    · simp [lowestBad, hg, ih]
    · simp only [lowestBad, hg, if_false, Bool.false_eq_true]
      constructor
      · intro h
        split at h <;> exact absurd h (by simp)
      · intro h
        exact absurd (h (a, x) List.mem_cons_self) hg

/-- The address recorded is the lowest one of a failing word (20_memory.md R86). -/
theorem lowestBad_spec {good : Word → Bool} {cells : List (Nat × Word)} {a : Nat}
    (h : lowestBad good cells = some a) :
    (∃ c ∈ cells, c.1 = a ∧ ¬good c.2 = true) ∧ ∀ c ∈ cells, ¬good c.2 = true → a ≤ c.1 := by
  induction cells generalizing a with
  | nil => simp [lowestBad] at h
  | cons c cs ih =>
    obtain ⟨b, x⟩ := c
    by_cases hg : good x = true
    · simp only [lowestBad, hg, if_true] at h
      obtain ⟨⟨c, hc, hca, hcg⟩, hmin⟩ := ih h
      refine ⟨⟨c, List.mem_cons_of_mem _ hc, hca, hcg⟩, fun d hd hdg => ?_⟩
      rcases List.mem_cons.1 hd with rfl | hd
      · exact absurd hg hdg
      · exact hmin d hd hdg
    · simp only [lowestBad, hg, Bool.false_eq_true, if_false] at h
      cases hr : lowestBad good cs with
      | none =>
        rw [hr] at h
        obtain rfl : b = a := by simpa using h
        refine ⟨⟨(b, x), List.mem_cons_self, rfl, hg⟩, fun d hd hdg => ?_⟩
        rcases List.mem_cons.1 hd with rfl | hd
        · exact Nat.le_refl _
        · exact absurd (lowestBad_eq_none.1 hr d hd) hdg
      | some e =>
        rw [hr] at h
        obtain rfl : min b e = a := by simpa using h
        obtain ⟨⟨c, hc, hca, hcg⟩, hmin⟩ := ih hr
        refine ⟨?_, fun d hd hdg => ?_⟩
        · by_cases hbe : b ≤ e
          · exact ⟨(b, x), List.mem_cons_self, by simp only; omega, hg⟩
          · exact ⟨c, List.mem_cons_of_mem _ hc, by omega, hcg⟩
        · rcases List.mem_cons.1 hd with rfl | hd
          · exact Nat.min_le_left _ _
          · exact Nat.le_trans (Nat.min_le_right _ _) (hmin d hd hdg)

/-- The element checks pass when no word is bad. -/
theorem checkCells_ok {good : Word → Bool} {cells : List (Nat × Word)} {k : Unit → Except Raise α}
    (h : ∀ c ∈ cells, good c.2 = true) : (checkCells good cells >>= k) = k () := by
  rw [checkCells, lowestBad_eq_none.2 h]
  rfl

/-- The element checks record the lowest bad address. -/
theorem checkCells_error {good : Word → Bool} {cells : List (Nat × Word)} {k : Unit → Except Raise α}
    {bad : Nat → Prop} (hbad : ∀ x, bad x ↔ ∃ c ∈ cells, c.1 = x ∧ ¬good c.2 = true) {x : Nat} (h : Lowest bad x) :
    (checkCells good cells >>= k) = .error ⟨.operandRange, elementInfo x⟩ := by
  obtain ⟨hx, hmin⟩ := h
  obtain ⟨c, hc, hcx, hcg⟩ := (hbad x).1 hx
  cases hl : lowestBad good cells with
  | none => exact absurd (lowestBad_eq_none.1 hl c hc) hcg
  | some a =>
    obtain ⟨⟨d, hd, hda, hdg⟩, hle⟩ := lowestBad_spec hl
    have h1 : a ≤ x := hcx ▸ hle c hc hcg
    have h2 : ¬a < x := fun h => hmin a h ((hbad a).2 ⟨d, hd, hda, hdg⟩)
    obtain rfl : a = x := by omega
    rw [checkCells, hl]
    rfl

/-- Every read of a word that was written since reset returns it, so all reads of it agree (20_memory.md R81). -/
theorem word_of_read {r : ReadSite} {addr : Nat} {w : Word} (h : s.pmem.read addr = some w) : s.word r addr = w := by
  rw [State.word, h, Option.getD_some]

theorem mem_cells {r : ReadSite} {base len : Nat} {c : Nat × Word} :
    c ∈ s.cells r base len ↔ ∃ i, i < len ∧ c = (base + i, s.word r (base + i)) := by
  simp only [State.cells, List.mem_map, List.mem_range]
  constructor <;> rintro ⟨i, hi, h⟩ <;> exact ⟨i, hi, h.symm⟩

end Sys2Proof.Machine
end

