-- ==== Sys2Proof/Laws/Memory.lean ====
section
/-! SUPPORT. PMEM: read after write, the frame of a write, and that every operation keeps the canonical form. -/

namespace Sys2Proof.Machine

/-- A read after a write: the written word at the written address, every other address as before. -/
theorem Memory.read_write (m : Memory) (a b : Nat) (v : Word) :
    Memory.read (m.write a v) b = if a = b then some v else Memory.read m b := by
  induction m with
  | nil => simp [Memory.write, Memory.read]
  | cons c rest ih =>
    obtain ⟨x, w⟩ := c
    by_cases hlt : a < x
    · simp [Memory.write, Memory.read, hlt]
    · by_cases heq : a = x
      · subst heq
        by_cases hab : a = b <;> simp [Memory.write, Memory.read, hab]
      · by_cases hxb : x = b
        · subst hxb
          simp [Memory.write, Memory.read, hlt, heq]
        · simp [Memory.write, Memory.read, hlt, heq, hxb, ih]

theorem Memory.mem_write {m : Memory} {a : Nat} {v : Word} {c : Nat × Word} (h : c ∈ m.write a v) :
    c = (a, v) ∨ c ∈ m := by
  induction m with
  | nil => simpa [Memory.write] using h
  | cons d rest ih =>
    obtain ⟨x, w⟩ := d
    simp only [Memory.write] at h
    split at h
    · simpa using h
    · split at h
      · rcases List.mem_cons.1 h with h | h
        · exact .inl h
        · exact .inr (List.mem_cons_of_mem _ h)
      · rcases List.mem_cons.1 h with h | h
        · exact .inr (h ▸ List.mem_cons_self)
        · exact (ih h).imp_right (List.mem_cons_of_mem _)

/-- A write keeps the canonical form. -/
theorem Memory.write_wf {m : Memory} (h : m.wf) (a : Nat) (v : Word) : (m.write a v).wf := by
  induction m with
  | nil => simp [Memory.write]
  | cons d rest ih =>
    obtain ⟨x, w⟩ := d
    obtain ⟨hx, hrest⟩ := List.pairwise_cons.1 h
    simp only [Memory.write]
    split
    · rename_i hlt
      refine List.pairwise_cons.2 ⟨fun c hc => ?_, h⟩
      rcases List.mem_cons.1 hc with rfl | hc
      · exact hlt
      · exact Nat.lt_trans hlt (hx c hc)
    · split
      · rename_i heq
        exact List.pairwise_cons.2 ⟨fun c hc => heq ▸ hx c hc, hrest⟩
      · refine List.pairwise_cons.2 ⟨fun c hc => ?_, ih hrest⟩
        rcases Memory.mem_write hc with rfl | hc
        · simp only
          omega
        · exact hx c hc

/-- A write below `n` keeps every listed address below `n`. -/
theorem Memory.write_below {m : Memory} {n a : Nat} (h : m.below n) (ha : a < n) (v : Word) :
    (m.write a v).below n := fun c hc => by
  rcases Memory.mem_write hc with rfl | hc
  · exact ha
  · exact h c hc

/-- Writing a list of cells keeps the canonical form. -/
theorem Memory.writeCells_wf {m : Memory} (h : m.wf) (cells : List (Nat × Word)) : (m.writeCells cells).wf := by
  induction cells with
  | nil => exact h
  | cons c cs ih => exact Memory.write_wf ih c.1 c.2

/-- Writing cells below `n` keeps every listed address below `n`. -/
theorem Memory.writeCells_below {m : Memory} {n : Nat} (h : m.below n) {cells : List (Nat × Word)}
    (hc : ∀ c ∈ cells, c.1 < n) : (m.writeCells cells).below n := by
  induction cells with
  | nil => exact h
  | cons c cs ih =>
    exact Memory.write_below (ih fun d hd => hc d (List.mem_cons_of_mem _ hd)) (hc c List.mem_cons_self) c.2

/-- An address none of the cells names reads as before. -/
theorem Memory.read_writeCells_of_notMem {m : Memory} {cells : List (Nat × Word)} {a : Nat}
    (h : ∀ c ∈ cells, c.1 ≠ a) : Memory.read (m.writeCells cells) a = Memory.read m a := by
  induction cells with
  | nil => rfl
  | cons c cs ih =>
    rw [show m.writeCells (c :: cs) = (m.writeCells cs).write c.1 c.2 from rfl, Memory.read_write,
      if_neg (h c List.mem_cons_self), ih fun d hd => h d (List.mem_cons_of_mem _ hd)]

/-- Each cell of a list with distinct addresses reads back. -/
theorem Memory.read_writeCells_of_mem {m : Memory} {cells : List (Nat × Word)} {a : Nat} {v : Word}
    (hd : cells.Pairwise fun c d => c.1 ≠ d.1) (h : (a, v) ∈ cells) :
    Memory.read (m.writeCells cells) a = some v := by
  induction cells with
  | nil => simp at h
  | cons c cs ih =>
    obtain ⟨hc, hcs⟩ := List.pairwise_cons.1 hd
    rw [show m.writeCells (c :: cs) = (m.writeCells cs).write c.1 c.2 from rfl, Memory.read_write]
    rcases List.mem_cons.1 h with rfl | h
    · simp
    · rw [if_neg (hc _ h), ih hcs h]

end Sys2Proof.Machine
end

