-- ==== Sys2Proof/Laws/State.lean ====
section
/-! SUPPORT. One lemma per field per update of State: what each shared operation makes of each field. -/

namespace Sys2Proof.Machine

variable (s : State)

/-! ### Taking a fault -/

@[simp] theorem takeFault_param (f : Raise) : (takeFault f s).param = s.param := rfl
@[simp] theorem takeFault_ie (f : Raise) : (takeFault f s).ie = s.ie := rfl
@[simp] theorem takeFault_busy (f : Raise) : (takeFault f s).busy = false := rfl
@[simp] theorem takeFault_ready (f : Raise) : (takeFault f s).ready = s.ready := rfl
@[simp] theorem takeFault_done (f : Raise) : (takeFault f s).done = true := rfl
@[simp] theorem takeFault_err (f : Raise) : (takeFault f s).err = true := rfl
@[simp] theorem takeFault_herr (f : Raise) : (takeFault f s).herr = s.herr := rfl
@[simp] theorem takeFault_cmdl (f : Raise) : (takeFault f s).cmdl = s.cmdl := rfl
@[simp] theorem takeFault_errcode (f : Raise) : (takeFault f s).errcode = f.cause.code := rfl
@[simp] theorem takeFault_errinfo (f : Raise) : (takeFault f s).errinfo = f.info := rfl
@[simp] theorem takeFault_result (f : Raise) : (takeFault f s).result = s.result := rfl
@[simp] theorem takeFault_args (f : Raise) : (takeFault f s).args = s.args := rfl
@[simp] theorem takeFault_latch (f : Raise) : (takeFault f s).latch = s.latch := rfl
@[simp] theorem takeFault_paddr (f : Raise) : (takeFault f s).paddr = s.paddr := rfl
@[simp] theorem takeFault_fw (f : Raise) : (takeFault f s).fw = s.fw := rfl
@[simp] theorem takeFault_fpoly (f : Raise) : (takeFault f s).fpoly = s.fpoly := rfl
@[simp] theorem takeFault_fsym (f : Raise) : (takeFault f s).fsym = s.fsym := rfl
@[simp] theorem takeFault_fmax (f : Raise) : (takeFault f s).fmax = s.fmax := rfl
@[simp] theorem takeFault_exp (f : Raise) : (takeFault f s).exp = s.exp := rfl
@[simp] theorem takeFault_log (f : Raise) : (takeFault f s).log = s.log := rfl
@[simp] theorem takeFault_pmem (f : Raise) : (takeFault f s).pmem = s.pmem := rfl
@[simp] theorem takeFault_resp (f : Raise) : (takeFault f s).resp = s.resp := rfl
@[simp] theorem takeFault_events (f : Raise) : (takeFault f s).events = s.events := rfl
@[simp] theorem takeFault_tick (f : Raise) : (takeFault f s).tick = s.tick + 1 := rfl

/-! ### Completing without a fault -/

@[simp] theorem succeed_param (e : Effect) : (succeed e s).param = s.param := rfl
@[simp] theorem succeed_ie (e : Effect) : (succeed e s).ie = s.ie := rfl
@[simp] theorem succeed_busy (e : Effect) : (succeed e s).busy = false := rfl
@[simp] theorem succeed_ready (e : Effect) : (succeed e s).ready = s.ready := rfl
@[simp] theorem succeed_done (e : Effect) : (succeed e s).done = true := rfl
@[simp] theorem succeed_err (e : Effect) : (succeed e s).err = s.err := rfl
@[simp] theorem succeed_herr (e : Effect) : (succeed e s).herr = s.herr := rfl
@[simp] theorem succeed_cmdl (e : Effect) : (succeed e s).cmdl = s.cmdl := rfl
@[simp] theorem succeed_errcode (e : Effect) : (succeed e s).errcode = s.errcode := rfl
@[simp] theorem succeed_errinfo (e : Effect) : (succeed e s).errinfo = s.errinfo := rfl
@[simp] theorem succeed_result (e : Effect) : (succeed e s).result = e.result.getD s.result := rfl
@[simp] theorem succeed_args (e : Effect) : (succeed e s).args = s.args := rfl
@[simp] theorem succeed_latch (e : Effect) : (succeed e s).latch = s.latch := rfl
@[simp] theorem succeed_paddr (e : Effect) : (succeed e s).paddr = s.paddr := rfl
@[simp] theorem succeed_fw (e : Effect) : (succeed e s).fw = s.fw := rfl
@[simp] theorem succeed_fpoly (e : Effect) : (succeed e s).fpoly = s.fpoly := rfl
@[simp] theorem succeed_fsym (e : Effect) : (succeed e s).fsym = s.fsym := rfl
@[simp] theorem succeed_fmax (e : Effect) : (succeed e s).fmax = s.fmax := rfl
@[simp] theorem succeed_exp (e : Effect) : (succeed e s).exp = s.exp := rfl
@[simp] theorem succeed_log (e : Effect) : (succeed e s).log = s.log := rfl
@[simp] theorem succeed_pmem (e : Effect) : (succeed e s).pmem = s.pmem.writeCells e.cells := rfl
@[simp] theorem succeed_resp (e : Effect) : (succeed e s).resp = s.resp := rfl
@[simp] theorem succeed_events (e : Effect) : (succeed e s).events = s.events := rfl
@[simp] theorem succeed_tick (e : Effect) : (succeed e s).tick = s.tick + 1 := rfl

/-! ### Clearing the fault record -/

@[simp] theorem clearRecord_param : (clearRecord s).param = s.param := rfl
@[simp] theorem clearRecord_ie : (clearRecord s).ie = s.ie := rfl
@[simp] theorem clearRecord_busy : (clearRecord s).busy = s.busy := rfl
@[simp] theorem clearRecord_ready : (clearRecord s).ready = s.ready := rfl
@[simp] theorem clearRecord_done : (clearRecord s).done = false := rfl
@[simp] theorem clearRecord_err : (clearRecord s).err = false := rfl
@[simp] theorem clearRecord_herr : (clearRecord s).herr = s.herr := rfl
@[simp] theorem clearRecord_cmdl : (clearRecord s).cmdl = s.cmdl := rfl
@[simp] theorem clearRecord_errcode : (clearRecord s).errcode = 0 := rfl
@[simp] theorem clearRecord_errinfo : (clearRecord s).errinfo = 0 := rfl
@[simp] theorem clearRecord_result : (clearRecord s).result = s.result := rfl
@[simp] theorem clearRecord_args : (clearRecord s).args = s.args := rfl
@[simp] theorem clearRecord_latch : (clearRecord s).latch = s.latch := rfl
@[simp] theorem clearRecord_paddr : (clearRecord s).paddr = s.paddr := rfl
@[simp] theorem clearRecord_fw : (clearRecord s).fw = s.fw := rfl
@[simp] theorem clearRecord_fpoly : (clearRecord s).fpoly = s.fpoly := rfl
@[simp] theorem clearRecord_fsym : (clearRecord s).fsym = s.fsym := rfl
@[simp] theorem clearRecord_fmax : (clearRecord s).fmax = s.fmax := rfl
@[simp] theorem clearRecord_exp : (clearRecord s).exp = s.exp := rfl
@[simp] theorem clearRecord_log : (clearRecord s).log = s.log := rfl
@[simp] theorem clearRecord_pmem : (clearRecord s).pmem = s.pmem := rfl
@[simp] theorem clearRecord_resp : (clearRecord s).resp = s.resp := rfl
@[simp] theorem clearRecord_events : (clearRecord s).events = s.events := rfl
@[simp] theorem clearRecord_tick : (clearRecord s).tick = s.tick := rfl

/-! ### Accepting a command -/

@[simp] theorem accept_param (c : Word) : (accept c s).param = s.param := rfl
@[simp] theorem accept_ie (c : Word) : (accept c s).ie = s.ie := rfl
@[simp] theorem accept_busy (c : Word) : (accept c s).busy = true := rfl
@[simp] theorem accept_ready (c : Word) : (accept c s).ready = (s.ready && !(c == 0x00000001)) := rfl
@[simp] theorem accept_done (c : Word) : (accept c s).done = false := rfl
@[simp] theorem accept_err (c : Word) : (accept c s).err = false := rfl
@[simp] theorem accept_herr (c : Word) : (accept c s).herr = s.herr := rfl
@[simp] theorem accept_cmdl (c : Word) : (accept c s).cmdl = c := rfl
@[simp] theorem accept_errcode (c : Word) : (accept c s).errcode = 0 := rfl
@[simp] theorem accept_errinfo (c : Word) : (accept c s).errinfo = 0 := rfl
@[simp] theorem accept_result (c : Word) : (accept c s).result = s.result := rfl
@[simp] theorem accept_args (c : Word) : (accept c s).args = s.args := rfl
@[simp] theorem accept_latch (c : Word) : (accept c s).latch = s.args := rfl
@[simp] theorem accept_paddr (c : Word) : (accept c s).paddr = s.paddr := rfl
@[simp] theorem accept_fw (c : Word) : (accept c s).fw = s.fw := rfl
@[simp] theorem accept_fpoly (c : Word) : (accept c s).fpoly = s.fpoly := rfl
@[simp] theorem accept_fsym (c : Word) : (accept c s).fsym = s.fsym := rfl
@[simp] theorem accept_fmax (c : Word) : (accept c s).fmax = s.fmax := rfl
@[simp] theorem accept_exp (c : Word) : (accept c s).exp = s.exp := rfl
@[simp] theorem accept_log (c : Word) : (accept c s).log = s.log := rfl
@[simp] theorem accept_pmem (c : Word) : (accept c s).pmem = s.pmem := rfl
@[simp] theorem accept_resp (c : Word) : (accept c s).resp = s.resp := rfl
@[simp] theorem accept_events (c : Word) : (accept c s).events = s.events := rfl
@[simp] theorem accept_tick (c : Word) : (accept c s).tick = s.tick := rfl

/-! ### A new current field -/

@[simp] theorem setField_param (t : Table × Table) : (setField t s).param = s.param := rfl
@[simp] theorem setField_ie (t : Table × Table) : (setField t s).ie = s.ie := rfl
@[simp] theorem setField_busy (t : Table × Table) : (setField t s).busy = s.busy := rfl
@[simp] theorem setField_ready (t : Table × Table) : (setField t s).ready = true := rfl
@[simp] theorem setField_done (t : Table × Table) : (setField t s).done = s.done := rfl
@[simp] theorem setField_err (t : Table × Table) : (setField t s).err = s.err := rfl
@[simp] theorem setField_herr (t : Table × Table) : (setField t s).herr = s.herr := rfl
@[simp] theorem setField_cmdl (t : Table × Table) : (setField t s).cmdl = s.cmdl := rfl
@[simp] theorem setField_errcode (t : Table × Table) : (setField t s).errcode = s.errcode := rfl
@[simp] theorem setField_errinfo (t : Table × Table) : (setField t s).errinfo = s.errinfo := rfl
@[simp] theorem setField_result (t : Table × Table) : (setField t s).result = s.result := rfl
@[simp] theorem setField_args (t : Table × Table) : (setField t s).args = s.args := rfl
@[simp] theorem setField_latch (t : Table × Table) : (setField t s).latch = s.latch := rfl
@[simp] theorem setField_paddr (t : Table × Table) : (setField t s).paddr = s.paddr := rfl
@[simp] theorem setField_fw (t : Table × Table) : (setField t s).fw = s.a 2 := rfl
@[simp] theorem setField_fpoly (t : Table × Table) : (setField t s).fpoly = s.a 1 := rfl
@[simp] theorem setField_fsym (t : Table × Table) : (setField t s).fsym = s.a 3 := rfl
@[simp] theorem setField_fmax (t : Table × Table) : (setField t s).fmax = BitVec.ofNat 32 (2 ^ s.opU 2 - 1) := rfl
@[simp] theorem setField_exp (t : Table × Table) : (setField t s).exp = t.1 := rfl
@[simp] theorem setField_log (t : Table × Table) : (setField t s).log = t.2 := rfl
@[simp] theorem setField_pmem (t : Table × Table) : (setField t s).pmem = s.pmem := rfl
@[simp] theorem setField_resp (t : Table × Table) : (setField t s).resp = s.resp := rfl
@[simp] theorem setField_events (t : Table × Table) : (setField t s).events = s.events := rfl
@[simp] theorem setField_tick (t : Table × Table) : (setField t s).tick = s.tick := rfl

/-! ### Dropping the current field -/

@[simp] theorem dropField_param : (dropField s).param = s.param := rfl
@[simp] theorem dropField_ie : (dropField s).ie = s.ie := rfl
@[simp] theorem dropField_busy : (dropField s).busy = s.busy := rfl
@[simp] theorem dropField_ready : (dropField s).ready = false := rfl
@[simp] theorem dropField_done : (dropField s).done = s.done := rfl
@[simp] theorem dropField_err : (dropField s).err = s.err := rfl
@[simp] theorem dropField_herr : (dropField s).herr = s.herr := rfl
@[simp] theorem dropField_cmdl : (dropField s).cmdl = s.cmdl := rfl
@[simp] theorem dropField_errcode : (dropField s).errcode = s.errcode := rfl
@[simp] theorem dropField_errinfo : (dropField s).errinfo = s.errinfo := rfl
@[simp] theorem dropField_result : (dropField s).result = s.result := rfl
@[simp] theorem dropField_args : (dropField s).args = s.args := rfl
@[simp] theorem dropField_latch : (dropField s).latch = s.latch := rfl
@[simp] theorem dropField_paddr : (dropField s).paddr = s.paddr := rfl
@[simp] theorem dropField_fw : (dropField s).fw = 0 := rfl
@[simp] theorem dropField_fpoly : (dropField s).fpoly = 0 := rfl
@[simp] theorem dropField_fsym : (dropField s).fsym = 0 := rfl
@[simp] theorem dropField_fmax : (dropField s).fmax = 0 := rfl
@[simp] theorem dropField_exp : (dropField s).exp = .blank := rfl
@[simp] theorem dropField_log : (dropField s).log = .blank := rfl
@[simp] theorem dropField_pmem : (dropField s).pmem = s.pmem := rfl
@[simp] theorem dropField_resp : (dropField s).resp = s.resp := rfl
@[simp] theorem dropField_events : (dropField s).events = s.events := rfl
@[simp] theorem dropField_tick : (dropField s).tick = s.tick := rfl

/-! ### A CTRL write -/

@[simp] theorem writeCtrl_param (v : Word) : (State.writeCtrl v s).param = s.param := rfl
@[simp] theorem writeCtrl_ie (v : Word) : (State.writeCtrl v s).ie = v.getLsbD 0 := rfl
@[simp] theorem writeCtrl_busy (v : Word) : (State.writeCtrl v s).busy = s.busy := rfl
@[simp] theorem writeCtrl_ready (v : Word) : (State.writeCtrl v s).ready = s.ready := rfl
@[simp] theorem writeCtrl_done (v : Word) : (State.writeCtrl v s).done = s.done := rfl
@[simp] theorem writeCtrl_err (v : Word) : (State.writeCtrl v s).err = s.err := rfl
@[simp] theorem writeCtrl_herr (v : Word) : (State.writeCtrl v s).herr = s.herr := rfl
@[simp] theorem writeCtrl_cmdl (v : Word) : (State.writeCtrl v s).cmdl = s.cmdl := rfl
@[simp] theorem writeCtrl_errcode (v : Word) : (State.writeCtrl v s).errcode = s.errcode := rfl
@[simp] theorem writeCtrl_errinfo (v : Word) : (State.writeCtrl v s).errinfo = s.errinfo := rfl
@[simp] theorem writeCtrl_result (v : Word) : (State.writeCtrl v s).result = s.result := rfl
@[simp] theorem writeCtrl_args (v : Word) : (State.writeCtrl v s).args = s.args := rfl
@[simp] theorem writeCtrl_latch (v : Word) : (State.writeCtrl v s).latch = s.latch := rfl
@[simp] theorem writeCtrl_paddr (v : Word) : (State.writeCtrl v s).paddr = s.paddr := rfl
@[simp] theorem writeCtrl_fw (v : Word) : (State.writeCtrl v s).fw = s.fw := rfl
@[simp] theorem writeCtrl_fpoly (v : Word) : (State.writeCtrl v s).fpoly = s.fpoly := rfl
@[simp] theorem writeCtrl_fsym (v : Word) : (State.writeCtrl v s).fsym = s.fsym := rfl
@[simp] theorem writeCtrl_fmax (v : Word) : (State.writeCtrl v s).fmax = s.fmax := rfl
@[simp] theorem writeCtrl_exp (v : Word) : (State.writeCtrl v s).exp = s.exp := rfl
@[simp] theorem writeCtrl_log (v : Word) : (State.writeCtrl v s).log = s.log := rfl
@[simp] theorem writeCtrl_pmem (v : Word) : (State.writeCtrl v s).pmem = s.pmem := rfl
@[simp] theorem writeCtrl_resp (v : Word) : (State.writeCtrl v s).resp = s.resp := rfl
@[simp] theorem writeCtrl_events (v : Word) : (State.writeCtrl v s).events = s.events := rfl
@[simp] theorem writeCtrl_tick (v : Word) : (State.writeCtrl v s).tick = s.tick := rfl

/-! ### A STATUS write -/

@[simp] theorem writeStatus_param (v : Word) : (State.writeStatus v s).param = s.param := rfl
@[simp] theorem writeStatus_ie (v : Word) : (State.writeStatus v s).ie = s.ie := rfl
@[simp] theorem writeStatus_busy (v : Word) : (State.writeStatus v s).busy = s.busy := rfl
@[simp] theorem writeStatus_ready (v : Word) : (State.writeStatus v s).ready = s.ready := rfl
@[simp] theorem writeStatus_done (v : Word) : (State.writeStatus v s).done = (s.done && !v.getLsbD 2) := rfl
@[simp] theorem writeStatus_err (v : Word) : (State.writeStatus v s).err = s.err := rfl
@[simp] theorem writeStatus_herr (v : Word) : (State.writeStatus v s).herr = (s.herr && !v.getLsbD 4) := rfl
@[simp] theorem writeStatus_cmdl (v : Word) : (State.writeStatus v s).cmdl = s.cmdl := rfl
@[simp] theorem writeStatus_errcode (v : Word) : (State.writeStatus v s).errcode = s.errcode := rfl
@[simp] theorem writeStatus_errinfo (v : Word) : (State.writeStatus v s).errinfo = s.errinfo := rfl
@[simp] theorem writeStatus_result (v : Word) : (State.writeStatus v s).result = s.result := rfl
@[simp] theorem writeStatus_args (v : Word) : (State.writeStatus v s).args = s.args := rfl
@[simp] theorem writeStatus_latch (v : Word) : (State.writeStatus v s).latch = s.latch := rfl
@[simp] theorem writeStatus_paddr (v : Word) : (State.writeStatus v s).paddr = s.paddr := rfl
@[simp] theorem writeStatus_fw (v : Word) : (State.writeStatus v s).fw = s.fw := rfl
@[simp] theorem writeStatus_fpoly (v : Word) : (State.writeStatus v s).fpoly = s.fpoly := rfl
@[simp] theorem writeStatus_fsym (v : Word) : (State.writeStatus v s).fsym = s.fsym := rfl
@[simp] theorem writeStatus_fmax (v : Word) : (State.writeStatus v s).fmax = s.fmax := rfl
@[simp] theorem writeStatus_exp (v : Word) : (State.writeStatus v s).exp = s.exp := rfl
@[simp] theorem writeStatus_log (v : Word) : (State.writeStatus v s).log = s.log := rfl
@[simp] theorem writeStatus_pmem (v : Word) : (State.writeStatus v s).pmem = s.pmem := rfl
@[simp] theorem writeStatus_resp (v : Word) : (State.writeStatus v s).resp = s.resp := rfl
@[simp] theorem writeStatus_events (v : Word) : (State.writeStatus v s).events = s.events := rfl
@[simp] theorem writeStatus_tick (v : Word) : (State.writeStatus v s).tick = s.tick := rfl

/-! ### A protocol error -/

@[simp] theorem setHerr_param : (State.setHerr s).param = s.param := rfl
@[simp] theorem setHerr_ie : (State.setHerr s).ie = s.ie := rfl
@[simp] theorem setHerr_busy : (State.setHerr s).busy = s.busy := rfl
@[simp] theorem setHerr_ready : (State.setHerr s).ready = s.ready := rfl
@[simp] theorem setHerr_done : (State.setHerr s).done = s.done := rfl
@[simp] theorem setHerr_err : (State.setHerr s).err = s.err := rfl
@[simp] theorem setHerr_herr : (State.setHerr s).herr = true := rfl
@[simp] theorem setHerr_cmdl : (State.setHerr s).cmdl = s.cmdl := rfl
@[simp] theorem setHerr_errcode : (State.setHerr s).errcode = s.errcode := rfl
@[simp] theorem setHerr_errinfo : (State.setHerr s).errinfo = s.errinfo := rfl
@[simp] theorem setHerr_result : (State.setHerr s).result = s.result := rfl
@[simp] theorem setHerr_args : (State.setHerr s).args = s.args := rfl
@[simp] theorem setHerr_latch : (State.setHerr s).latch = s.latch := rfl
@[simp] theorem setHerr_paddr : (State.setHerr s).paddr = s.paddr := rfl
@[simp] theorem setHerr_fw : (State.setHerr s).fw = s.fw := rfl
@[simp] theorem setHerr_fpoly : (State.setHerr s).fpoly = s.fpoly := rfl
@[simp] theorem setHerr_fsym : (State.setHerr s).fsym = s.fsym := rfl
@[simp] theorem setHerr_fmax : (State.setHerr s).fmax = s.fmax := rfl
@[simp] theorem setHerr_exp : (State.setHerr s).exp = s.exp := rfl
@[simp] theorem setHerr_log : (State.setHerr s).log = s.log := rfl
@[simp] theorem setHerr_pmem : (State.setHerr s).pmem = s.pmem := rfl
@[simp] theorem setHerr_resp : (State.setHerr s).resp = s.resp := rfl
@[simp] theorem setHerr_events : (State.setHerr s).events = s.events := rfl
@[simp] theorem setHerr_tick : (State.setHerr s).tick = s.tick := rfl

/-! ### Reset -/

@[simp] theorem resetBlock_param : (resetBlock s).param = s.param := rfl
@[simp] theorem resetBlock_ie : (resetBlock s).ie = false := rfl
@[simp] theorem resetBlock_busy : (resetBlock s).busy = false := rfl
@[simp] theorem resetBlock_ready : (resetBlock s).ready = false := rfl
@[simp] theorem resetBlock_done : (resetBlock s).done = false := rfl
@[simp] theorem resetBlock_err : (resetBlock s).err = false := rfl
@[simp] theorem resetBlock_herr : (resetBlock s).herr = false := rfl
@[simp] theorem resetBlock_cmdl : (resetBlock s).cmdl = 0 := rfl
@[simp] theorem resetBlock_errcode : (resetBlock s).errcode = 0 := rfl
@[simp] theorem resetBlock_errinfo : (resetBlock s).errinfo = 0 := rfl
@[simp] theorem resetBlock_result : (resetBlock s).result = 0 := rfl
@[simp] theorem resetBlock_args : (resetBlock s).args = Vector.replicate 6 0 := rfl
@[simp] theorem resetBlock_latch : (resetBlock s).latch = Vector.replicate 6 0 := rfl
@[simp] theorem resetBlock_paddr : (resetBlock s).paddr = 0 := rfl
@[simp] theorem resetBlock_fw : (resetBlock s).fw = 0 := rfl
@[simp] theorem resetBlock_fpoly : (resetBlock s).fpoly = 0 := rfl
@[simp] theorem resetBlock_fsym : (resetBlock s).fsym = 0 := rfl
@[simp] theorem resetBlock_fmax : (resetBlock s).fmax = 0 := rfl
@[simp] theorem resetBlock_exp : (resetBlock s).exp = .blank := rfl
@[simp] theorem resetBlock_log : (resetBlock s).log = .blank := rfl
@[simp] theorem resetBlock_pmem : (resetBlock s).pmem = [] := rfl
@[simp] theorem resetBlock_resp : (resetBlock s).resp = .none := rfl
@[simp] theorem resetBlock_events : (resetBlock s).events = s.events := rfl
@[simp] theorem resetBlock_tick : (resetBlock s).tick = s.tick := rfl

end Sys2Proof.Machine
end

