-- ==== Sys2Proof/Laws/Commands.lean ====
section
/-! SUPPORT. Completing a command: what a rule's answer makes of the state, and what the output cells store. -/

namespace Sys2Proof.Machine

variable {s : State}

/-! ### From a rule to the next state -/

theorem runCommand_ready {rule : State → Rule} {r : Rule} (hr : s.ready = true) (h : rule s = r) :
    runCommand rule s = .next (conclude r s) := by
  rw [runCommand, hr, if_pos rfl, h]

theorem runCommand_notReady {rule : State → Rule} (hr : s.ready = false) :
    runCommand rule s = .next (afterFault 2 0 s) := by
  rw [runCommand, hr]
  rfl

/-- A rule that raises gives the fault record and nothing else. -/
theorem runCommand_error {rule : State → Rule} {c : Cause} {i : Word} (hr : s.ready = true)
    (h : rule s = .error ⟨c, i⟩) : runCommand rule s = .next (afterFault c.code i s) := by
  rw [runCommand_ready hr h]
  rfl

/-- A rule that raises nothing has its effect. -/
theorem runCommand_effect {rule : State → Rule} {e : Effect} (hr : s.ready = true) (h : rule s = .ok e) :
    runCommand rule s = .next (succeed e s) := runCommand_ready hr h

/-- A rule that only writes RESULT. -/
theorem runCommand_result {rule : State → Rule} {v : Word} (hr : s.ready = true)
    (h : rule s = .ok (resultOnly v)) : runCommand rule s = .next (afterResult v s) := by
  rw [runCommand_ready hr h]
  rfl

/-- Every command other than BUILD answers a next state. -/
theorem runCommand_next (rule : State → Rule) (s : State) :
    ∃ r, runCommand rule s = .next (conclude r s) := ⟨_, rfl⟩

/-- What the completion of a command other than BUILD can be: a success with some effect, or a fault. -/
theorem conclude_cases (r : Rule) (s : State) :
    (∃ e, r = .ok e ∧ conclude r s = succeed e s) ∨ (∃ f, r = .error f ∧ conclude r s = takeFault f s) := by
  cases r with
  | ok e => exact .inl ⟨e, rfl, rfl⟩
  | error f => exact .inr ⟨f, rfl, rfl⟩

/-- Every cause has a code from 1 to 12 (60_exceptions.md R301). -/
theorem Cause.code_range (c : Cause) : c.code ≠ 0 ∧ c.code.toNat ≤ 12 := by cases c <;> decide

/-! ### Output cells -/

theorem mem_outCells {dst n : Nat} {out : Nat → Word} {c : Nat × Word} :
    c ∈ outCells dst n out ↔ ∃ i, i < n ∧ c = (dst + i, out i) := by
  simp only [outCells, List.mem_map, List.mem_range]
  constructor <;> rintro ⟨i, hi, h⟩ <;> exact ⟨i, hi, h.symm⟩

theorem outCells_pairwise (dst n : Nat) (out : Nat → Word) :
    (outCells dst n out).Pairwise fun c d => c.1 ≠ d.1 := by
  refine List.Pairwise.map _ (fun i j h => ?_) List.pairwise_lt_range
  simp only
  omega

/-- A list's cells are the output cells of its entries. -/
theorem listCells_eq (dst : Nat) (ws : List Word) :
    listCells dst ws = outCells dst ws.length fun i => ws.getD i 0 := by
  induction ws generalizing dst with
  | nil => rfl
  | cons w ws ih =>
    rw [listCells, ih, outCells, outCells, List.length_cons, List.range_succ_eq_map, List.map_cons, List.map_map]
    congr 1
    refine List.map_congr_left fun i _ => ?_
    simp only [Function.comp, Nat.succ_eq_add_one, List.getD_cons_succ]
    rw [show dst + (i + 1) = dst + 1 + i by omega]

/-- A success that writes the output cells of a region stores exactly that region. -/
theorem storedRegion_outCells (s : State) (dst n : Nat) (out : Nat → Word) (res : Option Word) :
    StoredRegion s (succeed ⟨outCells dst n out, res⟩ s) dst n out res where
  stored i hi := Memory.read_writeCells_of_mem (outCells_pairwise dst n out) (mem_outCells.2 ⟨i, hi, rfl⟩)
  others a ha := Memory.read_writeCells_of_notMem fun c hc => by
    obtain ⟨i, hi, rfl⟩ := mem_outCells.1 hc
    simp only
    omega
  rest := rfl

/-- The words stored may be described in any way that gives the same words. -/
theorem StoredRegion.congr {s t : State} {dst n : Nat} {out out' : Nat → Word} {res : Option Word}
    (h : StoredRegion s t dst n out res) (he : ∀ i, i < n → out i = out' i) : StoredRegion s t dst n out' res where
  stored i hi := he i hi ▸ h.stored i hi
  others := h.others
  rest := h.rest

/-- A success that writes a list's cells stores exactly that list. -/
theorem storedRegion_listCells (s : State) (dst : Nat) (ws : List Word) (res : Option Word) :
    StoredRegion s (succeed ⟨listCells dst ws, res⟩ s) dst ws.length (fun i => ws.getD i 0) res := by
  rw [listCells_eq]
  exact storedRegion_outCells s dst _ _ res

end Sys2Proof.Machine
end

