-- ==== Sys2Proof/Laws/XorSum.lean ====
section
/-! SUPPORT. Field sums (`xorSum`), and the accumulator of LCONV and VMUL coefficient by coefficient. -/

namespace Sys2Proof.Machine

/-! ### Sums in the field -/

@[simp] theorem xorSum_zero (f : Nat → Nat) : xorSum 0 f = 0 := rfl

theorem xorSum_succ (n : Nat) (f : Nat → Nat) : xorSum (n + 1) f = xorSum n f ^^^ f n := by
  simp [xorSum, List.range_succ]

theorem xorSum_congr {n : Nat} {f g : Nat → Nat} (h : ∀ i, i < n → f i = g i) : xorSum n f = xorSum n g := by
  induction n with
  | zero => rfl
  | succ n ih => rw [xorSum_succ, xorSum_succ, ih fun i hi => h i (by omega), h n (by omega)]

theorem xorSum_succ_left (n : Nat) (f : Nat → Nat) : xorSum (n + 1) f = f 0 ^^^ xorSum n fun i => f (i + 1) := by
  induction n with
  | zero => simp [xorSum_succ]
  | succ n ih => rw [xorSum_succ, ih, xorSum_succ, Nat.xor_assoc]

theorem xorSum_xor (n : Nat) (f g : Nat → Nat) : (xorSum n fun i => f i ^^^ g i) = xorSum n f ^^^ xorSum n g := by
  induction n with
  | zero => simp
  | succ n ih =>
    simp only [xorSum_succ, ih]
    ac_rfl

@[simp] theorem xorSum_const_zero (n : Nat) : (xorSum n fun _ => 0) = 0 := by
  induction n with
  | zero => rfl
  | succ n ih => simp [xorSum_succ, ih]

/-- A sum of elements below `2^w` is below `2^w`. -/
theorem xorSum_lt {n w : Nat} {f : Nat → Nat} (h : ∀ i, i < n → f i < 2 ^ w) : xorSum n f < 2 ^ w := by
  induction n with
  | zero => exact Nat.two_pow_pos w
  | succ n ih =>
    rw [xorSum_succ]
    exact Nat.xor_lt_two_pow (ih fun i hi => h i (by omega)) (h n (by omega))

/-- A fold that XORs in a function of each index, from any start. -/
theorem foldl_xor_eq {β : Type} (l : List β) (f : β → Nat) (z : Nat) :
    l.foldl (fun acc b => acc ^^^ f b) z = z ^^^ l.foldl (fun acc b => acc ^^^ f b) 0 := by
  induction l generalizing z with
  | nil => simp
  | cons b l ih =>
    rw [List.foldl_cons, ih, List.foldl_cons, ih (0 ^^^ f b)]
    simp [Nat.xor_assoc]

/-- A fold over the indices that pass a test is the sum in which the others add 0. -/
theorem foldl_filter_range (n : Nat) (p : Nat → Bool) (f : Nat → Nat) (z : Nat) :
    ((List.range n).filter p).foldl (fun acc j => acc ^^^ f j) z
      = z ^^^ xorSum n fun j => if p j then f j else 0 := by
  induction n with
  | zero => simp
  | succ n ih =>
    rw [List.range_succ, List.filter_append, List.foldl_append, ih, xorSum_succ]
    by_cases hp : p n <;> simp [hp, Nat.xor_assoc]

/-! ### The accumulator of LCONV and VMUL -/

@[simp] theorem length_xorAt (acc : List Nat) (k v : Nat) : (xorAt acc k v).length = acc.length := by
  induction acc generalizing k with
  | nil => rfl
  | cons y ys ih => cases k <;> simp [xorAt, ih]

theorem getD_xorAt (acc : List Nat) (k v j : Nat) :
    (xorAt acc k v).getD j 0 = acc.getD j 0 ^^^ if j = k ∧ j < acc.length then v else 0 := by
  induction acc generalizing k j with
  | nil => simp [xorAt]
  | cons y ys ih =>
    cases k with
    | zero => cases j <;> simp [xorAt]
    | succ k =>
      cases j with
      | zero => simp [xorAt]
      | succ j => simpa [xorAt] using ih k j

@[simp] theorem length_addTerm (acc : List Nat) (k : Nat) (o : Option Nat) :
    (addTerm acc k o).length = acc.length := by cases o <;> simp [addTerm]

theorem getD_addTerm (acc : List Nat) (k : Nat) (o : Option Nat) (j : Nat) :
    (addTerm acc k o).getD j 0 = acc.getD j 0 ^^^ if j = k ∧ j < acc.length then o.getD 0 else 0 := by
  cases o with
  | none => simp [addTerm]
  | some v => exact getD_xorAt acc k v j

@[simp] theorem length_convRow (term : Word → Word → Option Nat) (x : Word) (k : Nat) (ys : List Word)
    (acc : List Nat) : (convRow term x k ys acc).length = acc.length := by
  induction ys generalizing k acc with
  | nil => rfl
  | cons y ys ih => rw [convRow, ih, length_addTerm]

theorem getD_convRow (term : Word → Word → Option Nat) (x : Word) (k : Nat) (ys : List Word) (acc : List Nat) (j : Nat) :
    (convRow term x k ys acc).getD j 0
      = acc.getD j 0
        ^^^ if k ≤ j ∧ j - k < ys.length ∧ j < acc.length then (term x (ys.getD (j - k) 0)).getD 0 else 0 := by
  induction ys generalizing k acc with
  | nil => simp [convRow]
  | cons y ys ih =>
    rw [convRow, ih, getD_addTerm, length_addTerm, Nat.xor_assoc]
    congr 1
    by_cases hj : j < acc.length
    · by_cases hk : j = k
      · subst hk
        simp [hj]
      · by_cases hle : k ≤ j
        · obtain ⟨d, rfl⟩ : ∃ d, j = k + (d + 1) := ⟨j - k - 1, by omega⟩
          have h1 : k + (d + 1) - (k + 1) = d := by omega
          have h2 : k + (d + 1) - k = d + 1 := by omega
          simp [hj, h1, h2, show k + 1 ≤ k + (d + 1) by omega]
        · simp [hk, show ¬k + 1 ≤ j by omega, hle]
    · simp [hj]

@[simp] theorem length_convLoop (term : Word → Word → Option Nat) (ys : Nat → List Word) (ia : Nat) (xs : List Word)
    (acc : List Nat) : (convLoop term ys ia xs acc).length = acc.length := by
  induction xs generalizing ia acc with
  | nil => rfl
  | cons x xs ih => rw [convLoop, ih, length_convRow]

@[simp] theorem length_convolveReads (term : Word → Word → Option Nat) (xs : List Word) (ys : Nat → List Word)
    (len : Nat) : (convolveReads term xs ys len).length = len := by simp [convolveReads]

@[simp] theorem length_convolve (term : Word → Word → Option Nat) (xs ys : List Word) (len : Nat) :
    (convolve term xs ys len).length = len := length_convolveReads _ _ _ _

theorem getD_convLoop (term : Word → Word → Option Nat) (ys : Nat → List Word) (ia : Nat) (xs : List Word)
    (acc : List Nat) (j : Nat) :
    (convLoop term ys ia xs acc).getD j 0
      = acc.getD j 0 ^^^ xorSum xs.length fun a =>
          if ia + a ≤ j ∧ j - (ia + a) < (ys (ia + a)).length ∧ j < acc.length then
            (term (xs.getD a 0) ((ys (ia + a)).getD (j - (ia + a)) 0)).getD 0
          else 0 := by
  induction xs generalizing ia acc with
  | nil => simp [convLoop]
  | cons x xs ih =>
    rw [convLoop, ih, getD_convRow, length_convRow, List.length_cons, xorSum_succ_left, Nat.xor_assoc]
    congr 1
    simp only [Nat.add_zero, List.getD_cons_zero, List.getD_cons_succ]
    congr 1
    refine xorSum_congr fun a _ => ?_
    rw [show ia + 1 + a = ia + (a + 1) by omega]

/-- Coefficient `k` of the accumulator: the sum of the terms of the pairs whose indices add to `k` (R204, R205). -/
theorem getD_convolveReads (term : Word → Word → Option Nat) (xs : List Word) (ys : Nat → List Word) {len k : Nat}
    (hk : k < len) :
    (convolveReads term xs ys len).getD k 0
      = xorSum xs.length fun a =>
          if a ≤ k ∧ k - a < (ys a).length then (term (xs.getD a 0) ((ys a).getD (k - a) 0)).getD 0 else 0 := by
  rw [convolveReads, getD_convLoop]
  have hz : (List.replicate len 0).getD k 0 = 0 := by
    rw [List.getD_eq_getElem?_getD, List.getElem?_replicate]
    split <;> rfl
  simp only [hz, Nat.zero_add, List.length_replicate, hk, and_true, Nat.zero_xor]

@[inherit_doc getD_convolveReads]
theorem getD_convolve (term : Word → Word → Option Nat) (xs ys : List Word) {len k : Nat} (hk : k < len) :
    (convolve term xs ys len).getD k 0
      = xorSum xs.length fun a =>
          if a ≤ k ∧ k - a < ys.length then (term (xs.getD a 0) (ys.getD (k - a) 0)).getD 0 else 0 :=
  getD_convolveReads term xs _ hk

end Sys2Proof.Machine
end

