-- ==== Sys2Proof/Laws/Exec.lean ====
section
/-! SUPPORT. Everything a command's completion can do: it faults, or it writes PMEM words inside PMEM and, for the
commands that produce one, RESULT. -/

namespace Sys2Proof.Machine

variable {α : Type} {s : State}

/-! ### Peeling a rule that did not raise -/

theorem require_bind_eq_ok {p : Bool} {c : Cause} {i : Word} {k : Unit → Except Raise α} {e : α}
    (h : (require p c i >>= k) = .ok e) : p = true ∧ k () = .ok e := by
  cases p with
  | true => exact ⟨rfl, h⟩
  | false => exact absurd h (by simp [require, bind, Except.bind])

theorem checkRegion_bind_eq_ok {b l : Nat} {k : Unit → Except Raise α} {e : α}
    (h : (s.checkRegion b l >>= k) = .ok e) : s.Fits b l ∧ k () = .ok e :=
  (require_bind_eq_ok h).imp_left regionOk_iff.1

theorem check_bind_eq_ok {c : Except Raise Unit} {k : Unit → Except Raise α} {e : α} (h : (c >>= k) = .ok e) :
    k () = .ok e := by
  cases c with
  | ok _ => exact h
  | error _ => exact absurd h (by simp [bind, Except.bind])

/-! ### Where a command writes -/

/-- The cells of an effect lie inside PMEM. -/
def Effect.Below (e : Effect) (n : Nat) : Prop := ∀ c ∈ e.cells, c.1 < n

theorem below_outCells {dst n : Nat} {out : Nat → Word} {res : Option Word} (h : s.Fits dst n) :
    (Effect.mk (outCells dst n out) res).Below s.pmemWords := by
  intro c hc
  obtain ⟨i, hi, rfl⟩ := mem_outCells.1 hc
  simp only
  omega

theorem below_listCells {dst n : Nat} {ws : List Word} {res : Option Word} (hn : ws.length ≤ n) (h : s.Fits dst n) :
    (Effect.mk (listCells dst ws) res).Below s.pmemWords := by
  rw [listCells_eq]
  refine below_outCells ?_
  omega

theorem below_resultOnly {v : Word} {n : Nat} : (resultOnly v).Below n := fun _ hc => absurd hc (by simp [resultOnly])

@[simp] theorem length_rootStep (times : Nat → Nat) (g : List Nat) : (rootStep times g).length = g.length := by
  induction g with
  | nil => rfl
  | cons x g ih =>
    cases g with
    | nil => rfl
    | cons y g => simpa [rootStep] using ih

@[simp] theorem length_genStep (r : Nat) (g : List Nat) : (s.genStep r g).length = g.length := length_rootStep _ g

theorem length_foldl_genStep (l : List Nat) (f : Nat → Nat) (g : List Nat) :
    (l.foldl (fun g k => s.genStep (f k) g) g).length = g.length := by
  induction l generalizing g with
  | nil => rfl
  | cons k l ih => rw [List.foldl_cons, ih, length_genStep]

/-- The generator has `npar` words. -/
theorem length_generator {npar : Nat} (h : 1 ≤ npar) : (s.generator npar).length = npar := by
  rw [State.generator, length_foldl_genStep]
  simp
  omega

@[simp] theorem length_convAcc (term : Word → Word → Option Nat) : (s.convAcc term).length = s.opU 3 :=
  length_convolveReads _ _ _ _

theorem planes_cases (s : State) : s.planes = [0] ∧ s.fw = 8 ∨ s.planes = [0, 1] ∧ s.fw ≠ 8 := by
  rw [State.planes]
  split
  · exact .inl ⟨rfl, ‹_›⟩
  · exact .inr ⟨rfl, ‹_›⟩

theorem mem_tableCells {dst npar : Nat} {entry : Nat → Nat → Nat} {c : Nat × Word} :
    c ∈ s.tableCells dst npar entry ↔ ∃ b pl i, b < 256 ∧ pl ∈ s.planes ∧ i < npar ∧
      c = (dst + (2 * b + pl) * npar + i, BitVec.ofNat 32 (entry (planeValue b pl) i)) := by
  simp only [State.tableCells, List.mem_flatMap, List.mem_map, List.mem_range]
  constructor
  · rintro ⟨b, hb, pl, hp, i, hi, rfl⟩
    exact ⟨b, pl, i, hb, hp, hi, rfl⟩
  · rintro ⟨b, pl, i, hb, hp, hi, rfl⟩
    exact ⟨b, hb, pl, hp, i, hi, rfl⟩

/-- A table's row index stays in its 512 rows. -/
theorem tableIndex_lt {npar b pl i : Nat} (hb : b < 256) (hp : pl < 2) (hi : i < npar) :
    (2 * b + pl) * npar + i < 512 * npar := by
  have : (2 * b + pl + 1) * npar ≤ 512 * npar := Nat.mul_le_mul_right _ (by omega)
  rw [Nat.add_mul, Nat.one_mul] at this
  omega

theorem below_tableCells {dst npar : Nat} {entry : Nat → Nat → Nat} {res : Option Word}
    (h : s.Fits dst (512 * npar)) : (Effect.mk (s.tableCells dst npar entry) res).Below s.pmemWords := by
  intro c hc
  obtain ⟨b, pl, i, hb, hp, hi, rfl⟩ := mem_tableCells.1 hc
  have hp2 : pl < 2 := by
    rcases planes_cases s with ⟨h, -⟩ | ⟨h, -⟩ <;> rw [h] at hp <;> simp at hp <;> omega
  have := tableIndex_lt hb hp2 hi
  simp only
  omega

/-! ### Every command -/

/-- The rule of a command other than BUILD; BUILD has its own (R141). -/
def ruleOf (i : Instr) : State → Rule :=
  match i with
  | .build => fun _ => .ok ⟨[], none⟩
  | .mul => ruleMul
  | .div => ruleDiv
  | .inv => ruleInv
  | .mulexp => ruleMulexp
  | .divexp => ruleDivexp
  | .toexp => ruleToexp
  | .tolog => ruleTolog
  | .ladd => ruleLadd
  | .lmul => ruleLmul
  | .ldiv => ruleLdiv
  | .lpow => ruleLpow
  | .pxor => rulePxor
  | .ladds => ruleLadds
  | .v2l => ruleV2l
  | .l2v => ruleL2v
  | .lconv => ruleLconv
  | .vmul => ruleVmul
  | .ldiff => ruleLdiff
  | .lsubst => ruleLsubst
  | .mkgx => ruleMkgx
  | .mkgxl => ruleMkgxl
  | .mkenc => ruleMkenc
  | .mkdec => ruleMkdec
  | .synd => ruleSynd
  | .forney => ruleForney

theorem exec_eq_runCommand {i : Instr} (hi : i ≠ .build) (s : State) : exec i s = runCommand (ruleOf i) s := by
  cases i <;> first | rfl | exact absurd rfl hi

/-- A rule that raises nothing writes inside PMEM, and RESULT only if its command produces one. -/
theorem ruleOf_effect {i : Instr} {e : Effect} (h : ruleOf i s = .ok e) :
    e.Below s.pmemWords ∧ (e.result ≠ none → i ∈ resultProducers) := by
  cases i with
  | build =>
    obtain rfl : Effect.mk [] none = e := by simpa [ruleOf] using h
    exact ⟨fun _ hc => absurd hc (by simp), fun hn => absurd rfl hn⟩
  | mul | ladd | lmul =>
    replace h := check_bind_eq_ok (check_bind_eq_ok h)
    cases h
    exact ⟨below_resultOnly, fun _ => by decide⟩
  | div | ldiv =>
    replace h := check_bind_eq_ok (check_bind_eq_ok (check_bind_eq_ok h))
    cases h
    exact ⟨below_resultOnly, fun _ => by decide⟩
  | inv | mulexp | divexp | tolog =>
    replace h := check_bind_eq_ok (check_bind_eq_ok h)
    cases h
    exact ⟨below_resultOnly, fun _ => by decide⟩
  | toexp | lpow =>
    replace h := check_bind_eq_ok h
    cases h
    exact ⟨below_resultOnly, fun _ => by decide⟩
  | lsubst =>
    replace h := check_bind_eq_ok (check_bind_eq_ok (check_bind_eq_ok h))
    cases h
    exact ⟨below_resultOnly, fun _ => by decide⟩
  | forney =>
    replace h := check_bind_eq_ok (check_bind_eq_ok (check_bind_eq_ok (check_bind_eq_ok (check_bind_eq_ok
      (check_bind_eq_ok h)))))
    replace h := check_bind_eq_ok h
    cases h
    exact ⟨below_resultOnly, fun _ => by decide⟩
  | pxor =>
    obtain ⟨hf, h⟩ := checkRegion_bind_eq_ok h
    replace h := check_bind_eq_ok (check_bind_eq_ok (check_bind_eq_ok (check_bind_eq_ok (check_bind_eq_ok h))))
    cases h
    exact ⟨below_outCells hf, fun hn => absurd rfl hn⟩
  | ladds =>
    obtain ⟨hf, h⟩ := checkRegion_bind_eq_ok h
    replace h := check_bind_eq_ok (check_bind_eq_ok (check_bind_eq_ok (check_bind_eq_ok h)))
    cases h
    exact ⟨below_outCells hf, fun hn => absurd rfl hn⟩
  | v2l | l2v =>
    obtain ⟨hf, h⟩ := checkRegion_bind_eq_ok h
    replace h := check_bind_eq_ok (check_bind_eq_ok (check_bind_eq_ok h))
    cases h
    exact ⟨below_outCells hf, fun hn => absurd rfl hn⟩
  | lconv | vmul =>
    have hf : s.Fits (s.opU 0) (s.opU 3) := by
      by_contra hc
      rw [ruleOf] at h
      first | rw [ruleLconv] at h | rw [ruleVmul] at h
      rw [State.checkConv, checkRegion_error hc] at h
      exact absurd h (by simp [bind, Except.bind])
    replace h := check_bind_eq_ok (check_bind_eq_ok h)
    cases h
    exact ⟨below_listCells (by simp) hf, fun hn => absurd rfl hn⟩
  | ldiff =>
    replace h := check_bind_eq_ok (check_bind_eq_ok h)
    obtain ⟨hf, h⟩ := checkRegion_bind_eq_ok h
    replace h := check_bind_eq_ok (check_bind_eq_ok h)
    cases h
    exact ⟨below_outCells hf, fun hn => absurd rfl hn⟩
  | mkgx =>
    obtain ⟨hn, h⟩ := require_bind_eq_ok h
    obtain ⟨hf, h⟩ := checkRegion_bind_eq_ok h
    cases h
    have hn : s.opU 3 ≠ 0 := by simp at hn; exact hn.1
    exact ⟨below_listCells (by simp [length_generator (show 1 ≤ s.opU 3 by omega)]) hf, fun hn => absurd rfl hn⟩
  | mkgxl =>
    obtain ⟨hn, h⟩ := require_bind_eq_ok h
    obtain ⟨hf, h⟩ := checkRegion_bind_eq_ok h
    replace h := check_bind_eq_ok h
    cases h
    have hn : s.opU 3 ≠ 0 := by simp at hn; exact hn.1
    exact ⟨below_listCells (by simp [length_generator (show 1 ≤ s.opU 3 by omega)]) hf, fun hn => absurd rfl hn⟩
  | mkenc =>
    replace h := check_bind_eq_ok h
    obtain ⟨hf, h⟩ := checkRegion_bind_eq_ok h
    replace h := check_bind_eq_ok h
    cases h
    exact ⟨below_tableCells hf, fun hn => absurd rfl hn⟩
  | mkdec =>
    replace h := check_bind_eq_ok h
    obtain ⟨hf, h⟩ := checkRegion_bind_eq_ok h
    cases h
    exact ⟨below_tableCells hf, fun hn => absurd rfl hn⟩
  | synd =>
    replace h := check_bind_eq_ok h
    obtain ⟨hf, h⟩ := checkRegion_bind_eq_ok h
    replace h := check_bind_eq_ok (check_bind_eq_ok (check_bind_eq_ok h))
    cases h
    exact ⟨below_listCells (by simp [State.syndromes]) hf, fun _ => by decide⟩

/-- What a command's completion can make of the state; `t` is the state after it. -/
inductive ExecEffect (i : Instr) (s t : State) : Prop where
  /-- A fault of a command other than BUILD. -/
  | fault (f : Raise) (hi : i ≠ .build) (h : t = takeFault f s)
  /-- The effect of a command other than BUILD. -/
  | effect (e : Effect) (hi : i ≠ .build) (hr : s.ready = true) (he : ruleOf i s = .ok e) (h : t = succeed e s)
  /-- A fault of BUILD. -/
  | buildFault (f : Raise) (hi : i = .build) (he : ruleBuild s = .error f) (h : t = takeFault f (dropField s))
  /-- A new field. -/
  | field (tables : Table × Table) (hi : i = .build) (he : ruleBuild s = .ok tables)
      (h : t = succeed ⟨[], none⟩ (setField tables s))

theorem exec_effect (i : Instr) (s : State) : ∃ t, exec i s = .next t ∧ ExecEffect i s t := by
  by_cases hi : i = .build
  · subst hi
    rw [exec, execBuild]
    cases hr : ruleBuild s with
    | ok tables => exact ⟨_, rfl, .field tables rfl hr rfl⟩
    | error f => exact ⟨_, rfl, .buildFault f rfl hr rfl⟩
  · rw [exec_eq_runCommand hi, runCommand]
    refine ⟨_, rfl, ?_⟩
    split
    · rename_i hr
      cases he : ruleOf i s with
      | ok e => exact .effect e hi hr he rfl
      | error f => exact .fault f hi rfl
    · exact .fault _ hi rfl

theorem exec_effect_of_next {i : Instr} {s t : State} (h : exec i s = .next t) : ExecEffect i s t := by
  obtain ⟨t', ht, he⟩ := exec_effect i s
  obtain rfl : t' = t := by rw [ht] at h; simpa using h
  exact he

/-- The engine's step: the command's meaning, or ILLEGAL_CMD(0). -/
theorem engineStep_cases (s : State) :
    (∃ i, decode s.cmdl = .ok i ∧ engineStep s = exec i s)
      ∨ ((∀ i, decode s.cmdl ≠ .ok i) ∧ engineStep s = .next (takeFault ⟨.illegalCmd, 0⟩ s)) := by
  rw [engineStep]
  cases hd : decode s.cmdl with
  | ok i => exact .inl ⟨i, rfl, rfl⟩
  | error e => exact .inr ⟨fun i h => absurd h (by simp), rfl⟩

end Sys2Proof.Machine
end

