-- ==== Sys2Proof/Laws/Table.lean ====
section
/-! SUPPORT. The table RAMs: a blank RAM has no entry, and read after write. -/

namespace Sys2Proof.Machine

@[simp] theorem Table.read_blank (bits i : Nat) : Table.read bits .blank i = none := by
  induction bits generalizing i with
  | zero => rfl
  | succ n ih =>
    rw [Table.read]
    split <;> exact ih _

/-- A read after a write: the written entry at the written index (as `bits` bits), every other index as before. -/
theorem Table.read_write (bits : Nat) (t : Table) (i j : Nat) (e : Entry) :
    Table.read bits (Table.write bits t i e) j
      = if i % 2 ^ bits = j % 2 ^ bits then some e else Table.read bits t j := by
  induction bits generalizing t i j with
  | zero => simp [Table.read, Table.write, Nat.mod_one]
  | succ n ih =>
    have key : i % 2 ^ (n + 1) = j % 2 ^ (n + 1) ↔ i % 2 = j % 2 ∧ i / 2 % 2 ^ n = j / 2 % 2 ^ n := by
      rw [Nat.pow_succ, Nat.mul_comm, Nat.mod_mul, Nat.mod_mul]
      omega
    rw [Table.write]
    by_cases hi : i % 2 = 0 <;> by_cases hj : j % 2 = 0
    · simp [hi, hj, Table.read, Table.even, ih, key]
    · have hne : ¬(i % 2 = j % 2) := by omega
      rw [if_neg fun h => hne (key.1 h).1]
      simp only [Table.read, hi, hj, if_true, if_false]
      rfl
    · have hne : ¬(i % 2 = j % 2) := by omega
      rw [if_neg fun h => hne (key.1 h).1]
      simp only [Table.read, hi, hj, if_true, if_false]
      rfl
    · have heq : i % 2 = j % 2 := by omega
      simp [hj, Table.read, Table.odd, ih, key, heq]

/-- An index that the RAM has reads its entry. -/
theorem Table.entry_of_lt {bits i : Nat} {t : Table} (h : i < 2 ^ bits) : Table.entry bits t i = Table.read bits t i :=
  if_pos h

@[simp] theorem Table.entry_blank (bits i : Nat) : Table.entry bits .blank i = none := by simp [Table.entry]

end Sys2Proof.Machine
end

