-- ==== Sys2Proof/Laws/Field.lean ====
section
/-! SUPPORT. The current field: BUILD's walk and its tables (41_field_engine.md R141), and the algebra they give
(R150, R151). -/

namespace Sys2Proof.Machine

/-! ### One step of the walk -/

theorem testBit_of_ge_of_lt {n w : Nat} (h1 : 2 ^ w ≤ n) (h2 : n < 2 * 2 ^ w) : n.testBit w = true := by
  rw [Nat.testBit_eq_decide_div_mod_eq, decide_eq_true_eq]
  have : n / 2 ^ w = 1 := Nat.div_eq_of_lt_le (by omega) (by omega)
  omega

theorem walkStep_lt {poly w d : Nat} (h : d < 2 ^ w) : walkStep poly w d < 2 ^ w := by
  unfold walkStep
  have hp := Nat.two_pow_pos w
  split
  · exact Nat.lt_of_le_of_lt Nat.and_le_right (by omega)
  · rename_i hb
    by_contra hc
    exact hb (testBit_of_ge_of_lt (by omega) (by omega))

/-- One bit of a step, for an element of the field. -/
theorem testBit_walkStep {poly w d : Nat} (h : d < 2 ^ w) (i : Nat) :
    (walkStep poly w d).testBit i
      = (decide (i < w) && ((2 * d).testBit i ^^ ((2 * d).testBit w && poly.testBit i))) := by
  by_cases hi : i < w
  · unfold walkStep
    split <;> rename_i hb <;> simp [hb, hi]
  · simp only [hi, decide_false, Bool.false_and]
    exact Nat.testBit_lt_two_pow (Nat.lt_of_lt_of_le (walkStep_lt h) (Nat.pow_le_pow_right (by omega) (by omega)))

theorem walkStep_xor {poly w x y : Nat} (hx : x < 2 ^ w) (hy : y < 2 ^ w) :
    walkStep poly w (x ^^^ y) = walkStep poly w x ^^^ walkStep poly w y := by
  have hxy : 2 * (x ^^^ y) = 2 * x ^^^ 2 * y := by
    have := Nat.shiftLeft_xor_distrib (a := x) (b := y) (i := 1)
    simpa [Nat.shiftLeft_eq, Nat.mul_comm] using this
  refine Nat.eq_of_testBit_eq fun i => ?_
  rw [Nat.testBit_xor, testBit_walkStep (Nat.xor_lt_two_pow hx hy), testBit_walkStep hx, testBit_walkStep hy, hxy,
    Nat.testBit_xor, Nat.testBit_xor]
  cases decide (i < w) <;> cases (2 * x).testBit i <;> cases (2 * y).testBit i <;> cases (2 * x).testBit w <;>
    cases (2 * y).testBit w <;> cases poly.testBit i <;> rfl

@[simp] theorem walkStep_zero (poly w : Nat) : walkStep poly w 0 = 0 := by simp [walkStep]

theorem walkStep_one {poly w : Nat} (hw : 2 ≤ w) : walkStep poly w 1 = 2 := by
  have : ¬(2 * 1).testBit w = true := by
    rw [Nat.testBit_lt_two_pow (show 2 * 1 < 2 ^ w from Nat.lt_of_lt_of_le (by decide) (Nat.pow_le_pow_right (by omega) hw))]
    decide
  rw [walkStep, if_neg this]

theorem iterate_walkStep_lt {poly w d : Nat} (h : d < 2 ^ w) (i : Nat) : (walkStep poly w)^[i] d < 2 ^ w := by
  induction i with
  | zero => exact h
  | succ i ih =>
    rw [Function.iterate_succ_apply']
    exact walkStep_lt ih

/-! ### BUILD's loop -/

variable {poly w m : Nat}

/-- The loop succeeds exactly when the walk from `d` avoids 1 until it has taken `n` steps, and is at 1 then. -/
theorem buildLoop_isSome (n i d : Nat) (exp log : Table) (hm : i + n = m) :
    (buildLoop poly w m n i d exp log).isSome = true
      ↔ (∀ j, 0 < j → j < n → (walkStep poly w)^[j] d ≠ 1) ∧ (walkStep poly w)^[n] d = 1 := by
  induction n generalizing i d exp log with
  | zero =>
    unfold buildLoop
    split <;> simp_all
  | succ n ih =>
    rw [buildLoop]
    by_cases hc : i < m - 1 ∧ walkStep poly w d = 1
    · rw [if_pos hc]
      simp only [Option.isSome_none, Bool.false_eq_true, false_iff]
      exact fun h => h.1 1 (by omega) (by omega) hc.2
    · rw [if_neg hc, ih _ _ _ _ (by omega)]
      constructor
      · rintro ⟨h1, h2⟩
        refine ⟨fun j hj hjn => ?_, h2⟩
        obtain ⟨k, rfl⟩ : ∃ k, j = k + 1 := ⟨j - 1, by omega⟩
        rw [Function.iterate_succ_apply]
        by_cases hk : k = 0
        · subst hk
          exact fun h => hc ⟨by omega, h⟩
        · exact h1 k (by omega) (by omega)
      · rintro ⟨h1, h2⟩
        refine ⟨fun j hj hjn => ?_, h2⟩
        have := h1 (j + 1) (by omega) (by omega)
        rwa [Function.iterate_succ_apply] at this

/-- What the loop leaves in the EXP table. -/
theorem buildLoop_exp (hm16 : m < 2 ^ 16) (n i d : Nat) (exp log exp' log' : Table) (hm : i + n = m)
    (h : buildLoop poly w m n i d exp log = some (exp', log')) :
    (∀ k, k < n → Table.read expBits exp' (i + k) = some (BitVec.ofNat 16 ((walkStep poly w)^[k] d))
        ∧ Table.read expBits exp' (m + (i + k)) = some (BitVec.ofNat 16 ((walkStep poly w)^[k] d)))
      ∧ ∀ k, k < i ∨ (m ≤ k ∧ k < m + i) → Table.read expBits exp' k = Table.read expBits exp k := by
  induction n generalizing i d exp log with
  | zero =>
    unfold buildLoop at h
    split at h
    · simp only [Option.some.injEq, Prod.mk.injEq] at h
      obtain ⟨rfl, rfl⟩ := h
      exact ⟨fun k hk => absurd hk (by omega), fun _ _ => rfl⟩
    · exact absurd h (by simp)
  | succ n ih =>
    rw [buildLoop] at h
    split at h
    · exact absurd h (by simp)
    obtain ⟨h1, h2⟩ := ih _ _ _ _ (by omega) h
    have hread : ∀ k, k < i + 1 ∨ (m ≤ k ∧ k < m + (i + 1)) → Table.read expBits exp' k
        = if k = m + i ∨ k = i then some (BitVec.ofNat 16 d) else Table.read expBits exp k := by
      intro k hk
      rw [h2 k hk, Table.read_write, Table.read_write, expBits, Nat.mod_eq_of_lt (show m + i < 2 ^ 17 by omega),
        Nat.mod_eq_of_lt (show k < 2 ^ 17 by omega), Nat.mod_eq_of_lt (show i < 2 ^ 17 by omega)]
      split
      · rw [if_pos (by omega)]
      · split
        · rw [if_pos (by omega)]
        · rw [if_neg (by omega)]
    refine ⟨fun k hk => ?_, fun k hk => ?_⟩
    · cases k with
      | zero =>
        rw [hread _ (by omega), hread _ (by omega), if_pos (by omega), if_pos (by omega)]
        exact ⟨rfl, rfl⟩
      | succ k =>
        rw [show i + (k + 1) = i + 1 + k by omega]
        exact h1 k (by omega)
    · rw [hread k (by omega), if_neg (by omega)]

/-- What the loop leaves in the LOG table. -/
theorem buildLoop_log (hw : w ≤ 16) (n i d : Nat) (exp log exp' log' : Table) (hd : d < 2 ^ w)
    (h : buildLoop poly w m n i d exp log = some (exp', log')) :
    (∀ k, k < n → (∀ j, k < j → j < n → (walkStep poly w)^[j] d ≠ (walkStep poly w)^[k] d) →
        Table.read logBits log' ((walkStep poly w)^[k] d) = some (BitVec.ofNat 16 (i + k)))
      ∧ ∀ v, v < 2 ^ w → (∀ k, k < n → (walkStep poly w)^[k] d ≠ v) →
        Table.read logBits log' v = Table.read logBits log v := by
  induction n generalizing i d exp log with
  | zero =>
    unfold buildLoop at h
    split at h
    · simp only [Option.some.injEq, Prod.mk.injEq] at h
      obtain ⟨rfl, rfl⟩ := h
      exact ⟨fun k hk => absurd hk (by omega), fun _ _ _ => rfl⟩
    · exact absurd h (by simp)
  | succ n ih =>
    rw [buildLoop] at h
    split at h
    · exact absurd h (by simp)
    obtain ⟨h1, h2⟩ := ih _ _ _ _ (walkStep_lt hd) h
    have h16 : (2 : Nat) ^ w ≤ 2 ^ logBits := Nat.pow_le_pow_right (by omega) hw
    have hread : ∀ v, v < 2 ^ w → (∀ k, k < n → (walkStep poly w)^[k] (walkStep poly w d) ≠ v) →
        Table.read logBits log' v = if d = v then some (BitVec.ofNat 16 i) else Table.read logBits log v := by
      intro v hv hk
      rw [h2 v hv hk, Table.read_write, Nat.mod_eq_of_lt (by omega), Nat.mod_eq_of_lt (by omega)]
    refine ⟨fun k hk hlast => ?_, fun v hv hk => ?_⟩
    · cases k with
      | zero =>
        rw [hread _ (iterate_walkStep_lt hd _) fun j hj => by
          have := hlast (j + 1) (by omega) (by omega)
          rwa [Function.iterate_succ_apply] at this]
        exact if_pos rfl
      | succ k =>
        rw [Function.iterate_succ_apply, show i + (k + 1) = i + 1 + k by omega]
        refine h1 k (by omega) fun j hj hjn => ?_
        have := hlast (j + 1) (by omega) (by omega)
        rwa [Function.iterate_succ_apply, Function.iterate_succ_apply] at this
    · rw [hread v hv fun k hkn => by
        have := hk (k + 1) (by omega)
        rwa [Function.iterate_succ_apply] at this]
      exact if_neg (hk 0 (by omega))

/-- A walk that first returns to 1 after `m` steps takes `m` different values. -/
theorem walk_injective {f : Nat → Nat} (hret : f^[m] 1 = 1) (hfirst : ∀ j, 0 < j → j < m → f^[j] 1 ≠ 1) {i j : Nat}
    (hi : i < m) (hj : j < m) (h : f^[i] 1 = f^[j] 1) : i = j := by
  have key : ∀ a b, a < b → b < m → f^[a] 1 ≠ f^[b] 1 := by
    intro a b hab hb he
    refine hfirst (b - a) (by omega) (by omega) ?_
    calc f^[b - a] 1 = f^[b - a] (f^[m] 1) := by rw [hret]
      _ = f^[m - a + b] 1 := by rw [← Function.iterate_add_apply]; congr 1; omega
      _ = f^[m - a] (f^[b] 1) := Function.iterate_add_apply _ _ _ _
      _ = f^[m - a] (f^[a] 1) := by rw [he]
      _ = f^[m] 1 := by rw [← Function.iterate_add_apply]; congr 1; omega
      _ = 1 := hret
  rcases Nat.lt_trichotomy i j with hij | hij | hij
  · exact absurd h (key i j hij hj)
  · exact hij
  · exact absurd h.symm (key j i hij hi)

/-! ### The current field -/

/-- A state with a current field: `f` is its step of the walk, multiplication by α. -/
structure State.Field (s : State) (f : Nat → Nat) : Prop where
  width : ∃ w, (w = 8 ∨ w = 16) ∧ s.fieldMax = 2 ^ w - 1
  step_le : ∀ d, d ≤ s.fieldMax → f d ≤ s.fieldMax
  step_xor : ∀ x y, x ≤ s.fieldMax → y ≤ s.fieldMax → f (x ^^^ y) = f x ^^^ f y
  step_zero : f 0 = 0
  step_one : f 1 = 2
  returns : f^[s.fieldMax] 1 = 1
  first : ∀ j, 0 < j → j < s.fieldMax → f^[j] 1 ≠ 1
  exp_eq : ∀ i, i < 2 * s.fieldMax → s.expAt i = f^[i] 1
  log_walk : ∀ i, i < s.fieldMax → s.logAt (f^[i] 1) = i
  sym_lt : s.symStart < s.fieldMax

/-- The tables BUILD makes give a field. -/
theorem State.FieldInv.field {s : State} (h : s.FieldInv) (hr : s.ready = true) :
    s.Field (walkStep s.fpoly.toNat s.fw.toNat) := by
  obtain ⟨hw, hmax, hsym, ht⟩ := h hr
  generalize hwn : s.fw.toNat = w at *
  have hw' : w = 8 ∨ w = 16 := by
    rcases hw with hw | hw <;> rw [← hwn, hw] <;> decide
  have hm : 2 ^ w - 1 < 2 ^ 16 ∧ 1 < 2 ^ w ∧ 2 ^ w ≤ 2 ^ 16 := by rcases hw' with rfl | rfl <;> decide
  have hlt : ∀ d, d ≤ s.fieldMax ↔ d < 2 ^ w := fun d => by rw [hmax]; omega
  rw [buildTables] at ht
  have hsome := (buildLoop_isSome (2 ^ w - 1) 0 1 .blank .blank (Nat.zero_add _)).1 (by rw [ht]; rfl)
  have hexp := (buildLoop_exp hm.1 _ _ _ _ _ _ _ (Nat.zero_add _) ht).1
  have hlog := (buildLoop_log (by omega) _ _ _ _ _ _ _ hm.2.1 ht).1
  have hwalk : ∀ k, (walkStep s.fpoly.toNat w)^[k] 1 < 2 ^ w := iterate_walkStep_lt hm.2.1
  have hof : ∀ k, (BitVec.ofNat 16 ((walkStep s.fpoly.toNat w)^[k] 1)).toNat = (walkStep s.fpoly.toNat w)^[k] 1 :=
    fun k => Nat.mod_eq_of_lt (Nat.lt_of_lt_of_le (hwalk k) hm.2.2)
  refine ⟨⟨w, hw', hmax⟩, fun d hd => (hlt _).2 (walkStep_lt ((hlt _).1 hd)),
    fun x y hx hy => walkStep_xor ((hlt _).1 hx) ((hlt _).1 hy), walkStep_zero _ _, walkStep_one (by omega),
    hmax ▸ hsome.2, hmax ▸ hsome.1, fun i hi => ?_, fun i hi => ?_, hsym⟩
  · rw [hmax] at hi
    by_cases hlo : i < 2 ^ w - 1
    · rw [State.expAt, Table.entry_of_lt (by rw [expBits]; omega), ← Nat.zero_add i, (hexp i hlo).1, Nat.zero_add]
      exact hof i
    · obtain ⟨j, rfl⟩ : ∃ j, i = (2 ^ w - 1) + (0 + j) := ⟨i - (2 ^ w - 1), by omega⟩
      rw [State.expAt, Table.entry_of_lt (by rw [expBits]; omega), (hexp j (by omega)).2, Nat.zero_add, Nat.add_comm, Function.iterate_add_apply, hsome.2]
      exact hof j
  · rw [hmax] at hi
    rw [State.logAt, Table.entry_of_lt (bits := logBits) (Nat.lt_of_lt_of_le (hwalk i) hm.2.2),
      hlog i hi fun j hj hjm he => by
      have := walk_injective hsome.2 hsome.1 hjm hi he
      omega]
    simp only [Option.getD_some, Nat.zero_add, BitVec.toNat_ofNat]
    exact Nat.mod_eq_of_lt (by omega)

/-- At an index that is a natural number, `expI` is `expAt`. -/
@[simp] theorem expI_natCast (s : State) (i : Nat) : s.expI i = s.expAt i := if_pos (Int.natCast_nonneg i)

namespace State.Field

variable {s : State} {f : Nat → Nat} (h : s.Field f)
include h

theorem max_ge : 255 ≤ s.fieldMax ∧ s.fieldMax ≤ 65535 := by
  obtain ⟨w, hw, hm⟩ := h.width
  rcases hw with rfl | rfl <;> omega

theorem xor_le {x y : Nat} (hx : x ≤ s.fieldMax) (hy : y ≤ s.fieldMax) : x ^^^ y ≤ s.fieldMax := by
  obtain ⟨w, -, hm⟩ := h.width
  have := Nat.two_pow_pos w
  have := Nat.xor_lt_two_pow (show x < 2 ^ w by omega) (show y < 2 ^ w by omega)
  omega

theorem iter_le {d : Nat} (hd : d ≤ s.fieldMax) (i : Nat) : f^[i] d ≤ s.fieldMax := by
  induction i with
  | zero => exact hd
  | succ i ih =>
    rw [Function.iterate_succ_apply']
    exact h.step_le _ ih

theorem iter_zero (i : Nat) : f^[i] 0 = 0 := Function.iterate_fixed h.step_zero i

theorem iter_xor (i : Nat) {x y : Nat} (hx : x ≤ s.fieldMax) (hy : y ≤ s.fieldMax) :
    f^[i] (x ^^^ y) = f^[i] x ^^^ f^[i] y := by
  induction i with
  | zero => rfl
  | succ i ih => rw [Function.iterate_succ_apply', ih, h.step_xor _ _ (h.iter_le hx i) (h.iter_le hy i),
      Function.iterate_succ_apply', Function.iterate_succ_apply']

theorem walk_le (i : Nat) : f^[i] 1 ≤ s.fieldMax := h.iter_le (by have := h.max_ge; omega) i

theorem walk_add_max (i : Nat) : f^[i + s.fieldMax] 1 = f^[i] 1 := by
  rw [Function.iterate_add_apply, h.returns]

theorem walk_mod (i : Nat) : f^[i % s.fieldMax] 1 = f^[i] 1 := by
  induction i using Nat.strong_induction_on with
  | _ i ih =>
    by_cases hi : i < s.fieldMax
    · rw [Nat.mod_eq_of_lt hi]
    · have := h.max_ge
      rw [Nat.mod_eq_sub_mod (by omega), ih _ (by omega), ← h.walk_add_max, Nat.sub_add_cancel (by omega)]

theorem walk_ne_zero (i : Nat) : f^[i] 1 ≠ 0 := by
  intro h0
  have hm := h.max_ge
  have : f^[s.fieldMax - i % s.fieldMax] (f^[i % s.fieldMax] 1) = 1 := by
    rw [← Function.iterate_add_apply, Nat.sub_add_cancel (Nat.le_of_lt (Nat.mod_lt _ (by omega))), h.returns]
  rw [h.walk_mod, h0, h.iter_zero] at this
  exact absurd this (by decide)

/-- Every nonzero element is a power of α. -/
theorem exists_walk {v : Nat} (h1 : 1 ≤ v) (hv : v ≤ s.fieldMax) : ∃ i, i < s.fieldMax ∧ f^[i] 1 = v := by
  have hsub : (Finset.range s.fieldMax).image (fun i => f^[i] 1) ⊆ Finset.Icc 1 s.fieldMax := by
    intro x hx
    obtain ⟨i, -, rfl⟩ := Finset.mem_image.1 hx
    have := h.walk_ne_zero i
    exact Finset.mem_Icc.2 ⟨by omega, h.walk_le i⟩
  have hcard : ((Finset.range s.fieldMax).image fun i => f^[i] 1).card = s.fieldMax := by
    rw [Finset.card_image_of_injOn, Finset.card_range]
    intro i hi j hj hij
    exact walk_injective h.returns h.first (by simpa using hi) (by simpa using hj) hij
  have heq := Finset.eq_of_subset_of_card_le hsub (by rw [hcard, Nat.card_Icc]; omega)
  have hmem : v ∈ (Finset.range s.fieldMax).image fun i => f^[i] 1 := by
    rw [heq]
    exact Finset.mem_Icc.2 ⟨h1, hv⟩
  obtain ⟨i, hi, rfl⟩ := Finset.mem_image.1 hmem
  exact ⟨i, by simpa using hi, rfl⟩

theorem log_lt {v : Nat} (h1 : 1 ≤ v) (hv : v ≤ s.fieldMax) : s.logAt v < s.fieldMax := by
  obtain ⟨i, hi, rfl⟩ := h.exists_walk h1 hv
  rwa [h.log_walk i hi]

theorem walk_log {v : Nat} (h1 : 1 ≤ v) (hv : v ≤ s.fieldMax) : f^[s.logAt v] 1 = v := by
  obtain ⟨i, hi, rfl⟩ := h.exists_walk h1 hv
  rw [h.log_walk i hi]

theorem exp_log {v : Nat} (h1 : 1 ≤ v) (hv : v ≤ s.fieldMax) : s.expAt (s.logAt v) = v := by
  have := h.log_lt h1 hv
  rw [h.exp_eq _ (by omega), h.walk_log h1 hv]

/-- A logarithm, by an exponent that need not be reduced. -/
theorem log_walk_mod (i : Nat) : s.logAt (f^[i] 1) = i % s.fieldMax := by
  have hm := h.max_ge
  rw [← h.walk_mod, h.log_walk _ (Nat.mod_lt _ (by omega))]

theorem log_exp {i : Nat} (hi : i < 2 * s.fieldMax) : s.logAt (s.expAt i) = i % s.fieldMax := by
  rw [h.exp_eq i hi, h.log_walk_mod]

theorem exp_le {i : Nat} (hi : i < 2 * s.fieldMax) : s.expAt i ≤ s.fieldMax := h.exp_eq i hi ▸ h.walk_le i

theorem exp_ne_zero {i : Nat} (hi : i < 2 * s.fieldMax) : s.expAt i ≠ 0 := h.exp_eq i hi ▸ h.walk_ne_zero i

theorem exp_zero : s.expAt 0 = 1 := by
  have hm := h.max_ge
  rw [h.exp_eq 0 (by omega)]
  rfl

theorem log_one : s.logAt 1 = 0 := by
  have hm := h.max_ge
  exact h.log_walk 0 (by omega)

/-! ### Multiplication -/

/-- MUL is the walk taken `LOG[a]` steps from `b`. -/
theorem mulV_eq_iter {a b : Nat} (h1 : 1 ≤ a) (ha : a ≤ s.fieldMax) (hb : b ≤ s.fieldMax) :
    s.mulV a b = f^[s.logAt a] b := by
  by_cases hb0 : b = 0
  · rw [State.mulV, if_pos (.inr hb0), hb0, h.iter_zero]
  · have h3 := h.log_lt h1 ha
    have h4 := h.log_lt (show 1 ≤ b by omega) hb
    rw [State.mulV, if_neg (by omega), h.exp_eq _ (by omega), Function.iterate_add_apply, h.walk_log (by omega) hb]

theorem mulV_walk (i : Nat) {b : Nat} (hb : b ≤ s.fieldMax) : s.mulV (f^[i] 1) b = f^[i] b := by
  have h0 := h.walk_ne_zero i
  rw [h.mulV_eq_iter (by omega) (h.walk_le i) hb, h.log_walk_mod]
  by_cases hb0 : b = 0
  · rw [hb0, h.iter_zero, h.iter_zero]
  · obtain ⟨j, -, rfl⟩ := h.exists_walk (by omega) hb
    rw [← Function.iterate_add_apply, ← Function.iterate_add_apply, ← h.walk_mod, Nat.mod_add_mod, h.walk_mod]

theorem mulV_exp {i b : Nat} (hi : i < 2 * s.fieldMax) (hb : b ≤ s.fieldMax) : s.mulV (s.expAt i) b = f^[i] b := by
  rw [h.exp_eq i hi, h.mulV_walk i hb]

omit h in
@[simp] theorem mulV_zero_left (b : Nat) : s.mulV 0 b = 0 := if_pos (.inl rfl)

omit h in
@[simp] theorem mulV_zero_right (a : Nat) : s.mulV a 0 = 0 := if_pos (.inr rfl)

omit h in
theorem mulV_comm (a b : Nat) : s.mulV a b = s.mulV b a := by
  simp only [State.mulV, Nat.add_comm, or_comm]

theorem mulV_le {a b : Nat} (ha : a ≤ s.fieldMax) (hb : b ≤ s.fieldMax) : s.mulV a b ≤ s.fieldMax := by
  by_cases ha0 : a = 0
  · rw [ha0, mulV_zero_left]
    omega
  · rw [h.mulV_eq_iter (by omega) ha hb]
    exact h.iter_le hb _

theorem mulV_ne_zero {a b : Nat} (h1 : 1 ≤ a) (ha : a ≤ s.fieldMax) (h2 : 1 ≤ b) (hb : b ≤ s.fieldMax) :
    s.mulV a b ≠ 0 := by
  have h3 := h.log_lt h1 ha
  have h4 := h.log_lt h2 hb
  rw [State.mulV, if_neg (by omega)]
  exact h.exp_ne_zero (by omega)

theorem mulV_xor_right {a b c : Nat} (ha : a ≤ s.fieldMax) (hb : b ≤ s.fieldMax) (hc : c ≤ s.fieldMax) :
    s.mulV a (b ^^^ c) = s.mulV a b ^^^ s.mulV a c := by
  by_cases ha0 : a = 0
  · simp [ha0]
  · rw [h.mulV_eq_iter (by omega) ha (h.xor_le hb hc), h.mulV_eq_iter (by omega) ha hb,
      h.mulV_eq_iter (by omega) ha hc, h.iter_xor _ hb hc]

theorem mulV_xor_left {a b c : Nat} (ha : a ≤ s.fieldMax) (hb : b ≤ s.fieldMax) (hc : c ≤ s.fieldMax) :
    s.mulV (a ^^^ b) c = s.mulV a c ^^^ s.mulV b c := by
  rw [mulV_comm, h.mulV_xor_right hc ha hb, mulV_comm c a, mulV_comm c b]

theorem mulV_assoc {a b c : Nat} (ha : a ≤ s.fieldMax) (hb : b ≤ s.fieldMax) (hc : c ≤ s.fieldMax) :
    s.mulV (s.mulV a b) c = s.mulV a (s.mulV b c) := by
  by_cases ha0 : a = 0
  · simp [ha0]
  by_cases hb0 : b = 0
  · simp [hb0]
  obtain ⟨i, -, rfl⟩ := h.exists_walk (show 1 ≤ a by omega) ha
  obtain ⟨j, -, rfl⟩ := h.exists_walk (show 1 ≤ b by omega) hb
  rw [h.mulV_walk i hb, ← Function.iterate_add_apply, h.mulV_walk _ hc, h.mulV_walk j hc,
    h.mulV_walk i (h.iter_le hc j), Function.iterate_add_apply]

theorem mulV_one_left {a : Nat} (ha : a ≤ s.fieldMax) : s.mulV 1 a = a := h.mulV_walk 0 ha

/-- MULEXP is MUL by a power of α. -/
theorem mulExpV_eq {x e : Nat} (hx : x ≤ s.fieldMax) (he : e ≤ s.fieldMax) :
    s.mulExpV x e = s.mulV x (f^[e] 1) := by
  by_cases hx0 : x = 0
  · rw [State.mulExpV, if_pos hx0, hx0, mulV_zero_left]
  · have h3 := h.log_lt (show 1 ≤ x by omega) hx
    rw [State.mulExpV, if_neg hx0, h.exp_eq _ (by omega), h.mulV_eq_iter (by omega) hx (h.walk_le e),
      ← Function.iterate_add_apply]

/-- The quotient by a nonzero element reads an index that the table has (R144). -/
theorem divV_eq {x y : Nat} (h1 : 1 ≤ y) (hy : y ≤ s.fieldMax) :
    s.divV x y = if x = 0 then 0 else s.expAt (s.logAt x + s.fieldMax - s.logAt y) := by
  have h3 := h.log_lt h1 hy
  rw [State.divV, ← expI_natCast, Nat.cast_sub (by omega), Nat.cast_add]

/-- Multiplication distributes over a field sum. -/
theorem mulV_xorSum {a n : Nat} {g : Nat → Nat} (ha : a ≤ s.fieldMax) (hg : ∀ i, i < n → g i ≤ s.fieldMax) :
    s.mulV a (xorSum n g) = xorSum n fun i => s.mulV a (g i) := by
  obtain ⟨w, -, hm⟩ := h.width
  have hp := Nat.two_pow_pos w
  induction n with
  | zero => simp
  | succ n ih =>
    have h1 : xorSum n g < 2 ^ w := xorSum_lt fun i hi => by
      have := hg i (by omega)
      omega
    rw [xorSum_succ, h.mulV_xor_right ha (by omega) (hg n (by omega)), ih fun i hi => hg i (by omega), xorSum_succ]

/-! ### Conversions between the two forms -/

omit h in
theorem toVal_toLogf_zero : s.toVal (s.toLogf 0) = 0 := rfl

theorem toVal_toLogf {v : Nat} (hv : v ≤ s.fieldMax) : s.toVal (s.toLogf v) = v := by
  by_cases h0 : v = 0
  · rw [h0]
    rfl
  · rw [State.toLogf, if_neg h0, State.toVal, if_neg (by omega), expI_natCast, h.exp_log (by omega) hv]

theorem toLogf_bounds {v : Nat} (hv : v ≤ s.fieldMax) : -1 ≤ s.toLogf v ∧ s.toLogf v < s.fieldMax := by
  by_cases h0 : v = 0
  · rw [h0]
    simp only [State.toLogf, if_true]
    omega
  · have := h.log_lt (show 1 ≤ v by omega) hv
    rw [State.toLogf, if_neg h0]
    omega

theorem toVal_le {l : Int} (h1 : -1 ≤ l) (h2 : l < s.fieldMax) : s.toVal l ≤ s.fieldMax := by
  rw [State.toVal]
  split
  · omega
  · rw [State.expI, if_pos (by omega)]
    exact h.exp_le (by omega)

end State.Field

/-- A log-form word read back is the integer it was made from. -/
theorem s32_u32 {l : Int} (h1 : -1 ≤ l) (h2 : l ≤ 65535) : s32 (u32 l) = l := by
  simp only [s32, u32, BitVec.toInt_ofInt, Int.bmod]
  omega

end Sys2Proof.Machine
end

