-- ==== Sys2Proof/Laws/PerInstr.lean ====
section
/-! SUPPORT. Statements about every command, one lemma per command: family RoundTrip (its encoding decodes to it) and
family Assigned (its word is well formed and has the opcode in bits 7:0, nothing above). -/

namespace Sys2Proof.Laws.RoundTrip

/-- The command's word decodes to the command (30_encoding.md R112, R113). -/
def Statement (i : Instr) : Prop := decode (encode i) = .ok i

theorem build : Statement .build := by unfold Statement; decide
theorem mul : Statement .mul := by unfold Statement; decide
theorem div : Statement .div := by unfold Statement; decide
theorem inv : Statement .inv := by unfold Statement; decide
theorem mulexp : Statement .mulexp := by unfold Statement; decide
theorem divexp : Statement .divexp := by unfold Statement; decide
theorem toexp : Statement .toexp := by unfold Statement; decide
theorem tolog : Statement .tolog := by unfold Statement; decide
theorem ladd : Statement .ladd := by unfold Statement; decide
theorem lmul : Statement .lmul := by unfold Statement; decide
theorem ldiv : Statement .ldiv := by unfold Statement; decide
theorem lpow : Statement .lpow := by unfold Statement; decide
theorem pxor : Statement .pxor := by unfold Statement; decide
theorem ladds : Statement .ladds := by unfold Statement; decide
theorem v2l : Statement .v2l := by unfold Statement; decide
theorem l2v : Statement .l2v := by unfold Statement; decide
theorem lconv : Statement .lconv := by unfold Statement; decide
theorem vmul : Statement .vmul := by unfold Statement; decide
theorem ldiff : Statement .ldiff := by unfold Statement; decide
theorem lsubst : Statement .lsubst := by unfold Statement; decide
theorem mkgx : Statement .mkgx := by unfold Statement; decide
theorem mkgxl : Statement .mkgxl := by unfold Statement; decide
theorem mkenc : Statement .mkenc := by unfold Statement; decide
theorem mkdec : Statement .mkdec := by unfold Statement; decide
theorem synd : Statement .synd := by unfold Statement; decide
theorem forney : Statement .forney := by unfold Statement; decide
end Sys2Proof.Laws.RoundTrip

namespace Sys2Proof.Laws.Assigned

/-- The command's word is well formed, and is its opcode with RSVD = 0 (30_encoding.md R112). -/
def Statement (i : Instr) : Prop :=
  commandWordWf (encode i) = true ∧ opField (encode i) = i.opcode.toNat ∧ rsvdField (encode i) = 0

theorem build : Statement .build := by unfold Statement; decide
theorem mul : Statement .mul := by unfold Statement; decide
theorem div : Statement .div := by unfold Statement; decide
theorem inv : Statement .inv := by unfold Statement; decide
theorem mulexp : Statement .mulexp := by unfold Statement; decide
theorem divexp : Statement .divexp := by unfold Statement; decide
theorem toexp : Statement .toexp := by unfold Statement; decide
theorem tolog : Statement .tolog := by unfold Statement; decide
theorem ladd : Statement .ladd := by unfold Statement; decide
theorem lmul : Statement .lmul := by unfold Statement; decide
theorem ldiv : Statement .ldiv := by unfold Statement; decide
theorem lpow : Statement .lpow := by unfold Statement; decide
theorem pxor : Statement .pxor := by unfold Statement; decide
theorem ladds : Statement .ladds := by unfold Statement; decide
theorem v2l : Statement .v2l := by unfold Statement; decide
theorem l2v : Statement .l2v := by unfold Statement; decide
theorem lconv : Statement .lconv := by unfold Statement; decide
theorem vmul : Statement .vmul := by unfold Statement; decide
theorem ldiff : Statement .ldiff := by unfold Statement; decide
theorem lsubst : Statement .lsubst := by unfold Statement; decide
theorem mkgx : Statement .mkgx := by unfold Statement; decide
theorem mkgxl : Statement .mkgxl := by unfold Statement; decide
theorem mkenc : Statement .mkenc := by unfold Statement; decide
theorem mkdec : Statement .mkdec := by unfold Statement; decide
theorem synd : Statement .synd := by unfold Statement; decide
theorem forney : Statement .forney := by unfold Statement; decide
end Sys2Proof.Laws.Assigned
end

