-- ==== Sys2Proof/Laws/Window.lean ====
section
/-! SUPPORT. The register window: which register an offset names, and everything one host access can do. -/

namespace Sys2Proof.Machine

/-! ### Offsets -/

theorem ofOffset_ctrl {o : BitVec 12} (h : Reg.ofOffset o = .ctrl) : o = 0x008 := by
  rw [Reg.ofOffset] at h
  split at h <;> first | exact BitVec.eq_of_toNat_eq ‹_› | exact absurd h (by simp)

theorem ofOffset_status {o : BitVec 12} (h : Reg.ofOffset o = .status) : o = 0x00C := by
  rw [Reg.ofOffset] at h
  split at h <;> first | exact BitVec.eq_of_toNat_eq ‹_› | exact absurd h (by simp)

theorem ofOffset_cmd {o : BitVec 12} (h : Reg.ofOffset o = .cmd) : o = 0x010 := by
  rw [Reg.ofOffset] at h
  split at h <;> first | exact BitVec.eq_of_toNat_eq ‹_› | exact absurd h (by simp)

theorem ofOffset_paddr {o : BitVec 12} (h : Reg.ofOffset o = .paddr) : o = 0x038 := by
  rw [Reg.ofOffset] at h
  split at h <;> first | exact BitVec.eq_of_toNat_eq ‹_› | exact absurd h (by simp)

theorem ofOffset_pdata {o : BitVec 12} (h : Reg.ofOffset o = .pdata) : o = 0x03C := by
  rw [Reg.ofOffset] at h
  split at h <;> first | exact BitVec.eq_of_toNat_eq ‹_› | exact absurd h (by simp)

theorem ofOffset_arg {o : BitVec 12} {k : Fin 6} (h : Reg.ofOffset o = .arg k) :
    o = BitVec.ofNat 12 (0x020 + 4 * k) := by
  rw [Reg.ofOffset] at h
  split at h <;> first
    | (obtain rfl := Reg.arg.inj h
       exact BitVec.eq_of_toNat_eq ‹_›)
    | exact absurd h (by simp)

theorem ofOffset_reserved {o : BitVec 12} (h : 0x050 ≤ o.toNat) : Reg.ofOffset o = .reserved := by
  rw [Reg.ofOffset]
  split <;> first | omega | rfl

/-! ### Aligned and other accesses -/

theorem wf_iff {a : BusAccess} : a.wf = true ↔ a.size = 4 ∧ a.offset.toNat % 4 = 0 := by
  simp [BusAccess.wf, BusAccess.wordSized, BusAccess.aligned]

theorem hostAccess_bad {a : BusAccess} (s : State) (h : ¬a.wf = true) : hostAccess a s = { s with resp := .error } :=
  if_neg h

theorem hostAccess_read {o : BitVec 12} (s : State) (h : o.toNat % 4 = 0) :
    hostAccess (BusAccess.read o) s = readReg (Reg.ofOffset o) s :=
  if_pos (wf_iff.2 ⟨rfl, h⟩)

theorem hostAccess_write {o : BitVec 12} (v : Word) (s : State) (h : o.toNat % 4 = 0) :
    hostAccess (BusAccess.write o v) s = { writeReg (Reg.ofOffset o) v s with resp := .ack } :=
  if_pos (wf_iff.2 ⟨rfl, h⟩)

/-- A read of any register but PDATA only answers. -/
theorem readReg_of_ne {r : Reg} (s : State) (h : r ≠ .pdata) : readReg r s = { s with resp := .data (s.regValue r) } := by
  cases r <;> first | rfl | exact absurd rfl h

theorem pdataBlocked_iff {s : State} : s.pdataBlocked = true ↔ s.busy = true ∨ s.pmemWords ≤ s.paddr.toNat := by
  simp [State.pdataBlocked]

/-! ### Everything a host access can do -/

/-- What one host access can make of the state; `t` is the state after it. -/
inductive AccessEffect (a : BusAccess) (s t : State) : Prop where
  /-- Only the bus's answer: a read, a read-only or reserved register written, a refused access. -/
  | answer (r : BusResp) (ha : a.wf = true → Reg.ofOffset a.offset ≠ .pdata) (h : t = { s with resp := r })
  /-- A host-protocol error. -/
  | protocol (r : BusResp) (e : s.ProtocolError (.access a)) (h : t = { s with herr := true, resp := r })
  /-- PDATA read. -/
  | pdataRead (ha : a = BusAccess.read 0x03C) (hb : s.busy = false) (hp : s.paddr.toNat < s.pmemWords)
      (h : t = { s with resp := .data (s.word .host s.paddr.toNat), paddr := s.paddr + 1, tick := s.tick + 1 })
  /-- PDATA written. -/
  | pdataWrite (v : Word) (ha : a = BusAccess.write 0x03C v) (hb : s.busy = false) (hp : s.paddr.toNat < s.pmemWords)
      (h : t = { s with pmem := s.pmem.write s.paddr.toNat v, paddr := s.paddr + 1, resp := .ack })
  /-- CTRL written. -/
  | ctrl (v : Word) (ha : a = BusAccess.write 0x008 v) (h : t = { s with ie := v.getLsbD 0, resp := .ack })
  /-- STATUS written. -/
  | status (v : Word) (ha : a = BusAccess.write 0x00C v)
      (h : t = { s with done := s.done && !v.getLsbD 2, herr := s.herr && !v.getLsbD 4, resp := .ack })
  /-- CMD written while idle: acceptance. -/
  | accepted (c : Word) (ha : a = BusAccess.write 0x010 c) (hb : s.busy = false)
      (h : t = { accept c s with resp := .ack })
  /-- ARGk written. -/
  | arg (k : Fin 6) (v : Word) (ha : a = BusAccess.write (BitVec.ofNat 12 (0x020 + 4 * k)) v)
      (h : t = { s with args := s.args.set k v, resp := .ack })
  /-- PADDR written. -/
  | paddr (v : Word) (ha : a = BusAccess.write 0x038 v) (h : t = { s with paddr := v, resp := .ack })

theorem hostAccess_effect (a : BusAccess) (s : State) : AccessEffect a s (hostAccess a s) := by
  by_cases hw : a.wf = true
  · obtain ⟨o, sz, op⟩ := a
    obtain ⟨hsz, ho⟩ := wf_iff.1 hw
    obtain rfl : sz = 4 := hsz
    cases op with
    | read =>
      have he : hostAccess ⟨o, 4, .read⟩ s = readReg (Reg.ofOffset o) s := hostAccess_read s ho
      by_cases hp : Reg.ofOffset o = .pdata
      · obtain rfl := ofOffset_pdata hp
        rw [he, hp, readReg, readPdata]
        split
        · rename_i hb
          exact .protocol (.data 0) (.inr ⟨_, rfl, pdataBlocked_iff.1 hb⟩) rfl
        · rename_i hb
          rw [pdataBlocked_iff, not_or, Bool.not_eq_true, Nat.not_le] at hb
          exact .pdataRead rfl hb.1 hb.2 rfl
      · rw [he, readReg_of_ne s hp]
        exact .answer _ (fun _ => hp) rfl
    | write v =>
      have he : hostAccess ⟨o, 4, .write v⟩ s = { writeReg (Reg.ofOffset o) v s with resp := .ack } :=
        hostAccess_write v s ho
      rw [he]
      cases hr : Reg.ofOffset o with
      | ctrl => exact .ctrl v (by rw [ofOffset_ctrl hr]; rfl) rfl
      | status => exact .status v (by rw [ofOffset_status hr]; rfl) rfl
      | cmd =>
        rw [writeReg, writeCmd]
        split
        · rename_i hb
          exact .protocol .ack (.inl ⟨v, by rw [ofOffset_cmd hr]; rfl, hb⟩) rfl
        · rename_i hb
          exact .accepted v (by rw [ofOffset_cmd hr]; rfl) (by simpa using hb) rfl
      | arg k => exact .arg k v (by rw [ofOffset_arg hr]; rfl) rfl
      | paddr => exact .paddr v (by rw [ofOffset_paddr hr]; rfl) rfl
      | pdata =>
        obtain rfl := ofOffset_pdata hr
        rw [writeReg, writePdata]
        split
        · rename_i hb
          exact .protocol .ack (.inr ⟨_, rfl, pdataBlocked_iff.1 hb⟩) rfl
        · rename_i hb
          rw [pdataBlocked_iff, not_or, Bool.not_eq_true, Nat.not_le] at hb
          exact .pdataWrite v rfl hb.1 hb.2 rfl
      | id => exact .answer .ack (fun _ => by simp [hr]) rfl
      | param => exact .answer .ack (fun _ => by simp [hr]) rfl
      | errcode => exact .answer .ack (fun _ => by simp [hr]) rfl
      | errinfo => exact .answer .ack (fun _ => by simp [hr]) rfl
      | result => exact .answer .ack (fun _ => by simp [hr]) rfl
      | fw => exact .answer .ack (fun _ => by simp [hr]) rfl
      | fpoly => exact .answer .ack (fun _ => by simp [hr]) rfl
      | fsym => exact .answer .ack (fun _ => by simp [hr]) rfl
      | fmax => exact .answer .ack (fun _ => by simp [hr]) rfl
      | reserved => exact .answer .ack (fun _ => by simp [hr]) rfl
  · exact .answer .error (fun h => absurd h hw) (hostAccess_bad s hw)

end Sys2Proof.Machine
end

