-- ==== Sys2Proof/Tests/Slice0.lean ====
section
/-! SUPPORT. The model's own tests. Expected values are those of 95_test_vectors.md (derived there from the rules) or are
written out here from the encoding rules; the witnesses show that no statement's hypotheses are empty. -/

open Sys2Proof Sys2Proof.Machine

namespace Sys2Proof.Tests

set_option Elab.async false

/-! ### Well-formedness: an ill-formed term for each check -/

/-- RSVD must be 0 (R112). -/
theorem test_wf_refuses_reserved_bits : commandWordWf 0x00000102 = false ∧ commandWordWf 0x80000002 = false := by decide

/-- OP must be assigned (R116). -/
theorem test_wf_refuses_unassigned : commandWordWf 0x00000000 = false ∧ commandWordWf 0x00000042 = false := by decide

/-- Only 32-bit accesses (R82). -/
theorem test_wf_refuses_narrow_access : (BusAccess.mk 0x010 2 .read).wf = false := by decide

/-- Only aligned accesses (R82). -/
theorem test_wf_refuses_misaligned_access : (BusAccess.mk 0x012 4 .read).wf = false := by decide

theorem test_wf_accepts : commandWordWf 0x00000041 = true ∧ (BusAccess.mk 0x010 4 .read).wf = true := by decide

/-- A command line names operands of its row only, in increasing k (R114, R118). -/
theorem test_command_line_wf :
    HostOp.wf (.command .inv [(2, 0)]) = false ∧ HostOp.wf (.command .mul [(2, 0), (1, 0)]) = false
      ∧ HostOp.wf (.command .mul [(1, 0), (2, 0)]) = true := by decide

/-- The assigned opcodes are the rows of the table (R113, R116). -/
theorem test_assigned_iff_decodes : ∀ op < 256, opAssigned op = (decodeOp op).isSome := by decide +kernel

/-! ### Decoding: words written out from 30_encoding.md R113 -/

theorem test_decode_field_engine :
    decode 0x00000001 = .ok .build ∧ decode 0x00000002 = .ok .mul ∧ decode 0x00000003 = .ok .div
      ∧ decode 0x00000004 = .ok .inv ∧ decode 0x00000005 = .ok .mulexp ∧ decode 0x00000006 = .ok .divexp
      ∧ decode 0x00000007 = .ok .toexp ∧ decode 0x00000008 = .ok .tolog := by decide

theorem test_decode_log_scalar :
    decode 0x00000010 = .ok .ladd ∧ decode 0x00000011 = .ok .lmul ∧ decode 0x00000012 = .ok .ldiv
      ∧ decode 0x00000013 = .ok .lpow := by decide

theorem test_decode_polynomial :
    decode 0x00000020 = .ok .pxor ∧ decode 0x00000021 = .ok .ladds ∧ decode 0x00000022 = .ok .v2l
      ∧ decode 0x00000023 = .ok .l2v ∧ decode 0x00000024 = .ok .lconv ∧ decode 0x00000025 = .ok .vmul
      ∧ decode 0x00000026 = .ok .ldiff ∧ decode 0x00000027 = .ok .lsubst := by decide

theorem test_decode_generator_syndrome :
    decode 0x00000030 = .ok .mkgx ∧ decode 0x00000031 = .ok .mkgxl ∧ decode 0x00000032 = .ok .mkenc
      ∧ decode 0x00000033 = .ok .mkdec ∧ decode 0x00000040 = .ok .synd ∧ decode 0x00000041 = .ok .forney := by decide

theorem test_decode_refuses : decode 0x00000102 = .error .reservedBits ∧ decode 0x00000009 = .error .unassignedOpcode := by
  decide

theorem test_decode_table_word : decodeTableWord 32 0x24 = some .lconv ∧ decodeTableWord 32 0x124 = none := by decide

/-- Every register of the window is at its own offset (10_state.md §2). -/
theorem test_offsets :
    ∀ r ∈ [Reg.id, .param, .ctrl, .status, .cmd, .errcode, .errinfo, .result, .arg 0, .arg 1, .arg 2, .arg 3, .arg 4,
      .arg 5, .paddr, .pdata, .fw, .fpoly, .fsym, .fmax], Reg.ofOffset r.offset = r := by decide

/-! ### One step from small states -/

/-- The state after one step that runs command word `w`. -/
def after (s : State) (w : Nat) : State :=
  match step (s.withFetchWord 32 w) with
  | .next t => t
  | _ => s

/-- The 8-bit field `BUILD POLY, w=8, symStart`, run from reset. -/
def field8 (poly sym : Word) : State := after { State.reset with args := #v[0, poly, 8, sym, 0, 0] } 0x01

/-- PMEM with the words from address `base` on, and nothing else. -/
def mem (base : Nat) (ws : List Word) : Memory := Memory.writeCells [] (listCells base ws)

/-- One command on the standard 8-bit field. -/
def cmd (w : Nat) (args : Vector Word 6) (m : Memory := []) : State :=
  after { field8 0x1D 0 with args := args, pmem := m } w

/-- Whether the command faulted, its ERRCODE and its ERRINFO. -/
def faultOf (t : State) : Bool × BitVec 8 × Word := (t.err, t.errcode, t.errinfo)

/-- The words from `base` on. -/
def wordsOf (t : State) (base n : Nat) : List (Option Word) := (List.range n).map fun i => t.pmem.read (base + i)

/-- The sentinel word. -/
def sent : Word := 0xFFFFFFFF

/-- An index beyond the RAM names no entry: it is not taken modulo the RAM's size (R87). -/
theorem test_table_index :
    Table.entry logBits (Table.write logBits .blank 1 7) 1 = some 7
      ∧ Table.entry logBits (Table.write logBits .blank 1 7) 65537 = none := by decide

/-! #### Command level (95 §2.1) and BUILD (95 §2.2) -/

theorem test_command_level :
    faultOf (after State.reset 0x02) = (true, 2, 0) ∧ faultOf (after State.reset 0xFF) = (true, 1, 0)
      ∧ faultOf (after State.reset 0x102) = (true, 1, 0) := by decide

theorem test_build_config :
    faultOf (after { State.reset with args := #v[0, 0x1D, 9, 300, 0, 0] } 0x01) = (true, 3, 2)
      ∧ faultOf (after { State.reset with args := #v[0, 0x1D, 8, 255, 0, 0] } 0x01) = (true, 3, 3) := by decide

theorem test_build :
    ((field8 0x1D 0).ready, (field8 0x1D 0).fw, (field8 0x1D 0).fpoly, (field8 0x1D 0).fmax)
        = (true, 8, 0x1D, 0xFF)
      ∧ ((field8 0x1D 0).expAt 8, (field8 0x1D 0).expAt 263, (field8 0x1D 0).logAt 3) = (0x1D, 0x1D, 25) := by
  decide +kernel

theorem test_build_nonprimitive :
    faultOf (field8 0x1B 0) = (true, 12, 0)
      ∧ ((field8 0x1B 0).ready, (field8 0x1B 0).fw, (field8 0x1B 0).fmax) = (false, 0, 0) := by decide +kernel

/-! #### Field engine (95 §2.3): MUL, DIV, INV, MULEXP, DIVEXP, TOEXP, TOLOG -/

theorem test_field_engine_results :
    [(cmd 0x02 #v[0, 0x53, 0xCA, 0, 0, 0]).result, (cmd 0x03 #v[0, 0x1D, 0x02, 0, 0, 0]).result,
      (cmd 0x04 #v[0, 0xFF, 0, 0, 0, 0]).result, (cmd 0x05 #v[0, 0xFF, 254, 0, 0, 0]).result,
      (cmd 0x06 #v[0, 0x01, 1, 0, 0, 0]).result, (cmd 0x07 #v[0, 509, 0, 0, 0, 0]).result,
      (cmd 0x08 #v[0, 0xFF, 0, 0, 0, 0]).result]
      = [0x8F, 0x80, 0xFD, 0xF1, 0x8E, 0x8E, 175] := by decide +kernel

theorem test_field_engine_faults :
    [faultOf (cmd 0x02 #v[0, 0x100, 0x100, 0, 0, 0]), faultOf (cmd 0x03 #v[0, 0, 0, 0, 0, 0]),
      faultOf (cmd 0x04 #v[0, 0, 0, 0, 0, 0]), faultOf (cmd 0x05 #v[0, 0, 256, 0, 0, 0]),
      faultOf (cmd 0x06 #v[0, 1, 256, 0, 0, 0]), faultOf (cmd 0x07 #v[0, 510, 0, 0, 0, 0]),
      faultOf (cmd 0x08 #v[0, 0, 0, 0, 0, 0])]
      = [(true, 7, 1), (true, 10, 2), (true, 8, 1), (true, 9, 2), (true, 9, 2), (true, 9, 1), (true, 8, 1)] := by
  decide +kernel

/-! #### Log-form scalar (95 §2.4): LADD, LMUL, LDIV, LPOW -/

theorem test_log_scalar_results :
    [(cmd 0x10 #v[0, 0, 1, 0, 0, 0]).result, (cmd 0x10 #v[0, 0, 0, 0, 0, 0]).result,
      (cmd 0x11 #v[0, 200, 100, 0, 0, 0]).result, (cmd 0x12 #v[0, 3, 5, 0, 0, 0]).result,
      (cmd 0x13 #v[0, 254, 2, 0, 0, 0]).result, (cmd 0x13 #v[0, 1, 0xFFFFFFFF, 0, 0, 0]).result]
      = [25, sent, 45, 253, 253, 0] := by decide +kernel

theorem test_log_scalar_faults :
    [faultOf (cmd 0x11 #v[0, 0, 255, 0, 0, 0]), faultOf (cmd 0x12 #v[0, sent, sent, 0, 0, 0])]
      = [(true, 7, 2), (true, 10, 2)] := by decide +kernel

/-! #### Polynomial (95 §2.5) -/

/-- PXOR, LADDS (in place), V2L, L2V. -/
theorem test_elementwise :
    [wordsOf (cmd 0x20 #v[20, 0, 10, 3, 0, 0] (mem 0 [1, 2, 0xFF] ++ mem 10 [3, 2, 0x0F])) 20 3,
      wordsOf (cmd 0x21 #v[0, 0, 1, 4, 0, 0] (mem 0 [0, 1, sent, 25])) 0 4,
      wordsOf (cmd 0x22 #v[8, 0, 0, 5, 0, 0] (mem 0 [3, 0, 7, 1, 0xFF])) 8 5,
      wordsOf (cmd 0x23 #v[8, 0, 0, 5, 0, 0] (mem 0 [25, sent, 198, 0, 254])) 8 5]
      = [[some 2, some 0, some 0xF0], [some 25, some sent, some 1, some 0],
        [some 25, some sent, some 198, some 0, some 175], [some 3, some 0, some 7, some 1, some 0x8E]] := by
  decide +kernel

theorem test_elementwise_faults :
    [faultOf (cmd 0x20 #v[1, 0, 10, 4, 0, 0]), faultOf (cmd 0x23 #v[8, 4, 0, 1, 0, 0] (mem 4 [255]))]
      = [(true, 6, 0), (true, 7, 0x80000004)] := by decide +kernel

/-- LCONV (the second cancels to a sentinel) and VMUL (the second truncates). -/
theorem test_convolutions :
    [wordsOf (cmd 0x24 #v[8, 0, 4, 4, 3, 2] (mem 0 [25, sent, 198] ++ mem 4 [0, 1])) 8 4,
      wordsOf (cmd 0x24 #v[8, 0, 0, 3, 2, 2] (mem 0 [0, 0])) 8 3,
      wordsOf (cmd 0x25 #v[8, 0, 4, 4, 3, 2] (mem 0 [3, 0, 7] ++ mem 4 [1, 2])) 8 4,
      wordsOf (cmd 0x25 #v[8, 0, 4, 2, 3, 2] (mem 0 [3, 0, 7] ++ mem 4 [1, 2])) 8 3]
      = [[some 25, some 26, some 198, some 199], [some 0, some sent, some 0],
        [some 3, some 6, some 7, some 0x0E], [some 3, some 6, none]] := by decide +kernel

theorem test_ldiff :
    wordsOf (cmd 0x26 #v[8, 0, 0, 5, 0, 0] (mem 0 [10, 20, 30, 40, 50])) 8 5
        = [some sent, some 30, some sent, some 50, none]
      ∧ faultOf (cmd 0x26 #v[8, 0, 0, 0, 0, 0]) = (true, 4, 3) := by decide +kernel

theorem test_lsubst :
    (cmd 0x27 #v[0, 0, 2, 3, 0, 0] (mem 0 [0, 1, sent])).result = 223
      ∧ (cmd 0x27 #v[0, 0, 3, 5, 0, 0] (mem 0 [6, 78, 249, 75, 0])).result = sent := by decide +kernel

/-! #### Generator and tables (95 §2.6) -/

theorem test_generators :
    [wordsOf (cmd 0x30 #v[8, 0, 0, 4, 0, 0]) 8 4, wordsOf (cmd 0x31 #v[8, 0, 0, 4, 0, 0]) 8 4]
      = [[some 0x0F, some 0x36, some 0x78, some 0x40], [some 75, some 249, some 78, some 6]] := by decide +kernel

/-- Row 0xFF of MKENC's plane 0, and plane 1 of the same byte untouched (R254). -/
theorem test_mkenc :
    wordsOf (cmd 0x32 #v[8, 0, 0, 4, 0, 0]) (8 + 2 * 0xFF * 4) 5
      = [some 0x6C, some 0xE5, some 0x47, some 0x31, none] := by decide +kernel

/-- MKGX uses symStart, MKDEC does not (R251, R255). -/
theorem test_symstart :
    wordsOf (after { field8 0x1D 1 with args := #v[8, 0, 0, 4, 0, 0] } 0x30) 8 4
        = [some 0x1E, some 0xD8, some 0xE7, some 0x74]
      ∧ wordsOf (after { field8 0x1D 1 with args := #v[8, 0, 0, 4, 0, 0] } 0x33) (8 + 2 * 0x80 * 4) 5
        = [some 0x80, some 0x1D, some 0x3A, some 0x74, none] := by decide +kernel

theorem test_mkdec_range : faultOf (cmd 0x33 #v[262144 - 2047, 0, 0, 4, 0, 0]) = (true, 5, 0) := by decide +kernel

/-! #### Syndrome and Forney (95 §2.7, §2.8) -/

theorem test_synd :
    (cmd 0x40 #v[20, 0, 0, 12, 4, 0] (mem 0 [1, 2, 3, 4, 5, 6, 7, 8, 0x45, 0x53, 0xEB, 0xF5])).result = 1
      ∧ wordsOf (cmd 0x40 #v[20, 0, 0, 8, 4, 0] (mem 0 [1, 2, 3, 4, 5, 6, 7, 8])) 20 4
        = [some 0x08, some 0x16, some 0x55, some 0x29] := by decide +kernel

theorem test_forney :
    (cmd 0x41 #v[0, 0, 8, 2, 0x3A, 0] (mem 0 [1, 0x3E, 0xE8] ++ mem 8 [0xB1, 0x1B])).result = 0x11
      ∧ faultOf (cmd 0x41 #v[0, 0, 8, 1, 0, 0] (mem 0 [1, 0] ++ mem 8 [5])) = (true, 8, 4) := by decide +kernel

/-! #### The window (10_state.md) -/

/-- One host access. -/
def access (s : State) (a : BusAccess) : State := hostAccess a s

theorem test_id : (access State.reset (BusAccess.read 0x000)).resp = .data 0x47465253 := by decide
theorem test_write_status_w1c :
    (access { State.reset with done := true, herr := true, err := true } (BusAccess.write 0x00C 0x04)).statusWord
      = 0x18 := by decide
theorem test_pdata_read :
    (access { State.reset with pmem := mem 5 [7], paddr := 5 } (BusAccess.read 0x03C)).resp = .data 7 := by decide
theorem test_pdata_advances :
    (access { State.reset with pmem := mem 5 [7], paddr := 5 } (BusAccess.read 0x03C)).paddr = 6 := by decide
theorem test_cmd_while_busy :
    (access { State.reset with busy := true, cmdl := 2 } (BusAccess.write 0x010 3)).cmdl = 2
      ∧ (access { State.reset with busy := true, cmdl := 2 } (BusAccess.write 0x010 3)).herr = true := by decide

/-! #### Host programs (R118) -/

/-- Each WAIT has its own count of early polls, and one on an idle block reads STATUS once. -/
theorem test_hostProgram :
    hostProgram [(2, .command .tolog [(1, 7)]), (0, .wait)]
      = [wrEvent (.arg 1) 7, wrEvent .cmd 0x08, rdEvent .status, rdEvent .status, .engine, rdEvent .status,
        .engine, rdEvent .status] := by decide

/-! #### Clean runs (R357) -/

/-- A run whose host breaks the BUSY protocol and then clears HERR is not clean. -/
theorem test_runHerr :
    runHerr 3 { State.reset with
        paddr := 262144
        events := [.access (BusAccess.read 0x03C), .access (BusAccess.write 0x00C 0x10)] } = true
      ∧ runHerr 2 { State.reset with events := [.access (BusAccess.write 0x024 1)] } = false := by decide

/-! ### Witnesses: states and operands that meet each statement's hypotheses, clause by clause -/

/-- A state with READY = 1 and the 8-bit descriptor, for hypotheses that do not concern the tables. -/
def st (latch : Vector Word 6) (m : Memory := []) : State :=
  { State.reset with ready := true, fw := 8, fpoly := 0x1D, fmax := 255, latch := latch, pmem := m }

/-- The state after `BUILD 0x1D, w=8, symStart=0`. -/
def std : State := field8 0x1D 0

theorem std_field : std.ready = true ∧ std.FieldInv :=
  ⟨by decide +kernel, fun _ => by decide +kernel⟩

theorem std_max : std.fieldMax = 255 := by decide +kernel

/-- Latch and PMEM do not matter to the field. -/
theorem fieldInv_with {s : State} (h : s.ready = true ∧ s.FieldInv) (l : Vector Word 6) (m : Memory) :
    State.ready { s with latch := l, pmem := m } = true ∧ State.FieldInv { s with latch := l, pmem := m } := h

theorem no_bad {n a : Nat} {P : Nat → Prop} (h : ∀ i, i < n → P (a + i)) : ∀ x, ¬∃ i, i < n ∧ x = a + i ∧ ¬P x := by
  rintro x ⟨i, hi, rfl, hn⟩
  exact hn (h i hi)

theorem lowest_first {n a : Nat} {P : Nat → Prop} (h0 : 0 < n) (h : ¬P a) :
    Lowest (fun x => ∃ i, i < n ∧ x = a + i ∧ ¬P x) a := by
  refine ⟨⟨0, h0, rfl, h⟩, ?_⟩
  rintro y hy ⟨i, -, rfl, -⟩
  omega

/-! #### Encoding, stepping and the window -/

theorem witness_ReservedWordsFaultIllegal :
    (∀ op ∈ [0x00, 0x09, 0x0F, 0x14, 0x1F, 0x28, 0x2F, 0x34, 0x3F, 0x42, 0xFF],
      op = 0x00 ∨ (0x09 ≤ op ∧ op ≤ 0x0F) ∨ (0x14 ≤ op ∧ op ≤ 0x1F) ∨ (0x28 ≤ op ∧ op ≤ 0x2F)
        ∨ (0x34 ≤ op ∧ op ≤ 0x3F) ∨ 0x42 ≤ op)
    ∧ (accept 0x00000102 State.reset).busy = true ∧ (0x00000102 : Word).toNat / 256 ≠ 0
    ∧ ∀ op ∈ [0x01, 0x08, 0x10, 0x13, 0x20, 0x27, 0x30, 0x33, 0x40, 0x41],
      ¬(op = 0x00 ∨ (0x09 ≤ op ∧ op ≤ 0x0F) ∨ (0x14 ≤ op ∧ op ≤ 0x1F) ∨ (0x28 ≤ op ∧ op ≤ 0x2F)
        ∨ (0x34 ≤ op ∧ op ≤ 0x3F) ∨ 0x42 ≤ op) := by decide

/-- The idle clauses also at the reset state, whose CMDL names no command, and after an illegal word. -/
theorem witness_StepRunsDecodedCommand :
    (∃ (s : State) (i : Instr), decode s.cmdl = .ok i ∧ s.busy = true ∧ s.events = [])
    ∧ (∃ (s : State) (i : Instr) (rest : List Event),
        decode s.cmdl = .ok i ∧ s.busy = true ∧ s.events = .engine :: rest)
    ∧ (State.reset.busy = false ∧ State.reset.events = [] ∧ decode State.reset.cmdl = .error .unassignedOpcode)
    ∧ ∃ (s : State) (rest : List Event),
        decode s.cmdl = .error .reservedBits ∧ s.busy = false ∧ s.events = .engine :: rest :=
  ⟨⟨accept 2 State.reset, .mul, by decide⟩, ⟨State.reset.withFetchWord 32 2, .mul, [], by decide⟩, by decide,
    ⟨{ State.reset with cmdl := 0x102, events := [.engine, .reset] }, [.reset], by decide⟩⟩

theorem witness_AcceptanceLatchesCommand : ∃ s : State, s.busy = false := ⟨State.reset, rfl⟩

theorem witness_ReservedOffsetsReadZero :
    ∀ offset ∈ [(0x050 : BitVec 12), 0xFFC], 0x050 ≤ offset.toNat ∧ offset.toNat % 4 = 0 := by decide +kernel

theorem witness_PdataAccess :
    (∃ s : State, s.busy = true ∨ s.pmemWords ≤ s.paddr.toNat)
    ∧ (∃ s : State, ¬s.busy = true ∧ (s.busy = true ∨ s.pmemWords ≤ s.paddr.toNat))
    ∧ (∃ s : State, ¬(s.busy = true ∨ s.pmemWords ≤ s.paddr.toNat))
    ∧ ∃ (s : State) (a : Nat) (w : Word), s.pmem.read a = some w :=
  ⟨⟨accept 2 State.reset, by decide⟩, ⟨{ State.reset with paddr := 262144 }, by decide⟩,
    ⟨{ State.reset with paddr := 262143 }, by decide⟩, ⟨{ State.reset with pmem := [(5, 7)] }, 5, 7, by decide⟩⟩

theorem reset_inv : State.reset.Inv where
  words := by decide
  memWf := by decide
  memBelow := by decide
  field := fun h => absurd h (by decide)
  noField := fun _ _ => by decide
  running := fun h => absurd h (by decide)
  record := by decide

theorem witness_PaddrNeverWraps :
    ∃ s t : State, s.Inv ∧ step { s with events := .access ⟨0x03C, 4, .write 7⟩ :: [] } = .next t :=
  ⟨State.reset, _, reset_inv, rfl⟩

theorem witness_BadAccessRefused :
    ((BusAccess.mk 0x010 2 .read).size ≠ 4 ∨ (BusAccess.mk 0x010 2 .read).offset.toNat % 4 ≠ 0)
    ∧ ((BusAccess.mk 0x00D 4 .read).size ≠ 4 ∨ (BusAccess.mk 0x00D 4 .read).offset.toNat % 4 ≠ 0) := by decide

theorem witness_HerrSetExactly :
    (∃ (s t : State) (e : Event), s.events = [e] ∧ step s = .next t ∧ s.ProtocolError e)
    ∧ (∃ (s t : State) (e : Event), s.events = [e] ∧ step s = .next t ∧ ¬s.ProtocolError e ∧ s.herr = false)
    ∧ (∃ (s t : State) (e : Event), s.events = [e] ∧ step s = .next t ∧ s.herr = true ∧ t.herr = false)
    ∧ ∃ s t : State, s.events = [] ∧ step s = .next t ∧ s.busy = true
        ∧ decode s.cmdl = .error .reservedBits ∧ s.herr = true :=
  ⟨⟨{ State.reset with paddr := 262144, events := [.access (BusAccess.read 0x03C)] }, _, _, rfl, rfl,
      .inr ⟨.read, rfl, by decide⟩⟩,
    ⟨{ State.reset with events := [.reset] }, _, _, rfl, rfl, by simp [State.ProtocolError], rfl⟩,
    ⟨{ State.reset with herr := true, events := [.access (BusAccess.write 0x00C 0x10)] }, _, _, rfl, rfl, rfl, rfl⟩,
    ⟨{ State.reset with herr := true, busy := true, cmdl := 0x102 }, _, rfl, rfl, rfl, by decide, rfl⟩⟩

theorem witness_ResetGivesResetState :
    ∃ (s t : State) (rest : List Event), s.events = .reset :: rest ∧ step s = .next t ∧ s.busy = true :=
  ⟨{ accept 2 State.reset with events := [.reset] }, _, [], rfl, rfl, rfl⟩

theorem witness_InterruptFollowsEnableAndDone :
    (∃ (s t : State) (i : Instr), exec i s = .next t)
    ∧ (∃ (s t : State) (v : Word), s.events = [.access (BusAccess.write 0x008 v)] ∧ step s = .next t)
    ∧ (∃ (s t : State) (v : Word),
        s.events = [.access (BusAccess.write 0x00C v)] ∧ step s = .next t ∧ v.getLsbD 2 = true ∧ s.done = true)
    ∧ (∃ (s t : State) (v : Word),
        s.events = [.access (BusAccess.write 0x010 v)] ∧ step s = .next t ∧ s.busy = false ∧ s.done = true)
    ∧ ∃ s t : State, s.events = [.reset] ∧ step s = .next t ∧ s.done = true :=
  ⟨⟨State.reset, _, .mul, rfl⟩, ⟨{ State.reset with events := [.access (BusAccess.write 0x008 1)] }, _, 1, rfl, rfl⟩,
    ⟨{ State.reset with done := true, events := [.access (BusAccess.write 0x00C 4)] }, _, 4, rfl, rfl, rfl, rfl⟩,
    ⟨{ State.reset with done := true, events := [.access (BusAccess.write 0x010 2)] }, _, 2, rfl, rfl, rfl, rfl⟩,
    ⟨{ State.reset with done := true, events := [.reset] }, _, rfl, rfl, rfl⟩⟩

/-! #### Whole-machine rules -/

theorem witness_StepKeepsInvariant : ∃ s t : State, s.Inv ∧ step s = .next t := ⟨State.reset, _, reset_inv, rfl⟩

theorem witness_BlockNeverHalts : ∃ s : State, s.busy = true := ⟨accept 2 State.reset, rfl⟩

theorem witness_OnlyBuildChangesField :
    (∃ (s t : State) (i : Instr), i ≠ .build ∧ exec i s = .next t)
    ∧ ∃ (s t : State) (a : BusAccess), s.events = [.access a] ∧ step s = .next t :=
  ⟨⟨State.reset, _, .mul, by decide, rfl⟩,
    ⟨{ State.reset with events := [.access (BusAccess.write 0x010 1)] }, _, _, rfl, rfl⟩⟩

theorem witness_FaultsArePrecise :
    (∃ (s t : State) (i : Instr), i ≠ .build ∧ s.err = false ∧ exec i s = .next t ∧ t.err = true)
    ∧ (∃ s t : State, s.err = false ∧ exec .build s = .next t ∧ t.err = true)
    ∧ ∃ (s t : State) (i : Instr), exec i s = .next t :=
  ⟨⟨State.reset, _, .mul, by decide, rfl, rfl, rfl⟩, ⟨State.reset, _, rfl, rfl, rfl⟩, ⟨State.reset, _, .mul, rfl⟩⟩

theorem witness_CompletionSetsDone : ∃ (s t : State) (i : Instr), exec i s = .next t := ⟨State.reset, _, .synd, rfl⟩

/-- LPOW of the sentinel, running on the 8-bit field. -/
def sentinelPower : State :=
  { std with
    latch := #v[0, 0xFFFFFFFF, 0, 0, 0, 0], busy := true, done := false, cmdl := 0x13, events := [] }

theorem field_running {s : State} (h : s.ready = true ∧ s.FieldInv) (l : Vector Word 6) (c : Word) :
    State.ready { s with latch := l, busy := true, done := false, cmdl := c, events := [] } = true
      ∧ State.FieldInv { s with latch := l, busy := true, done := false, cmdl := c, events := [] } := h

theorem sentinelPower_field : sentinelPower.ready = true ∧ sentinelPower.FieldInv := field_running std_field _ _

theorem sentinelPower_step : step sentinelPower = .next (afterResult sent sentinelPower) := by
  have hs : step sentinelPower = execLpow sentinelPower := by
    rw [step, advance, show sentinelPower.events = [] from rfl]
    rw [engineTurn, show sentinelPower.busy = true from rfl, if_pos rfl, engineStep,
      show sentinelPower.cmdl = 0x13 from rfl, show decode 0x13 = .ok .lpow by decide]
    rfl
  rw [hs]
  refine runCommand_result sentinelPower_field.1 ?_
  rw [ruleLpow, checkL_ok (by decide +kernel)]
  rfl

/-- A running command, and an idle state after a faulted one (ERR = 1). -/
theorem witness_ResultChangesOnlyAtSuccess :
    (∃ s t : State, s.Inv ∧ step s = .next t ∧ t.result ≠ s.result ∧ s.busy = true)
    ∧ ∃ s t : State, s.Inv ∧ step s = .next t ∧ t.result ≠ s.result ∧ s.events = [.reset] ∧ s.err = true := by
  refine ⟨⟨sentinelPower, _, ?_, sentinelPower_step, by decide +kernel, rfl⟩,
    ⟨{ State.reset with result := 1, err := true, errcode := 1, events := [.reset] }, _, ?_, rfl, by decide, rfl, rfl⟩⟩
  · exact
      { words := by decide +kernel
        memWf := by decide +kernel
        memBelow := by decide +kernel
        field := sentinelPower_field.2
        noField := fun h => absurd (sentinelPower_field.1.symm.trans h) (by decide)
        running := fun _ => by decide +kernel
        record := by decide +kernel }
  · exact
      { words := by decide
        memWf := by decide
        memBelow := by decide
        field := fun h => absurd h (by decide)
        noField := fun _ _ => by decide
        running := fun h => absurd h (by decide)
        record := by decide }

theorem witness_NotReadyFaults : ∃ (s : State) (i : Instr), i ≠ .build ∧ s.ready = false :=
  ⟨State.reset, .mul, by decide⟩

theorem witness_HostCannotDisturbRunningCommand :
    ∃ (s t t' : State) (a : BusAccess) (i : Instr),
      s.busy = true ∧ exec i s = .next t ∧ exec i (hostAccess a s) = .next t' ∧ a = BusAccess.write 0x024 5 :=
  ⟨{ st #v[0, 0xFFFFFFFF, 0, 0, 0, 0] with busy := true, cmdl := 0x13 }, _, _, _, .lpow, rfl, rfl, rfl, rfl⟩

theorem witness_CommandLineRunsCommand :
    ∃ (s : State) (i : Instr) (ops : List (Fin 6 × Word)) (polls : Nat),
      s.busy = false ∧ s.events = (HostOp.command i ops).expand polls ++ [] ∧ 0 < polls ∧ ops ≠ [] :=
  ⟨{ State.reset with events := (HostOp.command .mul [(1, 2), (2, 3)]).expand 2 }, .mul, [(1, 2), (2, 3)], 2, by decide⟩

/-! #### BUILD and the field -/

theorem witness_BuildOutcome :
    (∃ s : State, s.opU 2 ≠ 8 ∧ s.opU 2 ≠ 16)
    ∧ (∃ s : State, (s.opU 2 = 8 ∨ s.opU 2 = 16) ∧ 2 ^ s.opU 2 - 1 ≤ s.opU 3)
    ∧ (∃ s : State, (s.opU 2 = 8 ∨ s.opU 2 = 16) ∧ s.opU 3 < 2 ^ s.opU 2 - 1
        ∧ ¬((∀ i, 0 < i → i < 2 ^ s.opU 2 - 1 → (walkStep (s.opU 1) (s.opU 2))^[i] 1 ≠ 1)
          ∧ (walkStep (s.opU 1) (s.opU 2))^[2 ^ s.opU 2 - 1] 1 = 1))
    ∧ ∃ s : State, (s.opU 2 = 8 ∨ s.opU 2 = 16) ∧ s.opU 3 < 2 ^ s.opU 2 - 1
        ∧ (∀ i, 0 < i → i < 2 ^ s.opU 2 - 1 → (walkStep (s.opU 1) (s.opU 2))^[i] 1 ≠ 1)
          ∧ (walkStep (s.opU 1) (s.opU 2))^[2 ^ s.opU 2 - 1] 1 = 1 := by
  refine ⟨⟨st #v[0, 0x1D, 9, 300, 0, 0], by decide⟩, ⟨st #v[0, 0x1D, 8, 255, 0, 0], by decide⟩,
    ⟨st #v[0, 0x1B, 8, 254, 0, 0], by decide, by decide, ?_⟩, ⟨st #v[0, 0x1D, 8, 254, 0, 0], by decide, by decide, ?_⟩⟩
  · refine fun h => absurd ((buildLoop_isSome (m := 2 ^ 8 - 1) (2 ^ 8 - 1) 0 1 .blank .blank (Nat.zero_add _)).2 h) ?_
    decide +kernel
  · refine (buildLoop_isSome (m := 2 ^ 8 - 1) (2 ^ 8 - 1) 0 1 .blank .blank (Nat.zero_add _)).1 ?_
    decide +kernel

theorem witness_PolyHighBitsIgnored : 0x11D % 2 ^ 8 = 0x1D % 2 ^ 8 := by decide

/-- The state that the statements about a field (FieldTablesAreInverse, FieldMultiplicationLaws,
DualMultiplicationAgrees, GeneratorIsProductOfRoots) assume, with boundary elements. -/
theorem witness_field_statements :
    ∃ s : State, s.ready = true ∧ s.FieldInv ∧ 1 ≤ s.fieldMax ∧ 0 < s.fieldMax ∧ s.ValueForm 0 ∧ s.ValueForm 255 :=
  ⟨std, std_field.1, std_field.2, by decide +kernel⟩

/-! #### Scalar commands -/

theorem witness_MulOutcome :
    (∃ s : State, s.ready = true ∧ s.opU 1 ≤ s.fieldMax ∧ s.opU 2 ≤ s.fieldMax)
    ∧ (∃ s : State, s.ready = true ∧ s.fieldMax < s.opU 1)
    ∧ ∃ s : State, s.ready = true ∧ s.opU 1 ≤ s.fieldMax ∧ s.fieldMax < s.opU 2 :=
  ⟨⟨st #v[0, 255, 255, 0, 0, 0], by decide⟩, ⟨st #v[0, 256, 256, 0, 0, 0], by decide⟩,
    ⟨st #v[0, 255, 256, 0, 0, 0], by decide⟩⟩

theorem witness_DivOutcome :
    (∃ s : State, s.ready = true ∧ s.opU 1 ≤ s.fieldMax ∧ s.opU 2 ≤ s.fieldMax ∧ s.opU 2 ≠ 0)
    ∧ (∃ s : State, s.ready = true ∧ s.fieldMax < s.opU 1)
    ∧ (∃ s : State, s.ready = true ∧ s.opU 1 ≤ s.fieldMax ∧ s.fieldMax < s.opU 2)
    ∧ ∃ s : State, s.ready = true ∧ s.opU 1 ≤ s.fieldMax ∧ s.opU 2 = 0 :=
  ⟨⟨st #v[0, 0, 1, 0, 0, 0], by decide⟩, ⟨st #v[0, 256, 0, 0, 0, 0], by decide⟩,
    ⟨st #v[0, 255, 256, 0, 0, 0], by decide⟩, ⟨st #v[0, 0, 0, 0, 0, 0], by decide⟩⟩

theorem witness_InvOutcome :
    (∃ s : State, s.ready = true ∧ s.opU 1 ≤ s.fieldMax ∧ s.opU 1 ≠ 0)
    ∧ (∃ s : State, s.ready = true ∧ s.fieldMax < s.opU 1) ∧ ∃ s : State, s.ready = true ∧ s.opU 1 = 0 :=
  ⟨⟨st #v[0, 255, 0, 0, 0, 0], by decide⟩, ⟨st #v[0, 256, 0, 0, 0, 0], by decide⟩,
    ⟨st #v[0, 0, 0, 0, 0, 0], by decide⟩⟩

/-- MULEXP and DIVEXP have the same conditions. -/
theorem witness_MulexpOutcome :
    (∃ s : State, s.ready = true ∧ s.opU 1 ≤ s.fieldMax ∧ s.opU 2 ≤ s.fieldMax)
    ∧ (∃ s : State, s.ready = true ∧ s.fieldMax < s.opU 1)
    ∧ ∃ s : State, s.ready = true ∧ s.opU 1 ≤ s.fieldMax ∧ s.fieldMax < s.opU 2 :=
  ⟨⟨st #v[0, 0, 255, 0, 0, 0], by decide⟩, ⟨st #v[0, 256, 0, 0, 0, 0], by decide⟩,
    ⟨st #v[0, 0, 256, 0, 0, 0], by decide⟩⟩

theorem witness_DivexpOutcome :
    (∃ s : State, s.ready = true ∧ s.FieldInv ∧ s.opU 1 ≤ s.fieldMax ∧ s.opU 2 = 0)
    ∧ ∃ s : State, s.ready = true ∧ s.FieldInv ∧ 1 ≤ s.opU 1 ∧ s.opU 1 ≤ s.fieldMax ∧ s.opU 2 = s.fieldMax
      ∧ s.opU 2 ≤ s.fieldMax :=
  ⟨⟨{ std with latch := #v[0, 0, 0, 0, 0, 0], pmem := [] }, (fieldInv_with std_field _ _).1,
      (fieldInv_with std_field _ _).2, by decide +kernel⟩,
    { std with latch := #v[0, 255, 255, 0, 0, 0], pmem := [] }, (fieldInv_with std_field _ _).1,
    (fieldInv_with std_field _ _).2, by decide +kernel⟩

theorem witness_TableReadOutcome :
    (∃ s : State, s.ready = true ∧ s.opU 1 < 2 * s.fieldMax) ∧ (∃ s : State, s.ready = true ∧ 2 * s.fieldMax ≤ s.opU 1)
    ∧ (∃ s : State, s.ready = true ∧ s.opU 1 ≤ s.fieldMax ∧ s.opU 1 ≠ 0)
    ∧ (∃ s : State, s.ready = true ∧ s.fieldMax < s.opU 1) ∧ ∃ s : State, s.ready = true ∧ s.opU 1 = 0 :=
  ⟨⟨st #v[0, 509, 0, 0, 0, 0], by decide⟩, ⟨st #v[0, 510, 0, 0, 0, 0], by decide⟩,
    ⟨st #v[0, 255, 0, 0, 0, 0], by decide⟩, ⟨st #v[0, 256, 0, 0, 0, 0], by decide⟩,
    ⟨st #v[0, 0, 0, 0, 0, 0], by decide⟩⟩

/-- LADD and LMUL have the same conditions; LDIV's are these and two more; LPOW's are the first operand's. -/
theorem witness_LaddOutcome :
    (∃ s : State, s.ready = true ∧ s.LogForm (s.a 1) ∧ s.LogForm (s.a 2))
    ∧ (∃ s : State, s.ready = true ∧ ¬s.LogForm (s.a 1))
    ∧ ∃ s : State, s.ready = true ∧ s.LogForm (s.a 1) ∧ ¬s.LogForm (s.a 2) :=
  ⟨⟨st #v[0, sent, 254, 0, 0, 0], by decide⟩, ⟨st #v[0, 255, 0, 0, 0, 0], by decide⟩,
    ⟨st #v[0, 0, 0xFFFFFFFE, 0, 0, 0], by decide⟩⟩

theorem witness_LdivOutcome :
    (∃ s : State, s.ready = true ∧ s.LogForm (s.a 1) ∧ s.LogForm (s.a 2) ∧ s.opS 2 ≠ -1)
    ∧ ∃ s : State, s.ready = true ∧ s.LogForm (s.a 1) ∧ s.opS 2 = -1 :=
  ⟨⟨st #v[0, sent, 0, 0, 0, 0], by decide⟩, ⟨st #v[0, sent, sent, 0, 0, 0], by decide⟩⟩

theorem witness_LogCommandsAgreeWithValue :
    ∃ s t : State, s.ready = true ∧ s.FieldInv ∧ s.LogForm (s.a 1) ∧ s.LogForm (s.a 2) ∧ exec .ldiv s = .next t
      ∧ s.opS 2 ≠ -1 :=
  have hf := fieldInv_with std_field #v[0, sent, 254, 0, 0, 0] []
  ⟨{ std with latch := #v[0, sent, 254, 0, 0, 0], pmem := [] }, _, hf.1, hf.2, by decide +kernel, by decide +kernel, rfl,
    by decide +kernel⟩

/-! #### Polynomials -/

theorem witness_PxorOutcome :
    (∃ s : State, s.ready = true
      ∧ (s.Fits (s.opU 0) (s.opU 3) ∧ s.Fits (s.opU 1) (s.opU 3) ∧ s.Fits (s.opU 2) (s.opU 3))
      ∧ ((s.opU 0 = s.opU 1 ∨ ¬Shares (s.opU 0) (s.opU 3) (s.opU 1) (s.opU 3))
        ∧ (s.opU 0 = s.opU 2 ∨ ¬Shares (s.opU 0) (s.opU 3) (s.opU 2) (s.opU 3)))
      ∧ ∀ x, ¬∃ i, i < s.opU 3 ∧ ((x = s.opU 1 + i ∧ ¬s.ValueForm (s.word (.check 0) x))
        ∨ (x = s.opU 2 + i ∧ ¬s.ValueForm (s.word (.check 1) x))))
    ∧ (∃ s : State, s.ready = true ∧ ¬(s.Fits (s.opU 0) (s.opU 3) ∧ s.Fits (s.opU 1) (s.opU 3)
        ∧ s.Fits (s.opU 2) (s.opU 3)))
    ∧ (∃ s : State, s.ready = true
      ∧ (s.Fits (s.opU 0) (s.opU 3) ∧ s.Fits (s.opU 1) (s.opU 3) ∧ s.Fits (s.opU 2) (s.opU 3))
      ∧ ¬((s.opU 0 = s.opU 1 ∨ ¬Shares (s.opU 0) (s.opU 3) (s.opU 1) (s.opU 3))
        ∧ (s.opU 0 = s.opU 2 ∨ ¬Shares (s.opU 0) (s.opU 3) (s.opU 2) (s.opU 3))))
    ∧ ∃ s : State, s.ready = true
      ∧ (s.Fits (s.opU 0) (s.opU 3) ∧ s.Fits (s.opU 1) (s.opU 3) ∧ s.Fits (s.opU 2) (s.opU 3))
      ∧ ((s.opU 0 = s.opU 1 ∨ ¬Shares (s.opU 0) (s.opU 3) (s.opU 1) (s.opU 3))
        ∧ (s.opU 0 = s.opU 2 ∨ ¬Shares (s.opU 0) (s.opU 3) (s.opU 2) (s.opU 3)))
      ∧ Lowest (fun x => ∃ i, i < s.opU 3 ∧ ((x = s.opU 1 + i ∧ ¬s.ValueForm (s.word (.check 0) x))
        ∨ (x = s.opU 2 + i ∧ ¬s.ValueForm (s.word (.check 1) x)))) 3 := by
  refine ⟨⟨st #v[262143, 262143, 3, 1, 0, 0] [(3, 255), (262143, 255)], by decide, by decide, by decide, ?_⟩,
    ⟨st #v[262143, 0, 0, 2, 0, 0], by decide, by decide⟩, ⟨st #v[1, 0, 9, 2, 0, 0], by decide, by decide, by decide⟩,
    ⟨st #v[0, 5, 3, 1, 0, 0] [(3, 256), (5, 256)], by decide, by decide, by decide, by decide, by decide⟩⟩
  rintro x ⟨i, hi, h⟩
  obtain rfl : i = 0 := by
    have : i < 1 := hi
    omega
  rcases h with ⟨rfl, h⟩ | ⟨rfl, h⟩ <;> exact h (by decide)

theorem witness_LaddsOutcome :
    (∃ s : State, s.ready = true ∧ (s.Fits (s.opU 0) (s.opU 3) ∧ s.Fits (s.opU 1) (s.opU 3))
      ∧ (s.opU 0 = s.opU 1 ∨ ¬Shares (s.opU 0) (s.opU 3) (s.opU 1) (s.opU 3)) ∧ s.LogForm (s.a 2)
      ∧ ∀ x, ¬∃ i, i < s.opU 3 ∧ x = s.opU 1 + i ∧ ¬s.LogForm (s.word (.check 0) x))
    ∧ (∃ s : State, s.ready = true ∧ ¬(s.Fits (s.opU 0) (s.opU 3) ∧ s.Fits (s.opU 1) (s.opU 3)))
    ∧ (∃ s : State, s.ready = true ∧ (s.Fits (s.opU 0) (s.opU 3) ∧ s.Fits (s.opU 1) (s.opU 3))
      ∧ ¬(s.opU 0 = s.opU 1 ∨ ¬Shares (s.opU 0) (s.opU 3) (s.opU 1) (s.opU 3)))
    ∧ (∃ s : State, s.ready = true ∧ (s.Fits (s.opU 0) (s.opU 3) ∧ s.Fits (s.opU 1) (s.opU 3))
      ∧ (s.opU 0 = s.opU 1 ∨ ¬Shares (s.opU 0) (s.opU 3) (s.opU 1) (s.opU 3)) ∧ ¬s.LogForm (s.a 2))
    ∧ ∃ s : State, s.ready = true ∧ (s.Fits (s.opU 0) (s.opU 3) ∧ s.Fits (s.opU 1) (s.opU 3))
      ∧ (s.opU 0 = s.opU 1 ∨ ¬Shares (s.opU 0) (s.opU 3) (s.opU 1) (s.opU 3)) ∧ s.LogForm (s.a 2)
      ∧ Lowest (fun x => ∃ i, i < s.opU 3 ∧ x = s.opU 1 + i ∧ ¬s.LogForm (s.word (.check 0) x)) 7 :=
  ⟨⟨st #v[7, 7, 254, 2, 0, 0] [(7, sent), (8, 254)], by decide, by decide, by decide, by decide, no_bad (by decide)⟩,
    ⟨st #v[0, 262143, 0, 2, 0, 0], by decide, by decide⟩, ⟨st #v[1, 0, 0, 2, 0, 0], by decide, by decide, by decide⟩,
    ⟨st #v[0, 0, 255, 0, 0, 0], by decide, by decide, by decide, by decide⟩,
    ⟨st #v[7, 7, 0, 1, 0, 0] [(7, 255)], by decide, by decide, by decide, by decide, lowest_first (by decide) (by decide)⟩⟩

/-- V2L's clause about the word 1. -/
theorem witness_V2lOutcome_one :
    ∃ s : State, s.ready = true ∧ s.FieldInv ∧ ∃ i, s.word (.use 0 0) (s.opU 1 + i) = 1 :=
  have hf := fieldInv_with std_field #v[9, 7, 0, 2, 0, 0] [(8, 1)]
  ⟨{ std with latch := #v[9, 7, 0, 2, 0, 0], pmem := [(8, 1)] }, hf.1, hf.2, 1, by decide +kernel⟩

/-- V2L; L2V has the same conditions with LogForm (of the same words here). -/
theorem witness_V2lOutcome :
    (∃ s : State, s.ready = true ∧ (s.Fits (s.opU 0) (s.opU 3) ∧ s.Fits (s.opU 1) (s.opU 3))
      ∧ (s.opU 0 = s.opU 1 ∨ ¬Shares (s.opU 0) (s.opU 3) (s.opU 1) (s.opU 3))
      ∧ (∀ x, ¬∃ i, i < s.opU 3 ∧ x = s.opU 1 + i ∧ ¬s.ValueForm (s.word (.check 0) x))
      ∧ ∀ x, ¬∃ i, i < s.opU 3 ∧ x = s.opU 1 + i ∧ ¬s.LogForm (s.word (.check 0) x))
    ∧ (∃ s : State, s.ready = true ∧ ¬(s.Fits (s.opU 0) (s.opU 3) ∧ s.Fits (s.opU 1) (s.opU 3)))
    ∧ (∃ s : State, s.ready = true ∧ (s.Fits (s.opU 0) (s.opU 3) ∧ s.Fits (s.opU 1) (s.opU 3))
      ∧ ¬(s.opU 0 = s.opU 1 ∨ ¬Shares (s.opU 0) (s.opU 3) (s.opU 1) (s.opU 3)))
    ∧ ∃ s : State, s.ready = true ∧ (s.Fits (s.opU 0) (s.opU 3) ∧ s.Fits (s.opU 1) (s.opU 3))
      ∧ (s.opU 0 = s.opU 1 ∨ ¬Shares (s.opU 0) (s.opU 3) (s.opU 1) (s.opU 3))
      ∧ Lowest (fun x => ∃ i, i < s.opU 3 ∧ x = s.opU 1 + i ∧ ¬s.ValueForm (s.word (.check 0) x)) 7
      ∧ Lowest (fun x => ∃ i, i < s.opU 3 ∧ x = s.opU 1 + i ∧ ¬s.LogForm (s.word (.check 0) x)) 7 :=
  ⟨⟨st #v[9, 7, 0, 2, 0, 0] [(7, 0), (8, 254)], by decide, by decide, by decide, no_bad (by decide), no_bad (by decide)⟩,
    ⟨st #v[0, 262143, 0, 2, 0, 0], by decide, by decide⟩, ⟨st #v[1, 0, 0, 2, 0, 0], by decide, by decide, by decide⟩,
    ⟨st #v[7, 7, 0, 1, 0, 0] [(7, 256)], by decide, by decide, by decide, lowest_first (by decide) (by decide),
      lowest_first (by decide) (by decide)⟩⟩

/-- LCONV and VMUL (`good` is LogForm or ValueForm; the words here are both, or neither). -/
theorem witness_ConvOutcome :
    (∃ s : State, s.ready = true
      ∧ (s.Fits (s.opU 0) (s.opU 3) ∧ s.Fits (s.opU 1) (s.opU 4) ∧ s.Fits (s.opU 2) (s.opU 5))
      ∧ (¬Shares (s.opU 0) (s.opU 3) (s.opU 1) (s.opU 4) ∧ ¬Shares (s.opU 0) (s.opU 3) (s.opU 2) (s.opU 5))
      ∧ (∀ x, ¬((∃ j, j < s.opU 4 ∧ x = s.opU 1 + j ∧ ¬s.LogForm (s.word (.check 0) x))
        ∨ (∃ j, j < s.opU 5 ∧ x = s.opU 2 + j ∧ ¬s.LogForm (s.word (.check 1) x))))
      ∧ ∀ x, ¬((∃ j, j < s.opU 4 ∧ x = s.opU 1 + j ∧ ¬s.ValueForm (s.word (.check 0) x))
        ∨ (∃ j, j < s.opU 5 ∧ x = s.opU 2 + j ∧ ¬s.ValueForm (s.word (.check 1) x))))
    ∧ (∃ s : State, s.ready = true
      ∧ ¬(s.Fits (s.opU 0) (s.opU 3) ∧ s.Fits (s.opU 1) (s.opU 4) ∧ s.Fits (s.opU 2) (s.opU 5)))
    ∧ (∃ s : State, s.ready = true
      ∧ (s.Fits (s.opU 0) (s.opU 3) ∧ s.Fits (s.opU 1) (s.opU 4) ∧ s.Fits (s.opU 2) (s.opU 5))
      ∧ ¬(¬Shares (s.opU 0) (s.opU 3) (s.opU 1) (s.opU 4) ∧ ¬Shares (s.opU 0) (s.opU 3) (s.opU 2) (s.opU 5)))
    ∧ ∃ s : State, s.ready = true
      ∧ (s.Fits (s.opU 0) (s.opU 3) ∧ s.Fits (s.opU 1) (s.opU 4) ∧ s.Fits (s.opU 2) (s.opU 5))
      ∧ (¬Shares (s.opU 0) (s.opU 3) (s.opU 1) (s.opU 4) ∧ ¬Shares (s.opU 0) (s.opU 3) (s.opU 2) (s.opU 5))
      ∧ Lowest (fun x => (∃ j, j < s.opU 4 ∧ x = s.opU 1 + j ∧ ¬s.LogForm (s.word (.check 0) x))
        ∨ (∃ j, j < s.opU 5 ∧ x = s.opU 2 + j ∧ ¬s.LogForm (s.word (.check 1) x))) 3
      ∧ Lowest (fun x => (∃ j, j < s.opU 4 ∧ x = s.opU 1 + j ∧ ¬s.ValueForm (s.word (.check 0) x))
        ∨ (∃ j, j < s.opU 5 ∧ x = s.opU 2 + j ∧ ¬s.ValueForm (s.word (.check 1) x))) 3 := by
  refine ⟨⟨st #v[8, 0, 4, 3, 2, 1] [(0, 0), (1, 254), (4, 1)], by decide, by decide, by decide, fun x => ?_, fun x => ?_⟩,
    ⟨st #v[0, 0, 0, 262145, 0, 0], by decide, by decide⟩,
    ⟨st #v[4, 0, 4, 1, 2, 1], by decide, by decide, by decide⟩,
    ⟨st #v[8, 5, 3, 3, 1, 1] [(3, 256), (5, 256)], by decide, by decide, by decide, by decide, by decide⟩⟩
  all_goals
    rintro (⟨j, hj, rfl, h⟩ | ⟨j, hj, rfl, h⟩)
    · replace hj : j < 2 := hj
      interval_cases j <;> exact h (by decide)
    · obtain rfl : j = 0 := by
        have : j < 1 := hj
        omega
      exact h (by decide)

theorem witness_LdiffOutcome :
    (∃ s : State, s.ready = true ∧ s.opU 3 ≠ 0 ∧ (s.Fits (s.opU 1) (s.opU 3) ∧ s.Fits (s.opU 0) (s.opU 3 - 1))
      ∧ ¬Shares (s.opU 0) (s.opU 3 - 1) (s.opU 1) (s.opU 3)
      ∧ ∀ x, ¬∃ i, i < s.opU 3 ∧ x = s.opU 1 + i ∧ ¬s.LogForm (s.word (.check 0) x))
    ∧ (∃ s : State, s.ready = true ∧ s.opU 3 = 0)
    ∧ (∃ s : State, s.ready = true ∧ s.opU 3 ≠ 0
      ∧ ¬(s.Fits (s.opU 1) (s.opU 3) ∧ s.Fits (s.opU 0) (s.opU 3 - 1)))
    ∧ (∃ s : State, s.ready = true ∧ s.opU 3 ≠ 0 ∧ (s.Fits (s.opU 1) (s.opU 3) ∧ s.Fits (s.opU 0) (s.opU 3 - 1))
      ∧ ¬¬Shares (s.opU 0) (s.opU 3 - 1) (s.opU 1) (s.opU 3))
    ∧ ∃ s : State, s.ready = true ∧ s.opU 3 ≠ 0 ∧ (s.Fits (s.opU 1) (s.opU 3) ∧ s.Fits (s.opU 0) (s.opU 3 - 1))
      ∧ ¬Shares (s.opU 0) (s.opU 3 - 1) (s.opU 1) (s.opU 3)
      ∧ Lowest (fun x => ∃ i, i < s.opU 3 ∧ x = s.opU 1 + i ∧ ¬s.LogForm (s.word (.check 0) x)) 7 :=
  ⟨⟨st #v[9, 7, 0, 2, 0, 0] [(7, 10), (8, sent)], by decide, by decide, by decide, by decide, no_bad (by decide)⟩,
    ⟨st #v[0, 0, 0, 0, 0, 0], by decide⟩, ⟨st #v[262144, 7, 0, 2, 0, 0], by decide, by decide, by decide⟩,
    ⟨st #v[8, 7, 0, 2, 0, 0], by decide, by decide, by decide, by decide⟩,
    ⟨st #v[9, 7, 0, 1, 0, 0] [(7, 300)], by decide, by decide, by decide, by decide,
      lowest_first (by decide) (by decide)⟩⟩

theorem witness_LsubstOutcome :
    (∃ s : State, s.ready = true ∧ s.Fits (s.opU 1) (s.opU 3) ∧ s.opU 2 < s.fieldMax
      ∧ ∀ x, ¬∃ i, i < s.opU 3 ∧ x = s.opU 1 + i ∧ ¬s.LogForm (s.word (.check 0) x))
    ∧ (∃ s : State, s.ready = true ∧ ¬s.Fits (s.opU 1) (s.opU 3))
    ∧ (∃ s : State, s.ready = true ∧ s.Fits (s.opU 1) (s.opU 3) ∧ s.fieldMax ≤ s.opU 2)
    ∧ ∃ s : State, s.ready = true ∧ s.Fits (s.opU 1) (s.opU 3) ∧ s.opU 2 < s.fieldMax
      ∧ Lowest (fun x => ∃ i, i < s.opU 3 ∧ x = s.opU 1 + i ∧ ¬s.LogForm (s.word (.check 0) x)) 7 :=
  ⟨⟨st #v[0, 7, 254, 2, 0, 0] [(7, 254), (8, sent)], by decide, by decide, by decide, no_bad (by decide)⟩,
    ⟨st #v[0, 262143, 0, 2, 0, 0], by decide, by decide⟩, ⟨st #v[0, 0, 255, 1, 0, 0], by decide, by decide, by decide⟩,
    ⟨st #v[0, 7, 0, 1, 0, 0] [(7, 0xFFFFFFFE)], by decide, by decide, by decide, lowest_first (by decide) (by decide)⟩⟩

/-! #### Generators and tables -/

/-- MKGX; the range and fit clauses of MKGXL, MKENC and MKDEC are the same but for the region's length. -/
theorem witness_MkgxOutcome :
    (∃ s : State, s.ready = true ∧ (s.opU 3 ≠ 0 ∧ s.opU 3 ≤ s.fieldMax) ∧ s.Fits (s.opU 0) (s.opU 3)
      ∧ s.Fits (s.opU 0) (512 * s.opU 3))
    ∧ (∃ s : State, s.ready = true ∧ s.opU 3 = 0 ∧ ¬(s.opU 3 ≠ 0 ∧ s.opU 3 ≤ s.fieldMax))
    ∧ (∃ s : State, s.ready = true ∧ s.opU 3 = 256 ∧ ¬(s.opU 3 ≠ 0 ∧ s.opU 3 ≤ s.fieldMax))
    ∧ ∃ s : State, s.ready = true ∧ (s.opU 3 ≠ 0 ∧ s.opU 3 ≤ s.fieldMax) ∧ ¬s.Fits (s.opU 0) (s.opU 3)
      ∧ ¬s.Fits (s.opU 0) (512 * s.opU 3) :=
  ⟨⟨st #v[0, 0, 0, 255, 0, 0], by decide⟩, ⟨st #v[0, 0, 0, 0, 0, 0], by decide⟩,
    ⟨st #v[0, 0, 0, 256, 0, 0], by decide⟩, ⟨st #v[262144, 0, 0, 1, 0, 0], by decide⟩⟩

theorem generator_four : std.generator 4 = [0x0F, 0x36, 0x78, 0x40] := by decide +kernel

/-- A state whose two roots are equal, so that the generator of 2 has a zero coefficient. (With BUILD's tables only
npar = MAX has one, 95 §2.6: 255 root steps, slow to evaluate here.) -/
def twinRoots : State :=
  { st #v[0, 0, 0, 2, 0, 0] with
    exp := Table.write expBits (Table.write expBits .blank 0 1) 1 1
    log := Table.write logBits .blank 1 0 }

/-- MKGXL and MKENC with and without a zero coefficient. -/
theorem witness_MkgxlOutcome :
    (∃ s : State, s.ready = true ∧ (∀ j, ¬(j < 4 ∧ (s.generator 4).getD j 0 = 0)))
    ∧ ∃ s : State, s.ready = true ∧ s.Fits (s.opU 0) (s.opU 3) ∧ s.Fits (s.opU 0) (512 * s.opU 3)
      ∧ Lowest (fun j => j < s.opU 3 ∧ (s.generator (s.opU 3)).getD j 0 = 0) 0 := by
  refine ⟨⟨std, std_field.1, ?_⟩, ⟨twinRoots, by decide +kernel⟩⟩
  rintro j ⟨hj, h⟩
  rw [generator_four] at h
  revert h
  interval_cases j <;> decide

theorem witness_MkdecOutcome :
    ∃ s : State, s.ready = true ∧ s.FieldInv ∧ (s.opU 3 ≠ 0 ∧ s.opU 3 ≤ s.fieldMax)
      ∧ s.Fits (s.opU 0) (512 * s.opU 3) :=
  have hf := fieldInv_with std_field #v[0, 0, 0, 4, 0, 0] []
  ⟨{ std with latch := #v[0, 0, 0, 4, 0, 0], pmem := [] }, hf.1, hf.2, by decide +kernel, by decide +kernel⟩

/-- A state for LSUBST at the roots of the generator of 4 (95 L1.7). -/
def rootState (k : Word) : State :=
  { std with latch := #v[0, 0, k, 5, 0, 0], pmem := mem 0 [6, 78, 249, 75, 0] }

theorem witness_GeneratorVanishesAtRoots :
    ∃ (s : State) (npar k : Nat), s.ready = true ∧ s.FieldInv ∧ 1 ≤ npar ∧ npar ≤ s.fieldMax ∧ k < npar
      ∧ (∀ j, j < npar → (s.generator npar).getD j 0 ≠ 0)
      ∧ s.opU 2 = (s.symStart + k) % s.fieldMax ∧ s.opU 3 = npar + 1 ∧ s.Fits (s.opU 1) (npar + 1)
      ∧ (∀ r j, j < npar →
        s.word r (s.opU 1 + j) = BitVec.ofNat 32 (s.logAt ((s.generator npar).getD (npar - 1 - j) 0)))
      ∧ ∀ r, s.word r (s.opU 1 + npar) = 0 :=
  have hf := fieldInv_with std_field #v[0, 0, 3, 5, 0, 0] (mem 0 [6, 78, 249, 75, 0])
  have hw : ∀ j, j < 4 → (rootState 3).pmem.read ((rootState 3).opU 1 + j)
      = some (BitVec.ofNat 32 ((rootState 3).logAt (((rootState 3).generator 4).getD (4 - 1 - j) 0))) := by
    decide +kernel
  ⟨rootState 3, 4, 3, hf.1, hf.2, by decide +kernel, by decide +kernel, by decide, by decide +kernel, by decide +kernel,
    by decide +kernel, by decide +kernel, fun _ j hj => word_of_read (hw j hj),
    fun _ => word_of_read (by decide +kernel)⟩

/-! #### Syndromes and Forney -/

theorem witness_SyndOutcome :
    (∃ s : State, s.ready = true ∧ s.opU 4 ≤ s.fieldMax ∧ (s.Fits (s.opU 0) (s.opU 4) ∧ s.Fits (s.opU 1) (s.opU 3))
      ∧ ¬Shares (s.opU 0) (s.opU 4) (s.opU 1) (s.opU 3)
      ∧ ∀ x, ¬∃ i, i < s.opU 3 ∧ x = s.opU 1 + i ∧ ¬s.ValueForm (s.word (.check 0) x))
    ∧ (∃ s : State, s.ready = true ∧ s.fieldMax < s.opU 4)
    ∧ (∃ s : State, s.ready = true ∧ s.opU 4 ≤ s.fieldMax
      ∧ ¬(s.Fits (s.opU 0) (s.opU 4) ∧ s.Fits (s.opU 1) (s.opU 3)))
    ∧ (∃ s : State, s.ready = true ∧ s.opU 4 ≤ s.fieldMax
      ∧ (s.Fits (s.opU 0) (s.opU 4) ∧ s.Fits (s.opU 1) (s.opU 3)) ∧ ¬¬Shares (s.opU 0) (s.opU 4) (s.opU 1) (s.opU 3))
    ∧ ∃ s : State, s.ready = true ∧ s.opU 4 ≤ s.fieldMax
      ∧ (s.Fits (s.opU 0) (s.opU 4) ∧ s.Fits (s.opU 1) (s.opU 3)) ∧ ¬Shares (s.opU 0) (s.opU 4) (s.opU 1) (s.opU 3)
      ∧ Lowest (fun x => ∃ i, i < s.opU 3 ∧ x = s.opU 1 + i ∧ ¬s.ValueForm (s.word (.check 0) x)) 7 :=
  ⟨⟨st #v[9, 7, 0, 2, 4, 0] [(7, 0), (8, 255)], by decide, by decide, by decide, by decide, no_bad (by decide)⟩,
    ⟨st #v[0, 0, 0, 0, 256, 0], by decide⟩, ⟨st #v[0, 262143, 0, 2, 0, 0], by decide, by decide, by decide⟩,
    ⟨st #v[7, 7, 0, 2, 4, 0], by decide, by decide, by decide, by decide⟩,
    ⟨st #v[9, 7, 0, 1, 4, 0] [(7, 256)], by decide, by decide, by decide, by decide,
      lowest_first (by decide) (by decide)⟩⟩

/-- SyndromeEvaluatesBlock and CodewordSyndromesVanish. -/
theorem witness_syndrome_statements :
    ∃ (s : State) (i npar : Nat) (block : List Word), s.ready = true ∧ s.FieldInv ∧ i < s.fieldMax
      ∧ (∀ x ∈ block, s.ValueForm x) ∧ block ≠ [] ∧ s.symStart = 0 ∧ 1 ≤ npar ∧ npar ≤ s.fieldMax ∧ i < npar :=
  ⟨std, 3, 4, [255], std_field.1, std_field.2, by decide +kernel, by simp [State.ValueForm, std_max], by decide,
    by decide +kernel, by decide, by decide +kernel, by decide⟩

theorem witness_ForneyOutcome :
    (∃ s : State, s.ready = true ∧ s.opU 3 ≠ 0 ∧ (s.Fits (s.opU 1) (1 + 1) ∧ s.Fits (s.opU 2) (s.opU 3))
      ∧ s.opU 3 % 2 = 1 ∧ s.ValueForm (s.a 4)
      ∧ (∀ x, ¬((∃ j, j < s.opU 3 ∧ x = s.opU 2 + j ∧ ¬s.ValueForm (s.word (.check 1) x))
        ∨ (∃ k, k ≤ s.opU 3 ∧ k % 2 = 1 ∧ x = s.opU 1 + k ∧ ¬s.ValueForm (s.word (.check 0) x))))
      ∧ s.opU 4 ≠ 0 ∧ (s.word (.use 0 0) (s.opU 1 + 1)).toNat ≠ 0)
    ∧ (∃ s : State, s.ready = true ∧ s.opU 3 = 0)
    ∧ (∃ s : State, s.ready = true ∧ s.opU 3 = 1 ∧ ¬(s.Fits (s.opU 1) (1 + 1) ∧ s.Fits (s.opU 2) (s.opU 3)))
    ∧ (∃ s : State, s.ready = true ∧ s.opU 3 = 1 ∧ (s.Fits (s.opU 1) (1 + 1) ∧ s.Fits (s.opU 2) (s.opU 3))
      ∧ ¬s.ValueForm (s.a 4))
    ∧ (∃ s : State, s.ready = true ∧ s.opU 3 = 1 ∧ (s.Fits (s.opU 1) (1 + 1) ∧ s.Fits (s.opU 2) (s.opU 3))
      ∧ s.ValueForm (s.a 4)
      ∧ Lowest (fun x => (∃ j, j < s.opU 3 ∧ x = s.opU 2 + j ∧ ¬s.ValueForm (s.word (.check 1) x))
        ∨ (∃ k, k ≤ s.opU 3 ∧ k % 2 = 1 ∧ x = s.opU 1 + k ∧ ¬s.ValueForm (s.word (.check 0) x))) 4)
    ∧ (∃ s : State, s.ready = true ∧ s.opU 3 = 1 ∧ (s.Fits (s.opU 1) (1 + 1) ∧ s.Fits (s.opU 2) (s.opU 3))
      ∧ (∀ x, ¬((∃ j, j < s.opU 3 ∧ x = s.opU 2 + j ∧ ¬s.ValueForm (s.word (.check 1) x))
        ∨ (∃ k, k ≤ s.opU 3 ∧ k % 2 = 1 ∧ x = s.opU 1 + k ∧ ¬s.ValueForm (s.word (.check 0) x))))
      ∧ s.opU 4 = 0)
    ∧ ∃ s : State, s.ready = true ∧ s.opU 3 = 1 ∧ (s.Fits (s.opU 1) (1 + 1) ∧ s.Fits (s.opU 2) (s.opU 3))
      ∧ s.ValueForm (s.a 4)
      ∧ (∀ x, ¬((∃ j, j < s.opU 3 ∧ x = s.opU 2 + j ∧ ¬s.ValueForm (s.word (.check 1) x))
        ∨ (∃ k, k ≤ s.opU 3 ∧ k % 2 = 1 ∧ x = s.opU 1 + k ∧ ¬s.ValueForm (s.word (.check 0) x))))
      ∧ s.opU 4 ≠ 0 ∧ (s.word (.use 0 0) (s.opU 1 + 1)).toNat = 0 := by
  refine ⟨⟨st #v[0, 3, 8, 1, 255, 0] [(4, 255), (8, 255)], by decide, by decide, by decide, by decide, by decide, ?_,
      by decide⟩,
    ⟨st #v[0, 0, 0, 0, 0, 0], by decide⟩, ⟨st #v[0, 262143, 0, 1, 0, 0], by decide, by decide, by decide⟩,
    ⟨st #v[0, 3, 8, 1, 256, 0], by decide, by decide, by decide, by decide⟩,
    ⟨st #v[0, 3, 8, 1, 1, 0] [(4, 256), (8, 256)], by decide, by decide, by decide, by decide, by decide⟩,
    ⟨st #v[0, 3, 8, 1, 0, 0] [(4, 0), (8, 5)], by decide, by decide, by decide, ?_, by decide⟩,
    ⟨st #v[0, 3, 8, 1, 2, 0] [(4, 0), (8, 5)], by decide, by decide, by decide, by decide, ?_, by decide⟩⟩ <;>
  · rintro x (⟨j, hj, rfl, h⟩ | ⟨k, hk, ho, rfl, h⟩)
    · obtain rfl : j = 0 := by
        have : j < 1 := hj
        omega
      exact h (by decide)
    · obtain rfl : k = 1 := by
        have : k ≤ 1 := hk
        omega
      exact h (by decide)

theorem witness_ForneySingleErrorReturnsError :
    ∃ (s : State) (E : Word), s.ready = true ∧ s.FieldInv ∧ s.ValueForm E ∧ E ≠ 0 ∧ s.opU 3 = 1
      ∧ s.Fits (s.opU 1) 2 ∧ s.Fits (s.opU 2) 1 ∧ 1 ≤ s.opU 4 ∧ s.opU 4 ≤ s.fieldMax
      ∧ ∀ r, s.word r (s.opU 1) = 1 ∧ s.word r (s.opU 1 + 1) = s.a 4 ∧ s.word r (s.opU 2) = E :=
  have hf := fieldInv_with std_field #v[0, 0, 8, 1, 0x1D, 0] [(0, 1), (1, 0x1D), (8, 0x5A)]
  ⟨{ std with latch := #v[0, 0, 8, 1, 0x1D, 0], pmem := [(0, 1), (1, 0x1D), (8, 0x5A)] }, 0x5A, hf.1, hf.2,
    by decide +kernel, by decide, by decide +kernel, by decide +kernel, by decide +kernel, by decide +kernel,
    by decide +kernel, fun _ => ⟨word_of_read (by decide +kernel), word_of_read (by decide +kernel),
      word_of_read (by decide +kernel)⟩⟩

end Sys2Proof.Tests
end

section
/-! SUPPORT. Steps: one equation for a scheduled event, and everything a step can do (10_state.md R40; 20_memory.md R90;
60_exceptions.md R307). -/

namespace Sys2Proof.Machine

/-! ### A scheduled event -/

/-- A step takes the first event off the schedule and handles it. -/
theorem step_of_events {s : State} {e : Event} {rest : List Event} (h : s.events = e :: rest) :
    step s = handle e { s with events := rest } := by
  simp only [step, advance, h]

/-- A step on an aligned read of a register of the window. -/
theorem step_read {o : BitVec 12} (s : State) (rest : List Event) (h : o.toNat % 4 = 0) :
    step { s with events := .access (BusAccess.read o) :: rest }
      = .next (readReg (Reg.ofOffset o) { s with events := rest }) :=
  congrArg Host.Outcome.next (hostAccess_read _ h)

/-- A step on an aligned write of a register of the window. -/
theorem step_write {o : BitVec 12} (v : Word) (s : State) (rest : List Event) (h : o.toNat % 4 = 0) :
    step { s with events := .access (BusAccess.write o v) :: rest }
      = .next { writeReg (Reg.ofOffset o) v { s with events := rest } with resp := .ack } :=
  congrArg Host.Outcome.next (hostAccess_write v _ h)

/-- No register shows the schedule. -/
theorem regValue_events (s : State) (rest : List Event) (r : Reg) :
    State.regValue { s with events := rest } r = s.regValue r := by
  cases r <;> rfl

/-- A step on an aligned read of any register but PDATA only answers with the register's value. -/
theorem step_read_of_ne {o : BitVec 12} (s : State) (rest : List Event) (h : o.toNat % 4 = 0)
    (hr : Reg.ofOffset o ≠ .pdata) :
    step { s with events := .access (BusAccess.read o) :: rest }
      = .next { s with events := rest, resp := .data (s.regValue (Reg.ofOffset o)) } := by
  rw [step_read s rest h, readReg_of_ne _ hr, regValue_events]

/-! ### Everything a step can do -/

/-- What the engine's turn can make of the state; `t` is the state after it. -/
inductive TurnEffect (s t : State) : Prop where
  /-- No command runs. -/
  | idle (hb : s.busy = false) (h : t = s)
  /-- CMDL names no command. -/
  | illegal (hb : s.busy = true) (hd : ∀ i, decode s.cmdl ≠ .ok i) (h : t = takeFault ⟨.illegalCmd, 0⟩ s)
  /-- The completion of the running command. -/
  | command (i : Instr) (hb : s.busy = true) (hd : decode s.cmdl = .ok i) (h : ExecEffect i s t)

theorem engineTurn_effect {s t : State} (h : engineTurn s = .next t) : TurnEffect s t := by
  rw [engineTurn] at h
  split at h
  next hb =>
    rcases engineStep_cases s with ⟨i, hd, he⟩ | ⟨hd, he⟩
    · exact .command i hb hd (exec_effect_of_next (he ▸ h))
    · rw [he] at h
      exact .illegal hb hd (Host.Outcome.next.inj h).symm
  next hb => exact .idle (Bool.eq_false_of_not_eq_true hb) (Host.Outcome.next.inj h).symm

/-- What one step can make of the state; `t` is the state after it. -/
inductive StepEffect (s t : State) : Prop where
  /-- A host access. -/
  | access (a : BusAccess) (rest : List Event) (hs : s.events = .access a :: rest)
      (h : AccessEffect a { s with events := rest } t)
  /-- The reset input. -/
  | reset (rest : List Event) (hs : s.events = .reset :: rest) (h : t = resetBlock { s with events := rest })
  /-- The engine's turn, scheduled or because the schedule is over. -/
  | turn (hs : s.events = [] ∨ ∃ rest, s.events = .engine :: rest)
      (h : TurnEffect { s with events := s.events.tail } t)

theorem step_effect {s t : State} (h : step s = .next t) : StepEffect s t := by
  cases hs : s.events with
  | nil =>
    have hpop : { s with events := s.events.tail } = s := by rw [hs, List.tail_nil, ← hs]
    have hturn : step s = engineTurn s := by simp only [step, advance, hs]
    exact .turn (.inl hs) (by rw [hpop]; exact engineTurn_effect (hturn ▸ h))
  | cons e rest =>
    rw [step_of_events hs] at h
    cases e with
    | access a =>
      obtain rfl := Host.Outcome.next.inj h
      exact .access a rest hs (hostAccess_effect a _)
    | reset => exact .reset rest hs (Host.Outcome.next.inj h).symm
    | engine => exact .turn (.inr ⟨rest, hs⟩) (by rw [hs]; exact engineTurn_effect h)

end Sys2Proof.Machine
end

section
/-! PROOFS. The invariant of the block: each shared operation keeps it, hence every step does. -/

namespace Sys2Proof.Machine

variable {s t : State}

/-- The descriptor reads 0 without a field (10_state.md R34). -/
abbrev State.DescriptorZero (s : State) : Prop :=
  s.ready = false → s.fw = 0 ∧ s.fpoly = 0 ∧ s.fsym = 0 ∧ s.fmax = 0

/-! ### What the host and the schedule change -/

/-- The invariant speaks of no register that the host alone writes, nor of the model's own fields. -/
theorem State.Inv.hostFields (h : s.Inv) (ie herr : Bool) (args : Vector Word 6) (paddr : Word) (resp : BusResp)
    (events : List Event) (tick : Nat) :
    State.Inv { s with
      ie := ie, herr := herr, args := args, paddr := paddr, resp := resp, events := events, tick := tick } :=
  ⟨h.words, h.memWf, h.memBelow, h.field, h.noField, h.running, h.record⟩

/-- DONE may fall at any time. -/
theorem State.Inv.lowerDone (h : s.Inv) (keep : Bool) : State.Inv { s with done := s.done && keep } where
  __ := h
  running hb := (h.running hb).imp_left fun hd => by rw [hd, Bool.false_and]

/-- PMEM may be replaced by one in canonical form and inside its bounds. -/
theorem State.Inv.withPmem (h : s.Inv) {m : Memory} (hw : m.wf) (hb : m.below s.pmemWords) :
    State.Inv { s with pmem := m } where
  __ := h
  memWf := hw
  memBelow := hb

/-- An idle block may accept any command word: only BUILD's drops READY, and BUILD runs until its completion. -/
theorem State.Inv.accept (h : s.Inv) (hb : s.busy = false) (c : Word) : (accept c s).Inv where
  words := h.words
  memWf := h.memWf
  memBelow := h.memBelow
  field hr := h.field (Bool.and_eq_true_iff.1 hr).1
  noField hr hbuild := by
    have hc : c ≠ 1#32 := fun hc => hbuild ⟨rfl, hc⟩
    have hr : s.ready = false := by simpa [hc] using hr
    exact h.noField hr (by simp [hb])
  running _ := ⟨rfl, rfl⟩
  record := by simp

/-- A reset gives a block without a field, a record and a command. -/
theorem State.Inv.resetBlock (h : s.Inv) : (resetBlock s).Inv where
  words := h.words
  memWf := List.Pairwise.nil
  memBelow _ hc := absurd hc List.not_mem_nil
  field := by simp [State.FieldInv]
  noField _ _ := ⟨rfl, rfl, rfl, rfl⟩
  running := by simp
  record := by simp

theorem AccessEffect.inv {a : BusAccess} (h : AccessEffect a s t) (hs : s.Inv) : t.Inv := by
  cases h with
  | answer r _ h => exact h ▸ hs.hostFields ..
  | protocol r _ h => exact h ▸ hs.hostFields ..
  | pdataRead _ _ _ h => exact h ▸ hs.hostFields ..
  | ctrl v _ h => exact h ▸ hs.hostFields ..
  | arg k v _ h => exact h ▸ hs.hostFields ..
  | paddr v _ h => exact h ▸ hs.hostFields ..
  | pdataWrite v _ _ hp h =>
    exact h ▸ (hs.withPmem (Memory.write_wf hs.memWf ..) (Memory.write_below hs.memBelow hp v)).hostFields ..
  | status v _ h => exact h ▸ (hs.lowerDone (!v.getLsbD 2)).hostFields ..
  | accepted c _ hb h => exact h ▸ (hs.accept hb c).hostFields ..

/-! ### What the engine changes -/

/-- Without a field the descriptor reads 0, unless BUILD runs. -/
theorem State.Inv.descriptorZero (h : s.Inv) (hc : s.cmdl ≠ 1) : s.DescriptorZero :=
  fun hr => h.noField hr fun hbuild => hc hbuild.2

theorem State.Inv.takeFault (h : s.Inv) (hd : s.DescriptorZero) (f : Raise) : (takeFault f s).Inv where
  words := h.words
  memWf := h.memWf
  memBelow := h.memBelow
  field := h.field
  noField hr _ := hd hr
  running := by simp
  record := by simpa using f.cause.code_range

theorem State.Inv.succeed (h : s.Inv) (hd : s.DescriptorZero) {e : Effect} (he : e.Below s.pmemWords) :
    (succeed e s).Inv where
  words := h.words
  memWf := Memory.writeCells_wf h.memWf _
  memBelow := Memory.writeCells_below h.memBelow he
  field := h.field
  noField hr _ := hd hr
  running := by simp
  record := h.record

theorem State.Inv.dropField (h : s.Inv) : (dropField s).Inv where
  __ := h
  field := by simp [State.FieldInv]
  noField _ _ := ⟨rfl, rfl, rfl, rfl⟩

/-- A BUILD that raises nothing has passed its two CONFIG checks and its walk (41_field_engine.md R141). -/
theorem ruleBuild_eq_ok {tables : Table × Table} (h : ruleBuild s = .ok tables) :
    (s.opU 2 = 8 ∨ s.opU 2 = 16) ∧ s.opU 3 < 2 ^ s.opU 2 - 1 ∧ buildTables (s.opU 1) (s.opU 2) = some tables := by
  obtain ⟨hw, h⟩ := require_bind_eq_ok h
  obtain ⟨hsym, h⟩ := require_bind_eq_ok h
  refine ⟨by simpa using hw, of_decide_eq_true hsym, ?_⟩
  cases hb : buildTables (s.opU 1) (s.opU 2) with
  | none => simp [hb] at h
  | some built => simpa [hb] using h

/-- BUILD's new field is one that this hardware has. -/
theorem fieldInv_setField {tables : Table × Table} (h : ruleBuild s = .ok tables) : (setField tables s).FieldInv := by
  obtain ⟨hw, hsym, hbuilt⟩ := ruleBuild_eq_ok h
  have hmax : (setField tables s).fieldMax = 2 ^ s.opU 2 - 1 := by
    rcases hw with hw | hw <;> simp [State.fieldMax, hw]
  have hfw : s.a 2 = 8 ∨ s.a 2 = 16 := hw.imp (BitVec.eq_of_toNat_eq ·) (BitVec.eq_of_toNat_eq ·)
  exact fun _ => ⟨hfw, hmax, hmax ▸ hsym, hbuilt⟩

theorem State.Inv.setField (h : s.Inv) {tables : Table × Table} (hb : ruleBuild s = .ok tables) :
    (setField tables s).Inv where
  __ := h
  field := fieldInv_setField hb
  noField hr := absurd hr (by simp)

/-- Only BUILD's word decodes to BUILD (30_encoding.md R113). -/
theorem ne_one_of_decode {c : Word} {i : Instr} (h : decode c = .ok i) (hi : i ≠ .build) : c ≠ 1 := by
  rintro rfl
  exact hi (Except.ok.inj (h.symm.trans Laws.RoundTrip.build))

theorem ExecEffect.inv {i : Instr} (h : ExecEffect i s t) (hd : decode s.cmdl = .ok i) (hs : s.Inv) : t.Inv := by
  cases h with
  | fault f hi h => exact h ▸ hs.takeFault (hs.descriptorZero (ne_one_of_decode hd hi)) f
  | effect e hi _ he h => exact h ▸ hs.succeed (hs.descriptorZero (ne_one_of_decode hd hi)) (ruleOf_effect he).1
  | buildFault f _ _ h => exact h ▸ hs.dropField.takeFault (fun _ => ⟨rfl, rfl, rfl, rfl⟩) f
  | field tables _ he h =>
    exact h ▸ (hs.setField he).succeed (fun hr => absurd hr (by simp)) fun _ hc => absurd hc List.not_mem_nil

theorem TurnEffect.inv (h : TurnEffect s t) (hs : s.Inv) : t.Inv := by
  cases h with
  | idle _ h => exact h ▸ hs
  | illegal _ hd h => exact h ▸ hs.takeFault (hs.descriptorZero fun hc => hd .build (hc ▸ Laws.RoundTrip.build)) _
  | command i _ hd h => exact h.inv hd hs

/-- Settles O16: the cases of a step, each an operation that keeps the invariant. -/
theorem stepKeepsInvariant : Obligations.StepKeepsInvariant := by
  intro s t hs hstep
  cases step_effect hstep with
  | access a rest _ h => exact h.inv (hs.hostFields ..)
  | reset rest _ h => exact h ▸ (hs.hostFields ..).resetBlock
  | turn _ h => exact h.inv (hs.hostFields ..)

end Sys2Proof.Machine
end

section
/-! PROOFS. What a step does to RESULT and to the interrupt output (10_state.md R29, R39). -/

namespace Sys2Proof.Machine

variable {s t : State}

/-! ### RESULT -/

theorem AccessEffect.result_eq {a : BusAccess} (h : AccessEffect a s t) : t.result = s.result := by
  cases h with
  | answer _ _ h | protocol _ _ h | pdataRead _ _ _ h | pdataWrite _ _ _ _ h | ctrl _ _ h | status _ _ h
  | accepted _ _ _ h | arg _ _ _ h | paddr _ _ h => exact h ▸ rfl

/-- A completion that changes RESULT is the success of a command that produces one. -/
theorem ExecEffect.of_result_ne {i : Instr} (h : ExecEffect i s t) (hne : t.result ≠ s.result) :
    i ∈ resultProducers ∧ t.err = s.err := by
  cases h with
  | fault f _ h => exact absurd (h ▸ rfl) hne
  | buildFault f _ _ h => exact absurd (h ▸ rfl) hne
  | field tables _ _ h => exact absurd (h ▸ rfl) hne
  | effect e _ _ he h =>
    subst h
    refine ⟨(ruleOf_effect he).2 fun hnone => hne ?_, rfl⟩
    rw [succeed_result, hnone, Option.getD_none]

/-- Settles O22: of all a step can do, only a reset and a success that produces a RESULT change it. -/
theorem resultChangesOnlyAtSuccess : Obligations.ResultChangesOnlyAtSuccess := by
  intro s t hs hstep hne
  cases step_effect hstep with
  | access a rest _ h => exact absurd h.result_eq hne
  | reset rest hev _ => exact .inl ⟨rest, hev⟩
  | turn hev h =>
    cases h with
    | idle _ h => exact absurd (h ▸ rfl) hne
    | illegal _ _ h => exact absurd (h ▸ rfl) hne
    | command i hb hd h =>
      obtain ⟨hi, herr⟩ := h.of_result_ne hne
      exact .inr ⟨hb, hev, herr.trans (hs.running hb).2, i, hi, hd⟩

/-! ### The interrupt output -/

/-- Every completion, a fault's too, sets DONE and leaves IE. -/
theorem ExecEffect.ie_done {i : Instr} (h : ExecEffect i s t) : t.ie = s.ie ∧ t.done = true := by
  cases h with
  | fault _ _ h | effect _ _ _ _ h | buildFault _ _ _ h | field _ _ _ h => exact h ▸ ⟨rfl, rfl⟩

theorem irq_of_done_eq_false (h : s.done = false) : s.irq = false := by
  rw [State.irq, h, Bool.and_false]

/-- A write of CMD to an idle block is the acceptance of the word. -/
theorem writeCmd_of_idle (c : Word) (h : s.busy = false) : writeCmd c s = accept c s := by simp [writeCmd, h]

/-- A step on an aligned write, with its event at the head of the schedule. -/
theorem step_write_of_events {o : BitVec 12} {v : Word} {rest : List Event}
    (hs : s.events = .access (BusAccess.write o v) :: rest) (ho : o.toNat % 4 = 0) (hstep : step s = .next t) :
    t = { writeReg (Reg.ofOffset o) v { s with events := rest } with resp := .ack } := by
  rw [step_of_events hs] at hstep
  exact (Host.Outcome.next.inj hstep).symm.trans (hostAccess_write v _ ho)

/-- Settles O15: IE and DONE after each of the events that R39 names. -/
theorem interruptFollowsEnableAndDone : Obligations.InterruptFollowsEnableAndDone := by
  refine ⟨fun s => rfl, fun s t i h => ?_, fun s t e v rest hs hstep => ⟨?_, ?_, ?_, ?_⟩⟩
  · obtain ⟨hie, hdone⟩ := (exec_effect_of_next h).ie_done
    exact ⟨by rw [State.irq, hie, hdone, Bool.and_true], hdone⟩
  · rintro rfl
    obtain rfl := step_write_of_events hs rfl hstep
    exact ⟨rfl, rfl⟩
  · rintro rfl hv
    obtain rfl := step_write_of_events hs rfl hstep
    have hdone : (s.done && !v.getLsbD 2) = false := by rw [hv, Bool.not_true, Bool.and_false]
    exact ⟨irq_of_done_eq_false hdone, hdone⟩
  · rintro rfl hb
    obtain rfl := step_write_of_events hs rfl hstep
    have haccept : writeCmd v { s with events := rest } = accept v { s with events := rest } := writeCmd_of_idle v hb
    exact irq_of_done_eq_false (congrArg State.done haccept)
  · rintro rfl
    rw [step_of_events hs] at hstep
    obtain rfl := Host.Outcome.next.inj hstep
    rfl

end Sys2Proof.Machine
end

section
/-! PROOFS. The register window as the host sees it (10_state.md R22–R35). -/

namespace Sys2Proof.Machine

/-! ### The values of the assembled registers -/

/-- CTRL's bits (10_state.md R24). -/
theorem ctrlWord_bits (s : State) :
    s.ctrlWord.getLsbD 0 = s.ie ∧ ∀ k, 1 ≤ k → s.ctrlWord.getLsbD k = false := by
  rw [State.ctrlWord]
  refine ⟨by cases s.ie <;> decide, fun k hk => ?_⟩
  have hlt : bitAt s.ie 0 < 2 ^ k := by
    have : 2 ^ 1 ≤ 2 ^ k := Nat.pow_le_pow_right (by omega) hk
    have : bitAt s.ie 0 ≤ 1 := by cases s.ie <;> decide
    omega
  rw [BitVec.getLsbD_ofNat, Nat.testBit_lt_two_pow hlt, Bool.and_false]

/-- The five assigned bits of STATUS, and that their sum has no other. -/
theorem statusBits (busy ready done err herr : Bool) :
    let n := bitAt busy 0 + bitAt ready 1 + bitAt done 2 + bitAt err 3 + bitAt herr 4
    n.testBit 0 = busy ∧ n.testBit 1 = ready ∧ n.testBit 2 = done ∧ n.testBit 3 = err ∧ n.testBit 4 = herr
      ∧ n < 2 ^ 5 := by
  revert busy ready done err herr
  decide

/-- STATUS's bits (10_state.md R25). -/
theorem statusWord_bits (s : State) :
    s.statusWord.getLsbD 0 = s.busy ∧ s.statusWord.getLsbD 1 = s.ready ∧ s.statusWord.getLsbD 2 = s.done
      ∧ s.statusWord.getLsbD 3 = s.err ∧ s.statusWord.getLsbD 4 = s.herr
      ∧ ∀ k, 5 ≤ k → s.statusWord.getLsbD k = false := by
  obtain ⟨hbusy, hready, hdone, herr, hherr, hlt⟩ := statusBits s.busy s.ready s.done s.err s.herr
  simp only [State.statusWord, BitVec.getLsbD_ofNat]
  refine ⟨by simpa using hbusy, by simpa using hready, by simpa using hdone, by simpa using herr,
    by simpa using hherr, fun k hk => ?_⟩
  rw [Nat.testBit_lt_two_pow (hlt.trans_le (Nat.pow_le_pow_right (by omega) hk)), Bool.and_false]

/-- ERRCODE reads with its reserved bits 31:8 at 0 (10_state.md R27). -/
theorem regValue_errcode (s : State) : s.regValue .errcode = 0#24 ++ s.errcode :=
  BitVec.setWidth_eq_append (by omega)

/-! ### The offsets of the ARG registers -/

theorem ofOffset_argOffset (k : Fin 6) :
    (BitVec.ofNat 12 (0x020 + 4 * k)).toNat % 4 = 0 ∧ Reg.ofOffset (BitVec.ofNat 12 (0x020 + 4 * k)) = .arg k := by
  revert k
  decide

/-! ### Reads and writes -/

/-- Settles O7: each offset's register, and its value. -/
theorem registerReadsReturnValues : Obligations.RegisterReadsReturnValues := by
  intro s rest reads
  have hreads : ∀ {o : BitVec 12} {r : Reg}, Reg.ofOffset o = r → o.toNat % 4 = 0 → r ≠ .pdata →
      reads o (s.regValue r) := by
    rintro o _ rfl ho hr
    exact step_read_of_ne s rest ho hr
  refine ⟨⟨hreads (r := .id) rfl rfl (by decide), hreads (r := .param) rfl rfl (by decide),
      hreads (r := .cmd) rfl rfl (by decide), ?_, hreads (r := .errinfo) rfl rfl (by decide),
      hreads (r := .result) rfl rfl (by decide), hreads (r := .paddr) rfl rfl (by decide),
      hreads (r := .fw) rfl rfl (by decide), hreads (r := .fpoly) rfl rfl (by decide),
      hreads (r := .fsym) rfl rfl (by decide), hreads (r := .fmax) rfl rfl (by decide)⟩, fun k => ?_,
    ⟨s.ctrlWord, hreads (r := .ctrl) rfl rfl (by decide), ctrlWord_bits s⟩,
    ⟨s.statusWord, hreads (r := .status) rfl rfl (by decide), statusWord_bits s⟩⟩
  · rw [← regValue_errcode]
    exact hreads rfl rfl (by decide)
  · obtain ⟨ho, hk⟩ := ofOffset_argOffset k
    exact hreads hk ho (by simp)

/-- Settles O8: what `writeReg` makes of the register at each offset. -/
theorem registerWritesChangeOnlyTheirs : Obligations.RegisterWritesChangeOnlyTheirs := by
  intro s v rest writes
  have hwrites : ∀ (o : BitVec 12) (t : State), o.toNat % 4 = 0 →
      writeReg (Reg.ofOffset o) v { s with events := rest } = { t with events := rest } → writes o t := by
    intro o t ho ht
    exact (step_write v s rest ho).trans (by rw [ht])
  refine ⟨⟨hwrites _ _ rfl rfl, hwrites _ _ rfl rfl, hwrites _ _ rfl rfl, hwrites _ _ rfl rfl, hwrites _ _ rfl rfl,
    hwrites _ _ rfl rfl, hwrites _ _ rfl rfl, hwrites _ _ rfl rfl, hwrites _ _ rfl rfl⟩, hwrites _ _ rfl rfl,
    hwrites _ _ rfl ?_, fun k => ?_, hwrites _ _ rfl rfl⟩
  · have hclear : ∀ b w : Bool, (b && !w) = if w = true then false else b := by decide
    rw [← hclear, ← hclear]
    rfl
  · obtain ⟨ho, hk⟩ := ofOffset_argOffset k
    exact hwrites _ _ ho (by rw [hk]; rfl)

/-- Settles O9: every offset from 0x050 on is reserved. -/
theorem reservedOffsetsReadZero : Obligations.ReservedOffsetsReadZero := by
  intro s o v rest hlow ho
  have hr := ofOffset_reserved hlow
  refine ⟨?_, ?_⟩
  · rw [step_read_of_ne s rest ho (by simp [hr]), hr]
    rfl
  · rw [step_write v s rest ho, hr]
    rfl

/-! ### PDATA -/

theorem readPdata_of_blocked {s : State} (h : s.pdataBlocked = true) :
    readPdata s = { s with herr := true, resp := .data 0 } := if_pos h

theorem readPdata_of_not_blocked {s : State} (h : ¬s.pdataBlocked = true) :
    readPdata s
      = { s with resp := .data (s.word .host s.paddr.toNat), paddr := s.paddr + 1, tick := s.tick + 1 } := if_neg h

theorem writePdata_of_blocked {s : State} (v : Word) (h : s.pdataBlocked = true) :
    writePdata v s = { s with herr := true } := if_pos h

theorem writePdata_of_not_blocked {s : State} (v : Word) (h : ¬s.pdataBlocked = true) :
    writePdata v s = { s with pmem := s.pmem.write s.paddr.toNat v, paddr := s.paddr + 1 } := if_neg h

/-- Settles O10: the two cases of a PDATA access, by whether it is blocked. -/
theorem pdataAccess : Obligations.PdataAccess := by
  intro s v rest blocked
  have hb : State.pdataBlocked { s with events := rest } = true ↔ blocked := pdataBlocked_iff
  have hread : step { s with events := .access (BusAccess.read 0x03C) :: rest }
      = .next (readPdata { s with events := rest }) := step_read s rest rfl
  have hwrite : step { s with events := .access (BusAccess.write 0x03C v) :: rest }
      = .next { writePdata v { s with events := rest } with resp := .ack } := step_write v s rest rfl
  refine ⟨fun h => ⟨?_, ?_⟩, fun h => ⟨?_, _, hwrite, ?_⟩, fun _ _ _ => word_of_read⟩
  · rw [hread, readPdata_of_blocked (hb.2 h)]
  · rw [hwrite, writePdata_of_blocked v (hb.2 h)]
  · rw [hread, readPdata_of_not_blocked (hb.not.2 h)]
    rfl
  · rw [writePdata_of_not_blocked v (hb.not.2 h)]
    refine ⟨?_, fun a ha => ?_, rfl⟩
    · exact (Memory.read_write ..).trans (if_pos rfl)
    · exact (Memory.read_write ..).trans (if_neg ha.symm)

end Sys2Proof.Machine
end

section
/-! PROOFS. The accesses the window performs and the bytes they carry (20_memory.md R82, R83). -/

namespace Sys2Proof.Machine

/-! ### Byte lanes -/

theorem getLsbD_byteLane (w : Word) (k : Nat) {j : Nat} (hj : j < 8) :
    (byteLane w k).getLsbD j = w.getLsbD (8 * k + j) := by
  rw [byteLane, BitVec.getLsbD_extractLsb', decide_eq_true hj, Bool.true_and]

/-- Neighbouring lanes join to the slice of the word they span, from the top lane down. -/
theorem wordOfLanes_byteLane (w : Word) :
    wordOfLanes (byteLane w 0) (byteLane w 1) (byteLane w 2) (byteLane w 3) = w := by
  have upper16 : byteLane w 3 ++ byteLane w 2 = w.extractLsb' 16 16 :=
    BitVec.extractLsb'_append_extractLsb'_eq_extractLsb' rfl
  have upper24 : w.extractLsb' 16 16 ++ byteLane w 1 = w.extractLsb' 8 24 :=
    BitVec.extractLsb'_append_extractLsb'_eq_extractLsb' rfl
  have all32 : w.extractLsb' 8 24 ++ byteLane w 0 = w.extractLsb' 0 32 :=
    BitVec.extractLsb'_append_extractLsb'_eq_extractLsb' rfl
  rw [wordOfLanes, upper16, upper24, all32, BitVec.extractLsb'_eq_self]

/-- Settles O4: each lane is a slice of the word, and the four slices join to it. -/
theorem byteLanesLittleEndian : Obligations.ByteLanesLittleEndian := by
  intro w
  exact ⟨fun k _ _ hj => getLsbD_byteLane w k hj, wordOfLanes_byteLane w⟩

/-! ### Refused accesses -/

/-- A step on an access the window does not perform only answers with a bus error. -/
theorem step_bad {a : BusAccess} (s : State) (rest : List Event) (h : ¬a.wf = true) :
    step { s with events := .access a :: rest } = .next { s with events := rest, resp := .error } :=
  congrArg Host.Outcome.next (hostAccess_bad _ h)

/-- Settles O12: an access of another width or at a misaligned offset is not well formed. -/
theorem badAccessRefused : Obligations.BadAccessRefused := by
  intro s a rest hbad
  have hwf : ¬a.wf = true := wf_iff.not.2 (not_and_or.2 hbad)
  exact step_bad s rest hwf

end Sys2Proof.Machine
end

section
/-! PROOFS. The decoder and the encoder (30_encoding.md R112, R113, R116): which words name a command, and which one. -/

namespace Sys2Proof

/-! ### Opcodes -/

/-- The opcode map read in either direction is the same table (30_encoding.md R113). -/
theorem decodeOp_eq_some_iff {op : Nat} {i : Instr} : decodeOp op = some i ↔ op = i.opcode.toNat := by
  constructor
  · intro h
    unfold decodeOp at h
    split at h <;> cases h <;> rfl
  · rintro rfl
    cases i <;> rfl

/-- The opcodes of the map are those outside the ranges of 30_encoding.md R116. -/
theorem exists_decodeOp_iff {op : Nat} : (∃ i, decodeOp op = some i) ↔ opAssigned op = true := by
  constructor
  · rintro ⟨i, h⟩
    rw [decodeOp_eq_some_iff.1 h]
    cases i <;> rfl
  · intro h
    have hlt : op < 0x42 := by
      simp only [opAssigned, Bool.or_eq_true, Bool.and_eq_true, decide_eq_true_eq] at h
      omega
    have hrow : ∀ op < 0x42, opAssigned op = true → (decodeOp op).isSome = true := by decide
    exact Option.isSome_iff_exists.1 (hrow op hlt h)

/-! ### Words -/

theorem decode_eq_ok_iff {c : Word} {i : Instr} :
    decode c = .ok i ↔ rsvdField c = 0 ∧ decodeOp (opField c) = some i := by
  rw [decode]
  by_cases hr : rsvdField c = 0
  · cases decodeOp (opField c) <;> simp [hr]
  · simp [hr]

theorem toNat_encode (i : Instr) : (encode i).toNat = i.opcode.toNat :=
  (BitVec.toNat_append 0#24 i.opcode).trans (by simp)

/-- A word is a command's encoding when its two fields are RSVD = 0 and the command's opcode (30_encoding.md R112). -/
theorem eq_encode_iff {c : Word} {i : Instr} :
    c = encode i ↔ rsvdField c = 0 ∧ opField c = i.opcode.toNat := by
  have hop : i.opcode.toNat < 256 := i.opcode.isLt
  rw [BitVec.toNat_eq, toNat_encode, rsvdField, opField]
  omega

/-- Settles O1: both sides say that RSVD is 0 and that OP is the command's opcode. -/
theorem decodeIffEncode : Obligations.DecodeIffEncode := by
  intro c i
  rw [decode_eq_ok_iff, eq_encode_iff, decodeOp_eq_some_iff]

theorem decode_encode (i : Instr) : decode (encode i) = .ok i := (decodeIffEncode _ _).2 rfl

/-- Settles O2: the first six words are encodings; the last two fail the check of RSVD and of OP. -/
theorem decodeSamples : Obligations.DecodeSamples :=
  ⟨Laws.RoundTrip.build, Laws.RoundTrip.tolog, Laws.RoundTrip.lpow, Laws.RoundTrip.lsubst, Laws.RoundTrip.mkenc,
    Laws.RoundTrip.forney, by decide, by decide⟩

/-- The words that name a command are the well-formed ones (30_encoding.md R112, R116). -/
theorem exists_decode_iff {c : Word} : (∃ i, decode c = .ok i) ↔ commandWordWf c = true := by
  simp only [decode_eq_ok_iff, exists_and_left, exists_decodeOp_iff, commandWordWf, reservedClear, Bool.and_eq_true,
    beq_iff_eq, rsvdField, opField]

/-- The ranges of 30_encoding.md R116 are what a well-formed word avoids. -/
theorem not_commandWordWf_iff {c : Word} :
    ¬commandWordWf c = true ↔
      c.toNat / 256 ≠ 0 ∨ c.toNat % 256 = 0x00 ∨ (0x09 ≤ c.toNat % 256 ∧ c.toNat % 256 ≤ 0x0F)
        ∨ (0x14 ≤ c.toNat % 256 ∧ c.toNat % 256 ≤ 0x1F) ∨ (0x28 ≤ c.toNat % 256 ∧ c.toNat % 256 ≤ 0x2F)
        ∨ (0x34 ≤ c.toNat % 256 ∧ c.toNat % 256 ≤ 0x3F) ∨ 0x42 ≤ c.toNat % 256 := by
  simp only [commandWordWf, reservedClear, opAssigned, Bool.and_eq_true, Bool.or_eq_true, decide_eq_true_eq, beq_iff_eq]
  omega

end Sys2Proof
end

section
/-! PROOFS. The life of a command: acceptance, the engine's turn, completion (30_encoding.md R110, R111, R116). -/

namespace Sys2Proof.Machine

variable {s : State}

/-! ### The engine's turn -/

theorem engineTurn_idle (h : s.busy = false) : engineTurn s = .next s := by
  rw [engineTurn, h, if_neg (by decide)]

theorem engineTurn_of_decode {i : Instr} (hb : s.busy = true) (hd : decode s.cmdl = .ok i) :
    engineTurn s = exec i s := by
  rw [engineTurn, if_pos hb, engineStep, hd]

/-- A word that names no command gives the fault record of ILLEGAL_CMD(0) and nothing else (30_encoding.md R116). -/
theorem engineTurn_illegal (hb : s.busy = true) (hd : ¬∃ i, decode s.cmdl = .ok i) :
    engineTurn s = .next (afterFault 1 0 s) := by
  rw [engineTurn, if_pos hb]
  rcases engineStep_cases s with ⟨i, hi, -⟩ | ⟨-, h⟩
  · exact absurd ⟨i, hi⟩ hd
  · exact h

/-- When the schedule is over, a step is the engine's turn. -/
theorem step_of_events_nil (h : s.events = []) : step s = engineTurn s := by
  simp only [step, advance, h]

/-- The engine's event at the head of the schedule gives the engine its turn. -/
theorem step_engine (s : State) (rest : List Event) :
    step { s with events := .engine :: rest } = engineTurn { s with events := rest } := rfl

/-- Settles O3: the listed words are those that do not decode. -/
theorem reservedWordsFaultIllegal : Obligations.ReservedWordsFaultIllegal := by
  intro s rest hb op reserved
  have hdecode : (∃ i, decode s.cmdl = .ok i) ↔ ¬reserved :=
    exists_decode_iff.trans (not_iff_comm.1 not_commandWordWf_iff).symm
  refine ⟨fun hr => ⟨?_, ?_⟩, hdecode.2⟩
  · exact (step_engine s rest).trans (engineTurn_illegal hb fun hd => hdecode.1 hd hr)
  · exact (step_of_events_nil rfl).trans (engineTurn_illegal hb fun hd => hdecode.1 hd hr)

/-- Settles O5: a step is the engine's turn, with or without its event at the head of the schedule. -/
theorem stepRunsDecodedCommand : Obligations.StepRunsDecodedCommand := by
  refine fun s rest => ⟨fun i hd hb => ⟨fun hs => ?_, fun hs => ?_⟩, fun hb => ⟨fun hs => ?_, fun hs => ?_⟩⟩
  · exact (step_of_events_nil hs).trans (engineTurn_of_decode hb hd)
  · exact (step_of_events hs).trans (engineTurn_of_decode hb hd)
  · exact (step_of_events_nil hs).trans (engineTurn_idle hb)
  · exact (step_of_events hs).trans (engineTurn_idle hb)

/-! ### Acceptance and completion -/

/-- A step on a write of CMD to an idle block accepts the word. -/
theorem step_accept (s : State) (c : Word) (rest : List Event) (h : s.busy = false) :
    step { s with events := wrEvent .cmd c :: rest } = .next { accept c s with events := rest, resp := .ack } := by
  have hwrite : step { s with events := wrEvent .cmd c :: rest }
      = .next { writeCmd c { s with events := rest } with resp := .ack } := step_write c s rest rfl
  rw [hwrite, writeCmd_of_idle (s := { s with events := rest }) c h]
  rfl

/-- Settles O6: such a write is the acceptance of the word. -/
theorem acceptanceLatchesCommand : Obligations.AcceptanceLatchesCommand := by
  intro s c rest hb
  have hready : (s.ready && !(c == 0x00000001)) = if c = 0x00000001 then false else s.ready := by
    by_cases hc : c = 1#32 <;> simp [hc]
  rw [← hready]
  exact step_accept s c rest hb

/-- Settles O21: the four outcomes of a command; a fault's cause has a nonzero code. -/
theorem completionSetsDone : Obligations.CompletionSetsDone := by
  intro s t i h
  cases exec_effect_of_next h with
  | fault f _ h | buildFault f _ _ h => exact h ▸ ⟨rfl, rfl, rfl, rfl, rfl, rfl, .inl ⟨rfl, f.cause.code_range.1⟩⟩
  | effect _ _ _ _ h | field _ _ _ h => exact h ▸ ⟨rfl, rfl, rfl, rfl, rfl, rfl, .inr ⟨rfl, rfl, rfl⟩⟩

end Sys2Proof.Machine
end

section
/-! PROOFS. A host program's command line runs its command (30_encoding.md R118). -/

namespace Sys2Proof

/-! ### Runs -/

variable {M : Host.Core} {s t u : M.State}

theorem run_of_step (n : Nat) (h : M.step s = .next t) : M.run (n + 1) s = M.run n t := by
  rw [Host.Core.run, h]

/-- A run goes on from where its first part ended. -/
theorem run_add {m : Nat} (n : Nat) (h : M.run m s = .next t) : M.run (m + n) s = M.run n t := by
  induction m generalizing s with
  | zero =>
    obtain rfl : s = t := Host.Outcome.next.inj h
    rw [Nat.zero_add]
  | succ m ih =>
    rw [Nat.succ_add]
    cases hs : M.step s with
    | next u =>
      rw [run_of_step _ hs] at h ⊢
      exact ih h
    | fault _ | refused _ =>
      rw [Host.Core.run, hs] at h
      cases h

/-- A run of `n` steps and one step after it. -/
theorem run_snoc {n : Nat} (h : M.run n s = .next t) (hstep : M.step t = .next u) : M.run (n + 1) s = .next u :=
  (run_add 1 h).trans (run_of_step 0 hstep)

end Sys2Proof

namespace Sys2Proof.Machine

/-! ### The accesses of a command line -/

theorem step_writeArg (s : State) (k : Fin 6) (v : Word) (rest : List Event) :
    step { s with events := wrEvent (.arg k) v :: rest }
      = .next { s with args := s.args.set k v, events := rest, resp := .ack } := by
  obtain ⟨-, -, -, hargs, -⟩ := registerWritesChangeOnlyTheirs s v rest
  exact hargs k

theorem step_readStatus {s : State} {rest : List Event} (h : s.events = rdEvent .status :: rest) :
    step s = .next { s with events := rest, resp := .data s.statusWord } :=
  (step_of_events h).trans (step_read_of_ne s rest rfl (by decide))

/-- Writing a command line's operands changes only the ARG registers and the bus's answer. -/
theorem run_writeArgs (s : State) (ops : List (Fin 6 × Word)) (rest : List Event) :
    ∃ r, core.run ops.length { s with events := ops.map (fun o => wrEvent (.arg o.1) o.2) ++ rest }
      = .next { s with args := setArgs ops s.args, events := rest, resp := r } := by
  induction ops generalizing s with
  | nil => exact ⟨s.resp, rfl⟩
  | cons o ops ih =>
    obtain ⟨r, hr⟩ := ih { s with args := s.args.set o.1 o.2, resp := .ack }
    exact ⟨r, (run_of_step _ (step_writeArg s o.1 o.2 _)).trans hr⟩

/-- Polls of STATUS change only the bus's answer (20_memory.md R96). -/
theorem run_polls (s : State) (polls : Nat) (rest : List Event) :
    ∃ r, core.run polls { s with events := List.replicate polls (rdEvent .status) ++ rest }
      = .next { s with events := rest, resp := r } := by
  induction polls generalizing s with
  | zero => exact ⟨s.resp, rfl⟩
  | succ polls ih =>
    obtain ⟨r, hr⟩ := ih { s with resp := .data s.statusWord }
    have hpoll := step_readStatus
      (s := { s with events := rdEvent .status :: (List.replicate polls (rdEvent .status) ++ rest) }) rfl
    exact ⟨r, (run_of_step _ hpoll).trans hr⟩

theorem expand_command_append (i : Instr) (ops : List (Fin 6 × Word)) (polls : Nat) (rest : List Event) :
    (HostOp.command i ops).expand polls ++ rest
      = ops.map (fun o => wrEvent (.arg o.1) o.2) ++ wrEvent .cmd (encode i)
        :: (List.replicate polls (rdEvent .status) ++ .engine :: rdEvent .status :: rest) := by
  simp [HostOp.expand, waitEvents]

/-- A command line up to the engine's turn: the command is accepted with the operands named, and is still to run. -/
theorem run_to_engineTurn {s : State} {i : Instr} {ops : List (Fin 6 × Word)} {polls : Nat} {rest : List Event}
    (hb : s.busy = false) (hs : s.events = (HostOp.command i ops).expand polls ++ rest) :
    ∃ r, core.run (ops.length + 1 + polls) s
      = .next { accept (encode i) { s with args := setArgs ops s.args } with
          events := .engine :: rdEvent .status :: rest, resp := r } := by
  rw [expand_command_append] at hs
  obtain ⟨r₀, hargs⟩ := run_writeArgs s ops
    (wrEvent .cmd (encode i) :: (List.replicate polls (rdEvent .status) ++ .engine :: rdEvent .status :: rest))
  rw [← hs] at hargs
  have haccept := run_snoc hargs (step_accept { s with args := setArgs ops s.args, resp := r₀ } (encode i) _ hb)
  obtain ⟨r, hpolls⟩ := run_polls { accept (encode i) { s with args := setArgs ops s.args } with resp := .ack } polls
    (.engine :: rdEvent .status :: rest)
  exact ⟨r, (run_add polls haccept).trans hpolls⟩

/-- The engine's turn for an accepted command is the command's meaning. -/
theorem step_engine_accept (s : State) (i : Instr) (rest : List Event) (r : BusResp) :
    step { accept (encode i) s with events := .engine :: rest, resp := r }
      = exec i { accept (encode i) s with events := rest, resp := r } :=
  engineTurn_of_decode (s := { accept (encode i) s with events := rest, resp := r }) rfl (decode_encode i)

/-- Settles O25: the line runs to the engine's turn, which completes its command; the last poll reads STATUS then. -/
theorem commandLineRunsCommand : Obligations.CommandLineRunsCommand := by
  intro s i ops polls rest hb hs
  obtain ⟨r, hrun⟩ := run_to_engineTurn hb hs
  obtain ⟨t, hexec, -⟩ := exec_effect i { accept (encode i) { s with args := setArgs ops s.args } with
    events := rdEvent .status :: rest, resp := r }
  obtain ⟨hbusy, -, -, -, hevents, -⟩ := completionSetsDone _ _ _ hexec
  have hturn := (step_engine_accept { s with args := setArgs ops s.args } i (rdEvent .status :: rest) r).trans hexec
  exact ⟨r, t, hexec, hbusy, run_snoc (run_snoc hrun hturn) (step_readStatus hevents)⟩

end Sys2Proof.Machine
end

section
/-! SUPPORT. How a rule goes on after a check of a condition that is decided, and a RESULT that is 0 in one case. -/

namespace Sys2Proof.Machine

section

variable {α : Type} {c : Cause} {i : Word} {k : Unit → Except Raise α}

theorem require_decide_ok {p : Prop} [Decidable p] (h : p) : (require (decide p) c i >>= k) = k () :=
  require_ok (decide_eq_true h)

theorem require_decide_error {p : Prop} [Decidable p] (h : ¬p) : (require (decide p) c i >>= k) = .error ⟨c, i⟩ :=
  require_error (mt of_decide_eq_true h)

theorem require_ne_zero_ok {n : Nat} (h : n ≠ 0) : (require (n != 0) c i >>= k) = k () :=
  require_ok (bne_iff_ne.2 h)

theorem require_ne_zero_error {n : Nat} (h : n = 0) : (require (n != 0) c i >>= k) = .error ⟨c, i⟩ :=
  require_error fun hne => bne_iff_ne.1 hne h

end

theorem ofNat_ite_zero (p : Prop) [Decidable p] (n : Nat) :
    BitVec.ofNat 32 (if p then 0 else n) = if p then 0 else BitVec.ofNat 32 n := apply_ite ..

end Sys2Proof.Machine
end

section
/-! PROOFS. BUILD, its walk, and the laws of the field it builds (41_field_engine.md R141, R142, R150, R151). -/

namespace Sys2Proof.Machine

/-! ### The walk and POLY -/

/-- A step of the walk uses only the low `w` bits of POLY (41_field_engine.md R142). -/
theorem walkStep_congr {poly poly' w : Nat} (h : poly % 2 ^ w = poly' % 2 ^ w) :
    walkStep poly w = walkStep poly' w := by
  funext d
  simp only [walkStep, Nat.and_two_pow_sub_one_eq_mod, Nat.xor_mod_two_pow, h]

/-- BUILD's loop uses POLY only through the steps of its walk. -/
theorem buildLoop_congr {poly poly' w : Nat} (h : walkStep poly w = walkStep poly' w) (m n i d : Nat)
    (exp log : Table) : buildLoop poly w m n i d exp log = buildLoop poly' w m n i d exp log := by
  induction n generalizing i d exp log with
  | zero => rfl
  | succ n ih => rw [buildLoop, buildLoop, h, ih]

/-- Settles O27: the tables depend on POLY through the walk, and the walk on POLY's low bits. -/
theorem polyHighBitsIgnored : Obligations.PolyHighBitsIgnored := by
  intro poly poly' w h
  exact buildLoop_congr (walkStep_congr h) ..

/-- BUILD makes tables exactly when the walk from 1 first returns to 1 after `2^w - 1` steps. -/
theorem buildTables_isSome {poly w : Nat} :
    (buildTables poly w).isSome = true
      ↔ (∀ i, 0 < i → i < 2 ^ w - 1 → (walkStep poly w)^[i] 1 ≠ 1) ∧ (walkStep poly w)^[2 ^ w - 1] 1 = 1 :=
  buildLoop_isSome _ 0 1 .blank .blank (Nat.zero_add _)

/-! ### BUILD -/

section

variable {s : State}

/-- A BUILD that raises drops the field and records the fault (41_field_engine.md R141). -/
theorem exec_build_error {c : Cause} {i : Word} (h : ruleBuild s = .error ⟨c, i⟩) :
    exec .build s = .next (afterBuildFault c.code i s) := by
  rw [exec, execBuild, h]
  rfl

/-- A BUILD that raises nothing sets the new field. -/
theorem exec_build_ok {tables : Table × Table} (h : ruleBuild s = .ok tables) :
    exec .build s = .next (succeed ⟨[], none⟩ (setField tables s)) := by
  rw [exec, execBuild, h]

/-- BUILD's rule past its two CONFIG checks is the making of the tables. -/
theorem ruleBuild_of_config (hw : s.opU 2 = 8 ∨ s.opU 2 = 16) (hsym : s.opU 3 < 2 ^ s.opU 2 - 1) :
    ruleBuild s = (buildTables (s.opU 1) (s.opU 2)).elim (.error ⟨.nonprimitive, 0⟩) .ok := by
  refine (require_ok (by simpa using hw)).trans ((require_decide_ok hsym).trans ?_)
  cases buildTables (s.opU 1) (s.opU 2) <;> rfl

/-- The tables of a new field are its walk, twice, and the logarithms of the walk. -/
theorem tables_setField {tables : Table × Table} (h : ruleBuild s = .ok tables) {i : Nat}
    (hi : i < 2 ^ s.opU 2 - 1) :
    let walk := fun i => (walkStep (s.opU 1) (s.opU 2))^[i] 1
    (setField tables s).expAt i = walk i ∧ (setField tables s).expAt (2 ^ s.opU 2 - 1 + i) = walk i
      ∧ (setField tables s).logAt (walk i) = i := by
  have hinv := fieldInv_setField h
  have hfield : (setField tables s).Field (walkStep (s.opU 1) (s.opU 2)) := hinv.field rfl
  obtain ⟨-, hmax, -⟩ := hinv rfl
  have hmax : (setField tables s).fieldMax = 2 ^ s.opU 2 - 1 := hmax
  rw [← hmax] at hi ⊢
  refine ⟨hfield.exp_eq i (by omega), ?_, hfield.log_walk i hi⟩
  rw [hfield.exp_eq _ (by omega), Nat.add_comm, hfield.walk_add_max]

end

/-- Settles O26: BUILD's checks in their order; past them the walk decides, and a full walk is the new tables. -/
theorem buildOutcome : Obligations.BuildOutcome := by
  intro s poly w m walk primitive
  refine ⟨fun h8 h16 => ?_, fun hw hsym => ?_, fun hw hsym hp => ?_, fun hw hsym hp => ?_⟩
  · have hwidth : ¬(s.opU 2 == 8 || s.opU 2 == 16) = true := by simpa using ⟨h8, h16⟩
    exact exec_build_error (require_error hwidth)
  · exact exec_build_error ((require_ok (by simpa using hw)).trans (require_decide_error hsym.not_gt))
  · have hnone : buildTables (s.opU 1) (s.opU 2) = none :=
      Option.not_isSome_iff_eq_none.1 (mt buildTables_isSome.1 hp)
    have hraise : ruleBuild s = .error ⟨.nonprimitive, 0⟩ := by
      rw [ruleBuild_of_config hw hsym, hnone, Option.elim_none]
    exact exec_build_error hraise
  · obtain ⟨tables, hsome⟩ : ∃ tables, buildTables (s.opU 1) (s.opU 2) = some tables :=
      Option.isSome_iff_exists.1 (buildTables_isSome.2 hp)
    have hok : ruleBuild s = .ok tables := by rw [ruleBuild_of_config hw hsym, hsome, Option.elim_some]
    exact ⟨_, exec_build_ok hok, fun i hi => tables_setField hok hi, rfl⟩

/-! ### The laws of the field -/

namespace State.Field

variable {s : State} {f : Nat → Nat} (h : s.Field f)
include h

/-- A nonzero element times α to MAX less its logarithm is 1. -/
theorem mulV_exp_sub_log {a : Nat} (h1 : 1 ≤ a) (ha : a ≤ s.fieldMax) :
    s.mulV a (s.expAt (s.fieldMax - s.logAt a)) = 1 := by
  have hlog := h.log_lt h1 ha
  rw [h.exp_eq _ (by omega), h.mulV_eq_iter h1 ha (h.walk_le _), ← Function.iterate_add_apply,
    Nat.add_sub_cancel' hlog.le, h.returns]

/-- A product with a power of α, divided by that power again, is the element. -/
theorem exp_log_mulV_walk {a e : Nat} (h1 : 1 ≤ a) (ha : a ≤ s.fieldMax) (he : e ≤ s.fieldMax) :
    s.expAt (s.logAt (s.mulV a (f^[e] 1)) + s.fieldMax - e) = a := by
  obtain ⟨i, -, rfl⟩ := h.exists_walk h1 ha
  have hmod : (i + e) % s.fieldMax < s.fieldMax := Nat.mod_lt _ (by omega)
  rw [h.mulV_walk i (h.walk_le e), ← Function.iterate_add_apply, h.log_walk_mod, h.exp_eq _ (by omega)]
  calc f^[(i + e) % s.fieldMax + s.fieldMax - e] 1
      = f^[s.fieldMax - e] (f^[(i + e) % s.fieldMax] 1) := by
        rw [← Function.iterate_add_apply]; congr 1; omega
    _ = f^[s.fieldMax - e] (f^[i + e] 1) := by rw [h.walk_mod]
    _ = f^[i + s.fieldMax] 1 := by rw [← Function.iterate_add_apply]; congr 1; omega
    _ = f^[i] 1 := h.walk_add_max i

/-- DIV undoes MUL. -/
theorem divV_mulV {a b : Nat} (h1 : 1 ≤ a) (ha : a ≤ s.fieldMax) (h2 : 1 ≤ b) (hb : b ≤ s.fieldMax) :
    s.divV (s.mulV a b) b = a := by
  have hundo := h.exp_log_mulV_walk h1 ha (h.log_lt h2 hb).le
  rw [h.walk_log h2 hb] at hundo
  rw [h.divV_eq h2 hb, if_neg (h.mulV_ne_zero h1 ha h2 hb), hundo]

/-- DIVEXP undoes MULEXP. -/
theorem divExp_mulExpV {a e : Nat} (h1 : 1 ≤ a) (ha : a ≤ s.fieldMax) (he : e ≤ s.fieldMax) :
    s.expAt (s.logAt (s.mulExpV a e) + s.fieldMax - e) = a := by
  rw [h.mulExpV_eq ha he, h.exp_log_mulV_walk h1 ha he]

theorem exp_add_max {i : Nat} (hi : i < s.fieldMax) : s.expAt (i + s.fieldMax) = s.expAt i := by
  rw [h.exp_eq _ (by omega), h.exp_eq _ (by omega), h.walk_add_max]

theorem exp_one : s.expAt 1 = 2 := by
  have hm := h.max_ge
  exact (h.exp_eq 1 (by omega)).trans h.step_one

/-- Dividing by α to the power 0 or MAX, which are both 1, leaves a nonzero element (41_field_engine.md R147). -/
theorem exp_log_sub {a e : Nat} (h1 : 1 ≤ a) (ha : a ≤ s.fieldMax) (he : e = 0 ∨ e = s.fieldMax) :
    s.expAt (s.logAt a + s.fieldMax - e) = a := by
  rcases he with rfl | rfl
  · rw [Nat.sub_zero, h.exp_add_max (h.log_lt h1 ha), h.exp_log h1 ha]
  · rw [Nat.add_sub_cancel, h.exp_log h1 ha]

/-- The exponents of a product of powers of α add modulo MAX. -/
theorem mulV_exp_exp {i j : Nat} (hi : i < s.fieldMax) (hj : j < s.fieldMax) :
    s.mulV (s.expAt i) (s.expAt j) = s.expAt ((i + j) % s.fieldMax) := by
  have hmod : (i + j) % s.fieldMax < s.fieldMax := Nat.mod_lt _ (by omega)
  rw [h.mulV_exp (by omega) (h.exp_le (by omega)), h.exp_eq j (by omega), h.exp_eq _ (by omega),
    ← Function.iterate_add_apply, h.walk_mod]

end State.Field

/-- Settles O28: the laws of the tables, of INV and of DIV in the field that BUILD made. -/
theorem fieldTablesAreInverse : Obligations.FieldTablesAreInverse := by
  intro s hr hinv
  have h := hinv.field hr
  refine ⟨fun v h1 hv => ⟨h.exp_log h1 hv, h.log_lt h1 hv⟩, fun i hi => ⟨?_, ?_, h.exp_le (by omega)⟩,
    fun i hi => h.exp_add_max hi, fun a h1 ha => h.mulV_exp_sub_log h1 ha,
    fun a b h1 ha h2 hb => h.divV_mulV h1 ha h2 hb⟩
  · rw [h.log_exp (by omega), Nat.mod_eq_of_lt hi]
  · exact Nat.one_le_iff_ne_zero.2 (h.exp_ne_zero (by omega))

/-- Settles O29: the laws of MUL in the field that BUILD made. -/
theorem fieldMultiplicationLaws : Obligations.FieldMultiplicationLaws := by
  intro s hr hinv a b c ha hb hc
  have h := hinv.field hr
  exact ⟨State.Field.mulV_comm a b, h.mulV_assoc ha hb hc, h.mulV_xor_right ha hb hc, h.mulV_one_left ha,
    h.mulV_le ha hb, h.xor_le hb hc, h.exp_one, fun i j hi hj => h.mulV_exp_exp hi hj⟩

end Sys2Proof.Machine
end

section
/-! PROOFS. The field engine's scalar commands (41_field_engine.md R143–R149): each command's checks in their order,
then its RESULT. -/

namespace Sys2Proof.Machine

variable {s : State}

/-! ### MUL, DIV, INV -/

/-- Settles O30: the two operand checks, then the product. -/
theorem mulOutcome : Obligations.MulOutcome := by
  intro s hr a b
  refine ⟨fun ha hb => ?_, fun ha => ?_, fun ha hb => ?_⟩
  · rw [← ofNat_ite_zero]
    exact runCommand_result hr ((checkV_ok ha).trans (checkV_ok hb))
  · exact runCommand_error (rule := ruleMul) hr (checkV_error ha.not_ge)
  · exact runCommand_error (rule := ruleMul) hr ((checkV_ok ha).trans (checkV_error hb.not_ge))

/-- Settles O31: the two operand checks, the check of the divisor, then the quotient. -/
theorem divOutcome : Obligations.DivOutcome := by
  intro s hr a b
  refine ⟨fun ha hb h0 => ?_, fun ha => ?_, fun ha hb => ?_, fun ha h0 => ?_⟩
  · rw [← ofNat_ite_zero]
    exact runCommand_result hr ((checkV_ok ha).trans ((checkV_ok hb).trans (require_ne_zero_ok h0)))
  · exact runCommand_error (rule := ruleDiv) hr (checkV_error ha.not_ge)
  · exact runCommand_error (rule := ruleDiv) hr ((checkV_ok ha).trans (checkV_error hb.not_ge))
  · have hb : b ≤ s.fieldMax := h0 ▸ Nat.zero_le _
    exact runCommand_error (rule := ruleDiv) hr ((checkV_ok ha).trans ((checkV_ok hb).trans (require_ne_zero_error h0)))

/-- Settles O32: the operand check, the check for 0, then the inverse. -/
theorem invOutcome : Obligations.InvOutcome := by
  intro s hr a
  refine ⟨fun ha h0 => ?_, fun ha => ?_, fun h0 => ?_⟩
  · exact runCommand_result hr ((checkV_ok ha).trans (require_ne_zero_ok h0))
  · exact runCommand_error (rule := ruleInv) hr (checkV_error ha.not_ge)
  · have ha : a ≤ s.fieldMax := h0 ▸ Nat.zero_le _
    exact runCommand_error (rule := ruleInv) hr ((checkV_ok ha).trans (require_ne_zero_error h0))

/-! ### MULEXP, DIVEXP -/

/-- Settles O33: the operand check, the check of the exponent, then the product. -/
theorem mulexpOutcome : Obligations.MulexpOutcome := by
  intro s hr a e
  refine ⟨fun ha he => ?_, fun ha => ?_, fun ha he => ?_⟩
  · rw [← ofNat_ite_zero]
    exact runCommand_result hr ((checkV_ok ha).trans (require_decide_ok he))
  · exact runCommand_error (rule := ruleMulexp) hr (checkV_error ha.not_ge)
  · exact runCommand_error (rule := ruleMulexp) hr ((checkV_ok ha).trans (require_decide_error he.not_ge))

/-- DIVEXP on operands that pass its checks. -/
theorem exec_divexp_ok (hr : s.ready = true) (ha : s.opU 1 ≤ s.fieldMax) (he : s.opU 2 ≤ s.fieldMax) :
    exec .divexp s = .next (afterResult (BitVec.ofNat 32
      (if s.opU 1 = 0 then 0 else s.expAt (s.logAt (s.opU 1) + s.fieldMax - s.opU 2))) s) :=
  runCommand_result hr ((checkV_ok ha).trans (require_decide_ok he))

/-- Settles O34: the operand check, the check of the exponent, then the quotient; in a field, α to MAX is 1. -/
theorem divexpOutcome : Obligations.DivexpOutcome := by
  intro s hr a e
  refine ⟨fun ha he => ?_, fun ha => ?_, fun ha he => ?_, fun hinv ha he => ?_, fun hinv h1 ha he => ?_⟩
  · rw [← ofNat_ite_zero]
    exact exec_divexp_ok hr ha he
  · exact runCommand_error (rule := ruleDivexp) hr (checkV_error ha.not_ge)
  · exact runCommand_error (rule := ruleDivexp) hr ((checkV_ok ha).trans (require_decide_error he.not_ge))
  · have hsame : (if a = 0 then 0 else s.expAt (s.logAt a + s.fieldMax - e)) = a := by
      split
      next h0 => exact h0.symm
      next h0 => exact (hinv.field hr).exp_log_sub (Nat.one_le_iff_ne_zero.2 h0) ha he
    rw [exec_divexp_ok hr ha (by omega), hsame, show BitVec.ofNat 32 a = s.a 1 by simp [a, State.opU]]
  · exact (hinv.field hr).divExp_mulExpV h1 ha he

/-! ### TOEXP, TOLOG -/

/-- Settles O35: the check of the index or of the operand, the check for 0, then the table entry. -/
theorem tableReadOutcome : Obligations.TableReadOutcome := by
  intro s hr
  refine ⟨fun hi => ?_, fun hi => ?_, fun hv h0 => ?_, fun hv => ?_, fun h0 => ?_⟩
  · exact runCommand_result hr (require_decide_ok hi)
  · exact runCommand_error (rule := ruleToexp) hr (require_decide_error hi.not_gt)
  · exact runCommand_result hr ((checkV_ok hv).trans (require_ne_zero_ok h0))
  · exact runCommand_error (rule := ruleTolog) hr (checkV_error hv.not_ge)
  · have hv : s.opU 1 ≤ s.fieldMax := h0 ▸ Nat.zero_le _
    exact runCommand_error (rule := ruleTolog) hr ((checkV_ok hv).trans (require_ne_zero_error h0))

end Sys2Proof.Machine
end

section
/-! SUPPORT. Log-form arithmetic under the conversions (41_field_engine.md R140; 42_log_scalar.md R181, R182, R184): the
integers LMUL and LDIV compute, their range, and their values. -/

namespace Sys2Proof.Machine

/-- The integer LMUL computes from log-form elements (R181); `exec_lmul_ok` ties it to the command. -/
def State.mulL (s : State) (a b : Int) : Int := if a = -1 ∨ b = -1 then -1 else (a + b) % s.fieldMax

/-- The integer LDIV computes from log-form elements (R182); `exec_ldiv_ok` ties it to the command. -/
def State.divL (s : State) (a b : Int) : Int := if a = -1 then -1 else (s.fieldMax + a - b) % s.fieldMax

@[simp] theorem toVal_sentinel (s : State) : s.toVal (-1) = 0 := if_pos rfl

theorem toVal_natCast (s : State) (i : Nat) : s.toVal i = s.expAt i := by
  rw [State.toVal, if_neg (by omega), expI_natCast]

/-- A log-form element is the sentinel or an exponent below MAX. -/
theorem sentinel_or_exponent {m : Nat} {l : Int} (h : -1 ≤ l ∧ l < m) : l = -1 ∨ ∃ i : Nat, i < m ∧ l = i := by
  by_cases hl : l = -1
  · exact .inl hl
  · exact .inr ⟨l.toNat, by omega, by omega⟩

namespace State.Field

variable {s : State} {f : Nat → Nat} (h : s.Field f)
include h

/-- The value of an exponent is the walk that many steps from 1. -/
theorem toVal_exponent {i : Nat} (hi : i < s.fieldMax) : s.toVal i = f^[i] 1 := by
  rw [toVal_natCast, h.exp_eq i (by omega)]

/-- An exponent reduced modulo MAX has the value of the exponent itself. -/
theorem toVal_emod (i : Nat) : s.toVal ((i : Int) % s.fieldMax) = f^[i] 1 := by
  have hm := h.max_ge
  rw [← Int.natCast_emod, h.toVal_exponent (Nat.mod_lt _ (by omega)), h.walk_mod]

/-- The sentinel and every exponent reduced modulo MAX are log-form elements. -/
theorem sentinel_emod_bounds (p : Prop) [Decidable p] (n : Int) :
    -1 ≤ (if p then -1 else n % s.fieldMax) ∧ (if p then -1 else n % s.fieldMax) < s.fieldMax := by
  have hm := h.max_ge
  have hlow := Int.emod_nonneg n (show (s.fieldMax : Int) ≠ 0 by omega)
  have hhigh := Int.emod_lt_of_pos n (show 0 < (s.fieldMax : Int) by omega)
  split <;> omega

/-- The value of LMUL's result is the product of the values (42_log_scalar.md R184). -/
theorem toVal_mulL {a b : Int} (ha : -1 ≤ a ∧ a < s.fieldMax) (hb : -1 ≤ b ∧ b < s.fieldMax) :
    s.toVal (s.mulL a b) = s.mulV (s.toVal a) (s.toVal b) := by
  obtain rfl | ⟨i, hi, rfl⟩ := sentinel_or_exponent ha
  · simp [State.mulL]
  obtain rfl | ⟨j, hj, rfl⟩ := sentinel_or_exponent hb
  · simp [State.mulL]
  rw [State.mulL, if_neg (by omega), ← Int.natCast_add, h.toVal_emod, h.toVal_exponent hi, h.toVal_exponent hj,
    h.mulV_walk i (h.walk_le j), Function.iterate_add_apply]

/-- The value of LDIV's result is the quotient of the values (42_log_scalar.md R184). -/
theorem toVal_divL {a b : Int} (ha : -1 ≤ a ∧ a < s.fieldMax) (hb : -1 ≤ b ∧ b < s.fieldMax)
    (h0 : b ≠ -1) : s.toVal (s.divL a b) = s.divV (s.toVal a) (s.toVal b) := by
  obtain hb' | ⟨j, hj, rfl⟩ := sentinel_or_exponent hb
  · exact absurd hb' h0
  obtain rfl | ⟨i, hi, rfl⟩ := sentinel_or_exponent ha
  · simp [State.divL, State.divV]
  have hexponent : (s.fieldMax : Int) + i - j = (i + s.fieldMax - j : Nat) := by omega
  have hj1 : 1 ≤ f^[j] 1 := Nat.one_le_iff_ne_zero.2 (h.walk_ne_zero j)
  rw [State.divL, if_neg (by omega), hexponent, h.toVal_emod, h.toVal_exponent hi, h.toVal_exponent hj,
    h.divV_eq hj1 (h.walk_le j), if_neg (h.walk_ne_zero i), h.log_walk i hi, h.log_walk j hj, h.exp_eq _ (by omega)]

/-- The value of LADD's result is the XOR of the values (42_log_scalar.md R184). -/
theorem toVal_addL {a b : Int} (ha : -1 ≤ a ∧ a < s.fieldMax) (hb : -1 ≤ b ∧ b < s.fieldMax) :
    s.toVal (s.addL a b) = s.toVal a ^^^ s.toVal b :=
  h.toVal_toLogf (h.xor_le (h.toVal_le ha.1 ha.2) (h.toVal_le hb.1 hb.2))

/-- A log-form RESULT read back with s32 is the integer the command computed. -/
theorem s32_result {i : Instr} {t : State} {l : Int} (ht : exec i s = .next t)
    (hexec : exec i s = .next (afterResult (u32 l) s)) (hl : -1 ≤ l ∧ l < s.fieldMax) : s32 t.result = l := by
  have hm := h.max_ge
  obtain rfl : t = afterResult (u32 l) s := Host.Outcome.next.inj (ht.symm.trans hexec)
  exact s32_u32 hl.1 (by omega)

end State.Field

end Sys2Proof.Machine
end

section
/-! PROOFS. The log-form scalar commands (42_log_scalar.md R180–R184): each command's checks in their order, then its
RESULT, and the agreement with the value-form commands. -/

namespace Sys2Proof.Machine

variable {s : State}

/-- A log-form RESULT that is the sentinel in one case. -/
theorem u32_ite_sentinel (p : Prop) [Decidable p] (n : Int) :
    u32 (if p then -1 else n) = if p then 0xFFFFFFFF else u32 n := apply_ite ..

/-- The faults of a rule that begins with the checks of two log-form operands, the first operand's before the
second's. -/
theorem checkL_faults {rule : State → Rule} {k : Unit → Rule} (hr : s.ready = true)
    (hrule : rule s = (s.checkL 1 >>= fun _ => s.checkL 2 >>= k)) :
    (¬s.LogForm (s.a 1) → runCommand rule s = .next (afterFault 7 1 s))
      ∧ (s.LogForm (s.a 1) → ¬s.LogForm (s.a 2) → runCommand rule s = .next (afterFault 7 2 s)) :=
  ⟨fun ha => runCommand_error hr (hrule.trans (checkL_error ha)),
    fun ha hb => runCommand_error hr (hrule.trans ((checkL_ok ha).trans (checkL_error hb)))⟩

/-! ### LADD, LMUL, LDIV, LPOW -/

/-- LADD on operands that pass its checks. -/
theorem exec_ladd_ok (hr : s.ready = true) (ha : s.LogForm (s.a 1)) (hb : s.LogForm (s.a 2)) :
    exec .ladd s = .next (afterResult (u32 (s.addL (s.opS 1) (s.opS 2))) s) :=
  runCommand_result hr ((checkL_ok ha).trans (checkL_ok hb))

/-- LMUL on operands that pass its checks. -/
theorem exec_lmul_ok (hr : s.ready = true) (ha : s.LogForm (s.a 1)) (hb : s.LogForm (s.a 2)) :
    exec .lmul s = .next (afterResult (u32 (s.mulL (s.opS 1) (s.opS 2))) s) :=
  runCommand_result hr ((checkL_ok ha).trans (checkL_ok hb))

/-- LDIV on operands that pass its checks. -/
theorem exec_ldiv_ok (hr : s.ready = true) (ha : s.LogForm (s.a 1)) (hb : s.LogForm (s.a 2)) (h0 : s.opS 2 ≠ -1) :
    exec .ldiv s = .next (afterResult (u32 (s.divL (s.opS 1) (s.opS 2))) s) :=
  runCommand_result hr ((checkL_ok ha).trans ((checkL_ok hb).trans (require_decide_ok h0)))

/-- Settles O36: the two operand checks, then the log form of the XOR. -/
theorem laddOutcome : Obligations.LaddOutcome := by
  intro s hr
  exact ⟨exec_ladd_ok hr, checkL_faults (rule := ruleLadd) hr rfl⟩

/-- Settles O37: the two operand checks, then the sum of the exponents, or the sentinel. -/
theorem lmulOutcome : Obligations.LmulOutcome := by
  intro s hr
  refine ⟨fun ha hb => ?_, checkL_faults (rule := ruleLmul) hr rfl⟩
  rw [← u32_ite_sentinel]
  exact exec_lmul_ok hr ha hb

/-- Settles O38: the two operand checks, the check of the divisor, then the difference of the exponents, or the
sentinel. -/
theorem ldivOutcome : Obligations.LdivOutcome := by
  intro s hr
  obtain ⟨hfirst, hsecond⟩ := checkL_faults (rule := ruleLdiv) hr rfl
  refine ⟨fun ha hb h0 => ?_, hfirst, hsecond, fun ha h0 => ?_⟩
  · rw [← u32_ite_sentinel]
    exact exec_ldiv_ok hr ha hb h0
  · have hb : s.LogForm (s.a 2) := by
      change -1 ≤ s.opS 2 ∧ s.opS 2 < s.fieldMax
      omega
    exact runCommand_error (rule := ruleLdiv) hr
      ((checkL_ok ha).trans ((checkL_ok hb).trans (require_decide_error (not_not_intro h0))))

/-- Settles O39: the operand check, then the exact product, or the sentinel. -/
theorem lpowOutcome : Obligations.LpowOutcome := by
  intro s hr
  refine ⟨fun ha => ?_, fun ha => ?_⟩
  · rw [← u32_ite_sentinel]
    exact runCommand_result hr (checkL_ok ha)
  · exact runCommand_error (rule := ruleLpow) hr (checkL_error ha)

/-! ### Agreement with the value form -/

/-- Settles O40: each command's RESULT reads back as the integer it computed, whose value is the value-form result. -/
theorem logCommandsAgreeWithValue : Obligations.LogCommandsAgreeWithValue := by
  intro s t hr hinv ha hb
  have h := hinv.field hr
  refine ⟨fun ht => ?_, fun ht h0 => ?_, fun ht => ?_⟩
  · rw [h.s32_result ht (exec_lmul_ok hr ha hb) (h.sentinel_emod_bounds ..)]
    exact h.toVal_mulL ha hb
  · rw [h.s32_result ht (exec_ldiv_ok hr ha hb h0) (h.sentinel_emod_bounds ..)]
    exact h.toVal_divL ha hb h0
  · have hxor := h.xor_le (h.toVal_le ha.1 ha.2) (h.toVal_le hb.1 hb.2)
    rw [h.s32_result ht (exec_ladd_ok hr ha hb) (h.toLogf_bounds hxor)]
    exact h.toVal_addL ha hb

end Sys2Proof.Machine
end

section
/-! SUPPORT. How a rule goes on after several checks in a row that raise the same fault, and after the element checks
of one or two source regions (20_memory.md R84–R86). -/

namespace Sys2Proof.Machine

variable {α : Type} {s : State} {k : Unit → Except Raise α}

/-! ### Checks that raise the same fault -/

theorem checkRegion_two_error {b1 l1 b2 l2 : Nat} (h : ¬(s.Fits b1 l1 ∧ s.Fits b2 l2)) :
    (s.checkRegion b1 l1 >>= fun _ => s.checkRegion b2 l2 >>= k) = .error ⟨.addrRange, 0⟩ := by
  by_cases h1 : s.Fits b1 l1
  · exact (checkRegion_ok h1).trans (checkRegion_error fun h2 => h ⟨h1, h2⟩)
  · exact checkRegion_error h1

theorem checkRegion_three_error {b1 l1 b2 l2 b3 l3 : Nat} (h : ¬(s.Fits b1 l1 ∧ s.Fits b2 l2 ∧ s.Fits b3 l3)) :
    (s.checkRegion b1 l1 >>= fun _ => s.checkRegion b2 l2 >>= fun _ => s.checkRegion b3 l3 >>= k)
      = .error ⟨.addrRange, 0⟩ := by
  by_cases h1 : s.Fits b1 l1
  · exact (checkRegion_ok h1).trans (checkRegion_two_error fun h23 => h ⟨h1, h23⟩)
  · exact checkRegion_error h1

theorem checkDisjoint_two_error {b l b1 l1 b2 l2 : Nat} (h : ¬(¬Shares b l b1 l1 ∧ ¬Shares b l b2 l2)) :
    (checkDisjoint b l b1 l1 >>= fun _ => checkDisjoint b l b2 l2 >>= k) = .error ⟨.overlap, 0⟩ := by
  by_cases h1 : Shares b l b1 l1
  · exact checkDisjoint_error h1
  · exact (checkDisjoint_ok h1).trans (checkDisjoint_error (by_contra fun h2 => h ⟨h1, h2⟩))

theorem checkElementwise_two_error {d b1 b2 n : Nat}
    (h : ¬((d = b1 ∨ ¬Shares d n b1 n) ∧ (d = b2 ∨ ¬Shares d n b2 n))) :
    (checkElementwise d b1 n >>= fun _ => checkElementwise d b2 n >>= k) = .error ⟨.overlap, 0⟩ := by
  by_cases h1 : d = b1 ∨ ¬Shares d n b1 n
  · exact (checkElementwise_ok h1).trans (checkElementwise_error fun h2 => h ⟨h1, h2⟩)
  · exact checkElementwise_error h1

/-! ### The element checks of a source region -/

section

variable {good : Word → Bool} {Good : Word → Prop} (hgood : ∀ w, good w = true ↔ Good w)
include hgood

/-- A bad address of a region is the address of a cell that the element check refuses. -/
theorem bad_iff_cells {r : ReadSite} {base len x : Nat} :
    (∃ i, i < len ∧ x = base + i ∧ ¬Good (s.word r x)) ↔ ∃ c ∈ s.cells r base len, c.1 = x ∧ ¬good c.2 = true := by
  constructor
  · rintro ⟨i, hi, rfl, hbad⟩
    exact ⟨_, mem_cells.2 ⟨i, hi, rfl⟩, rfl, mt (hgood _).1 hbad⟩
  · rintro ⟨c, hc, rfl, hbad⟩
    obtain ⟨i, hi, rfl⟩ := mem_cells.1 hc
    exact ⟨i, hi, rfl, mt (hgood _).2 hbad⟩

/-- A bad address of two regions is the address of a cell that the element check of both refuses. -/
theorem bad_iff_cells_append {r1 r2 : ReadSite} {b1 l1 b2 l2 x : Nat} :
    ((∃ i, i < l1 ∧ x = b1 + i ∧ ¬Good (s.word r1 x)) ∨ ∃ i, i < l2 ∧ x = b2 + i ∧ ¬Good (s.word r2 x))
      ↔ ∃ c ∈ s.cells r1 b1 l1 ++ s.cells r2 b2 l2, c.1 = x ∧ ¬good c.2 = true := by
  simp only [bad_iff_cells hgood, List.mem_append, or_and_right, exists_or]

end

/-- The element checks pass when no address is bad. -/
theorem checkCells_ok_of_forall_not {good : Word → Bool} {cells : List (Nat × Word)} {bad : Nat → Prop}
    (hbad : ∀ x, bad x ↔ ∃ c ∈ cells, c.1 = x ∧ ¬good c.2 = true) (h : ∀ x, ¬bad x) :
    (checkCells good cells >>= k) = k () :=
  checkCells_ok fun c hc => by_contra fun hg => h c.1 ((hbad c.1).2 ⟨c, hc, rfl, hg⟩)

end Sys2Proof.Machine
end

section
/-! PROOFS. The element-wise polynomial commands (43_polynomial.md R200–R203): each command's checks in their order,
then its stores. -/

namespace Sys2Proof.Machine

variable {s : State}

/-! ### The checks of a command with one source -/

/-- The checks that LADDS, V2L and L2V begin with: dst = A[0], src = A[1], n = A[3]. -/
def State.checkOneSource (s : State) (k : Unit → Rule) : Rule :=
  s.checkRegion (s.opU 0) (s.opU 3) >>= fun _ => s.checkRegion (s.opU 1) (s.opU 3) >>= fun _ =>
    checkElementwise (s.opU 0) (s.opU 1) (s.opU 3) >>= k

/-- The regions of a command with one source lie inside PMEM. -/
abbrev State.FitsOneSource (s : State) : Prop := s.Fits (s.opU 0) (s.opU 3) ∧ s.Fits (s.opU 1) (s.opU 3)

/-- The destination of a command with one source is the source exactly, or disjoint from it. -/
abbrev State.ApartOneSource (s : State) : Prop :=
  s.opU 0 = s.opU 1 ∨ ¬Shares (s.opU 0) (s.opU 3) (s.opU 1) (s.opU 3)

theorem checkOneSource_ok {k : Unit → Rule} (hfits : s.FitsOneSource) (hapart : s.ApartOneSource) :
    s.checkOneSource k = k () :=
  (checkRegion_ok hfits.1).trans ((checkRegion_ok hfits.2).trans (checkElementwise_ok hapart))

/-- The faults of a rule that begins with the checks of its two regions. -/
theorem checkOneSource_faults {rule : State → Rule} {k : Unit → Rule} (hr : s.ready = true)
    (hrule : rule s = s.checkOneSource k) :
    (¬s.FitsOneSource → runCommand rule s = .next (afterFault 5 0 s))
      ∧ (s.FitsOneSource → ¬s.ApartOneSource → runCommand rule s = .next (afterFault 6 0 s)) :=
  ⟨fun hfits => runCommand_error hr (hrule.trans (checkRegion_two_error hfits)),
    fun ⟨hdst, hsrc⟩ hapart => runCommand_error hr
      (hrule.trans ((checkRegion_ok hdst).trans ((checkRegion_ok hsrc).trans (checkElementwise_error hapart))))⟩

/-- What V2L and L2V share: the checks, the element check of the source, then a word for each word of the source. -/
theorem conversion_outcome {rule : State → Rule} {good : Word → Bool} {Good : Word → Prop} {out : Nat → Word}
    (hr : s.ready = true) (hgood : ∀ w, good w = true ↔ Good w)
    (hrule : rule s = s.checkOneSource fun _ => checkCells good (s.cells (.check 0) (s.opU 1) (s.opU 3)) >>= fun _ =>
      .ok ⟨outCells (s.opU 0) (s.opU 3) out, none⟩) :
    let bad := fun x => ∃ i, i < s.opU 3 ∧ x = s.opU 1 + i ∧ ¬Good (s.word (.check 0) x)
    (s.FitsOneSource → s.ApartOneSource → (∀ x, ¬bad x) →
      ∃ t, runCommand rule s = .next t ∧ StoredRegion s t (s.opU 0) (s.opU 3) out none)
    ∧ (s.FitsOneSource → s.ApartOneSource → ∀ x, Lowest bad x →
      runCommand rule s = .next (afterFault 7 (elementInfo x) s)) := by
  intro bad
  have hbad : ∀ x, bad x ↔ ∃ c ∈ s.cells (.check 0) (s.opU 1) (s.opU 3), c.1 = x ∧ ¬good c.2 = true :=
    fun x => bad_iff_cells (Good := Good) hgood
  refine ⟨fun hfits hapart hall => ?_, fun hfits hapart x hx => ?_⟩
  · exact ⟨_, runCommand_effect hr
      (hrule.trans ((checkOneSource_ok hfits hapart).trans (checkCells_ok_of_forall_not hbad hall))),
      storedRegion_outCells ..⟩
  · exact runCommand_error hr (hrule.trans ((checkOneSource_ok hfits hapart).trans (checkCells_error hbad hx)))

/-! ### PXOR, LADDS -/

/-- Settles O41: the three region checks, the two overlap checks, the element checks of both sources, then the XOR. -/
theorem pxorOutcome : Obligations.PxorOutcome := by
  intro s hr dst a b n fits apart bad
  have hbad : ∀ x, bad x ↔ ∃ c ∈ s.cells (.check 0) a n ++ s.cells (.check 1) b n, c.1 = x ∧ ¬s.isValue c.2 = true := by
    intro x
    rw [← bad_iff_cells_append (Good := s.ValueForm) fun _ => isValue_iff]
    simp only [bad, and_or_left, exists_or]
  have hchecks {k : Unit → Rule} (hfits : fits) (hapart : apart) :
      (s.checkRegion dst n >>= fun _ => s.checkRegion a n >>= fun _ => s.checkRegion b n >>= fun _ =>
        checkElementwise dst a n >>= fun _ => checkElementwise dst b n >>= k) = k () := by
    obtain ⟨hdst, ha, hb⟩ := hfits
    rw [checkRegion_ok hdst, checkRegion_ok ha, checkRegion_ok hb, checkElementwise_ok hapart.1,
      checkElementwise_ok hapart.2]
  refine ⟨fun hfits hapart hall => ?_, fun hfits => ?_, fun hfits hapart => ?_, fun hfits hapart x hx => ?_⟩
  · exact ⟨_, runCommand_effect hr ((hchecks hfits hapart).trans (checkCells_ok_of_forall_not hbad hall)),
      storedRegion_outCells ..⟩
  · exact runCommand_error (rule := rulePxor) hr (checkRegion_three_error hfits)
  · obtain ⟨hdst, ha, hb⟩ := hfits
    exact runCommand_error (rule := rulePxor) hr ((checkRegion_ok hdst).trans ((checkRegion_ok ha).trans
      ((checkRegion_ok hb).trans (checkElementwise_two_error hapart))))
  · exact runCommand_error (rule := rulePxor) hr ((hchecks hfits hapart).trans (checkCells_error hbad hx))

/-- Settles O42: the checks of one source, the check of the scalar, the element check, then the sums. -/
theorem laddsOutcome : Obligations.LaddsOutcome := by
  intro s hr dst a n fits apart bad
  have hbad : ∀ x, bad x ↔ ∃ c ∈ s.cells (.check 0) a n, c.1 = x ∧ ¬s.isLog c.2 = true :=
    fun x => bad_iff_cells (Good := s.LogForm) fun _ => isLog_iff
  obtain ⟨haddr, hoverlap⟩ := checkOneSource_faults (rule := ruleLadds) hr rfl
  refine ⟨fun hfits hapart hs hall => ?_, haddr, hoverlap, fun hfits hapart hs => ?_, fun hfits hapart hs x hx => ?_⟩
  · exact ⟨_, runCommand_effect hr
      ((checkOneSource_ok hfits hapart).trans ((checkL_ok hs).trans (checkCells_ok_of_forall_not hbad hall))),
      storedRegion_outCells ..⟩
  · exact runCommand_error (rule := ruleLadds) hr ((checkOneSource_ok hfits hapart).trans (checkL_error hs))
  · exact runCommand_error (rule := ruleLadds) hr
      ((checkOneSource_ok hfits hapart).trans ((checkL_ok hs).trans (checkCells_error hbad hx)))

/-! ### V2L, L2V -/

theorem word_toNat_eq_zero {w : Word} : w.toNat = 0 ↔ w = 0 := BitVec.toNat_inj (y := 0)

/-- The word V2L stores: the sentinel for 0, else the logarithm (R202). -/
theorem u32_toLogf_toNat (w : Word) :
    u32 (s.toLogf w.toNat) = if w = 0 then 0xFFFFFFFF else BitVec.ofNat 32 (s.logAt w.toNat) := by
  rw [State.toLogf, u32_ite_sentinel, u32, BitVec.ofInt_natCast]
  simp only [word_toNat_eq_zero]

/-- The only word that reads as the sentinel. -/
theorem s32_eq_sentinel {w : Word} : s32 w = -1 ↔ w = 0xFFFFFFFF := BitVec.toInt_inj (y := 0xFFFFFFFF#32)

/-- The word L2V stores: 0 for the sentinel, else the power of α (R203). -/
theorem ofNat_toVal_s32 (w : Word) :
    BitVec.ofNat 32 (s.toVal (s32 w)) = if w = 0xFFFFFFFF then 0 else BitVec.ofNat 32 (s.expI (s32 w)) := by
  rw [State.toVal, ofNat_ite_zero]
  simp only [s32_eq_sentinel]

/-- Settles O43: the checks of one source, then the logarithms; in a field, α to 0 is 1. -/
theorem v2lOutcome : Obligations.V2lOutcome := by
  intro s hr dst src n fits apart bad out
  obtain ⟨haddr, hoverlap⟩ := checkOneSource_faults (rule := ruleV2l) hr rfl
  obtain ⟨hstore, helement⟩ := conversion_outcome (rule := ruleV2l) hr (fun _ => isValue_iff) rfl
  refine ⟨fun hfits hapart hall => ?_, fun hinv i hone => ?_, haddr, hoverlap, helement⟩
  · obtain ⟨t, ht, hstored⟩ := hstore hfits hapart hall
    exact ⟨t, ht, hstored.congr fun i _ => u32_toLogf_toNat _⟩
  · have hlog : s.logAt (1 : Word).toNat = 0 := (hinv.field hr).log_one
    simp only [out, hone, hlog]
    rfl

/-- Settles O44: the checks of one source, then the powers of α. -/
theorem l2vOutcome : Obligations.L2vOutcome := by
  intro s hr dst src n fits apart bad
  obtain ⟨haddr, hoverlap⟩ := checkOneSource_faults (rule := ruleL2v) hr rfl
  obtain ⟨hstore, helement⟩ := conversion_outcome (rule := ruleL2v) hr (fun _ => isLog_iff) rfl
  refine ⟨fun hfits hapart hall => ?_, haddr, hoverlap, helement⟩
  obtain ⟨t, ht, hstored⟩ := hstore hfits hapart hall
  exact ⟨t, ht, hstored.congr fun i _ => ofNat_toVal_s32 _⟩

end Sys2Proof.Machine
end

section
/-! SUPPORT. The accumulator of LCONV and VMUL (43_polynomial.md R204, R205): its coefficients on a command's operands,
its range, and what becomes of it when the words of both lists are mapped. -/

namespace Sys2Proof.Machine

variable {s : State}

/-! ### Coefficients on a command's operands -/

@[simp] theorem length_words (r : ReadSite) (base len : Nat) : (s.words r base len).length = len := by
  simp [State.words]

theorem getD_words {r : ReadSite} {base len i : Nat} (hi : i < len) :
    (s.words r base len).getD i 0 = s.word r (base + i) := by
  simp [State.words, hi]

theorem getD_convAcc (term : Word → Word → Option Nat) {k : Nat} (hk : k < s.opU 3) :
    (s.convAcc term).getD k 0 = xorSum (s.opU 4) fun ia =>
      if ia ≤ k ∧ k - ia < s.opU 5 then
        (term (s.word (.use 0 0) (s.opU 1 + ia)) (s.word (.use 1 ia) (s.opU 2 + (k - ia)))).getD 0
      else 0 := by
  rw [State.convAcc, getD_convolveReads _ _ _ hk, length_words]
  refine xorSum_congr fun ia hia => ?_
  rw [length_words]
  split
  next hpair => rw [getD_words hia, getD_words hpair.2]
  next => rfl

/-- LCONV's term of a pair, 0 where it has none. -/
theorem getD_termL (x y : Word) :
    (s.termL x y).getD 0 = if s32 x = -1 ∨ s32 y = -1 then 0 else s.expI (s32 x + s32 y) := by
  rw [State.termL]
  split <;> rfl

/-- VMUL's term of a pair is the product. -/
theorem getD_termV (x y : Word) : (s.termV x y).getD 0 = s.mulV x.toNat y.toNat := by
  simp only [State.termV, State.mulV, word_toNat_eq_zero]
  split <;> rfl

/-! ### Mapped lists -/

theorem convRow_map {term term' : Word → Word → Option Nat} {g : Word → Word} {x x' : Word} {ys : List Word}
    (h : ∀ y ∈ ys, term x (g y) = term' x' y) (k : Nat) (acc : List Nat) :
    convRow term x k (ys.map g) acc = convRow term' x' k ys acc := by
  induction ys generalizing k acc with
  | nil => rfl
  | cons y ys ih =>
    obtain ⟨hy, hys⟩ := List.forall_mem_cons.1 h
    rw [List.map_cons, convRow, convRow, hy, ih hys]

/-- Lists mapped word by word have the accumulator of the lists themselves, with the term that the mapped words have. -/
theorem convolve_map {term term' : Word → Word → Option Nat} {g : Word → Word} {xs ys : List Word}
    (h : ∀ x ∈ xs, ∀ y ∈ ys, term (g x) (g y) = term' x y) (len : Nat) :
    convolve term (xs.map g) (ys.map g) len = convolve term' xs ys len := by
  have hloop (ia : Nat) (acc : List Nat) :
      convLoop term (fun _ => ys.map g) ia (xs.map g) acc = convLoop term' (fun _ => ys) ia xs acc := by
    induction xs generalizing ia acc with
    | nil => rfl
    | cons x xs ih =>
      obtain ⟨hx, hxs⟩ := List.forall_mem_cons.1 h
      rw [List.map_cons, convLoop, convLoop, convRow_map hx, ih hxs]
  exact hloop 0 _

/-! ### In a field -/

/-- Only 0 has the sentinel for its log form. -/
theorem toLogf_eq_sentinel {v : Nat} : s.toLogf v = -1 ↔ v = 0 := by
  rw [State.toLogf]
  split <;> omega

namespace State.Field

variable {f : Nat → Nat} (h : s.Field f)
include h

/-- A field sum of field elements is a field element. -/
theorem xorSum_le {n : Nat} {g : Nat → Nat} (hg : ∀ i, i < n → g i ≤ s.fieldMax) : xorSum n g ≤ s.fieldMax := by
  induction n with
  | zero => exact Nat.zero_le _
  | succ n ih => exact xorSum_succ n g ▸ h.xor_le (ih fun i hi => hg i (by omega)) (hg n (by omega))

/-- Every coefficient of a value-form product is a field element. -/
theorem convolve_termV_le {xs ys : List Word} {len : Nat} (hxs : ∀ x ∈ xs, s.ValueForm x)
    (hys : ∀ y ∈ ys, s.ValueForm y) : ∀ v ∈ convolve s.termV xs ys len, v ≤ s.fieldMax := by
  have hentry {ws : List Word} {i : Nat} (hws : ∀ w ∈ ws, s.ValueForm w) (hi : i < ws.length) :
      (ws.getD i 0).toNat ≤ s.fieldMax := by
    rw [List.getD_eq_getElem _ _ hi]
    exact hws _ (List.getElem_mem hi)
  intro v hv
  obtain ⟨k, hk, rfl⟩ := List.getElem_of_mem hv
  rw [← List.getD_eq_getElem _ 0 hk, getD_convolve _ _ _ (by simpa using hk)]
  refine h.xorSum_le fun ia hia => ?_
  split
  next hpair => exact getD_termV .. ▸ h.mulV_le (hentry hxs hia) (hentry hys hpair.2)
  next => exact Nat.zero_le _

/-! ### Conversions -/

/-- The word V2L stores for a value reads back as the logarithm. -/
theorem s32_u32_toLogf {v : Nat} (hv : v ≤ s.fieldMax) : s32 (u32 (s.toLogf v)) = s.toLogf v := by
  have hbounds := h.toLogf_bounds hv
  have hm := h.max_ge
  exact s32_u32 hbounds.1 (by omega)

/-- L2V after V2L gives a value back. -/
theorem toVal_s32_u32_toLogf {v : Nat} (hv : v ≤ s.fieldMax) : s.toVal (s32 (u32 (s.toLogf v))) = v := by
  rw [h.s32_u32_toLogf hv, h.toVal_toLogf hv]

/-- LCONV's term of the log forms of two values is VMUL's term of the values. -/
theorem termL_toLogf {x y : Word} (hx : s.ValueForm x) (hy : s.ValueForm y) :
    s.termL (u32 (s.toLogf x.toNat)) (u32 (s.toLogf y.toNat)) = s.termV x y := by
  rw [State.termL, State.termV, h.s32_u32_toLogf hx, h.s32_u32_toLogf hy]
  simp only [toLogf_eq_sentinel, word_toNat_eq_zero]
  split
  next => rfl
  next hne =>
    obtain ⟨hx0, hy0⟩ := not_or.1 hne
    rw [State.toLogf, State.toLogf, if_neg (mt word_toNat_eq_zero.1 hx0), if_neg (mt word_toNat_eq_zero.1 hy0),
      ← Int.natCast_add, expI_natCast]

end State.Field

end Sys2Proof.Machine
end

section
/-! PROOFS. Polynomial multiplication in both forms (43_polynomial.md R204, R205, R208): LCONV's and VMUL's checks in
their order, then their coefficients, and the agreement of the two. -/

namespace Sys2Proof.Machine

variable {s : State}

/-! ### LCONV, VMUL -/

/-- What LCONV and VMUL share: the three region checks, the two overlap checks, the element checks of both sources,
then the words of a list. -/
theorem convOutcome_of_rule {i : Instr} {rule : State → Rule} {good : Word → Bool} {Good : Word → Prop}
    {coeff : Nat → Word} {ws : List Word} (hr : s.ready = true) (hgood : ∀ w, good w = true ↔ Good w)
    (hexec : exec i s = runCommand rule s)
    (hrule : rule s = s.checkConv >>= fun _ => checkCells good s.convCells >>= fun _ =>
      .ok ⟨listCells (s.opU 0) ws, none⟩)
    (hlen : ws.length = s.opU 3) (hcoeff : ∀ k, k < s.opU 3 → ws.getD k 0 = coeff k) :
    ConvOutcome i s Good coeff := by
  unfold ConvOutcome
  intro dst a b len la lb fits apart bad
  simp only [State.checkConv, bind_assoc] at hrule
  have hbad : ∀ x, bad x ↔ ∃ c ∈ s.convCells, c.1 = x ∧ ¬good c.2 = true :=
    fun x => bad_iff_cells_append (Good := Good) hgood
  have hchecks (hfits : fits) (hapart : apart) :
      rule s = checkCells good s.convCells >>= fun _ => .ok ⟨listCells dst ws, none⟩ := by
    obtain ⟨hdst, ha, hb⟩ := hfits
    rw [hrule, checkRegion_ok hdst, checkRegion_ok ha, checkRegion_ok hb, checkDisjoint_ok hapart.1,
      checkDisjoint_ok hapart.2]
  rw [hexec]
  refine ⟨fun hfits hapart hall => ?_, fun hfits => ?_, fun hfits hapart => ?_, fun hfits hapart x hx => ?_⟩
  · have hstored := storedRegion_listCells s dst ws none
    rw [hlen] at hstored
    exact ⟨_, runCommand_effect hr ((hchecks hfits hapart).trans (checkCells_ok_of_forall_not hbad hall)),
      hstored.congr hcoeff⟩
  · exact runCommand_error hr (hrule.trans (checkRegion_three_error hfits))
  · obtain ⟨hdst, ha, hb⟩ := hfits
    exact runCommand_error hr (hrule.trans ((checkRegion_ok hdst).trans ((checkRegion_ok ha).trans
      ((checkRegion_ok hb).trans (checkDisjoint_two_error hapart)))))
  · exact runCommand_error hr ((hchecks hfits hapart).trans (checkCells_error hbad hx))

/-- The word of index `k` among the coefficients of a product, each made a word. -/
theorem getD_map_convAcc (term : Word → Word → Option Nat) (g : Nat → Word) {k : Nat} (hk : k < s.opU 3) :
    ((s.convAcc term).map g).getD k 0 = g ((s.convAcc term).getD k 0) := by
  have hk' : k < (s.convAcc term).length := length_convAcc term ▸ hk
  rw [List.getD_eq_getElem _ _ (by simpa using hk'), List.getElem_map, List.getD_eq_getElem _ _ hk']

/-- Settles O45: the checks that LCONV shares with VMUL; a coefficient is the sum of the terms of its pairs. -/
theorem lconvOutcome : Obligations.LconvOutcome := by
  intro s hr
  refine convOutcome_of_rule (rule := ruleLconv) hr (fun _ => isLog_iff) rfl rfl (by simp) fun k hk => ?_
  rw [getD_map_convAcc _ _ hk, getD_convAcc _ hk]
  simp only [getD_termL]

/-- Settles O46: the checks that VMUL shares with LCONV; a coefficient is the sum of the products of its pairs. -/
theorem vmulOutcome : Obligations.VmulOutcome := by
  intro s hr
  refine convOutcome_of_rule (rule := ruleVmul) hr (fun _ => isValue_iff) rfl rfl (by simp) fun k hk => ?_
  rw [getD_map_convAcc _ _ hk, getD_convAcc _ hk]
  simp only [getD_termV]

/-- Settles O47: the two accumulators are equal, term by term, and a field value survives the way to log form and
back. -/
theorem dualMultiplicationAgrees : Obligations.DualMultiplicationAgrees := by
  intro s hr hinv v2l l2v
  have h := hinv.field hr
  refine ⟨fun x hx => ⟨?_, ?_⟩, fun xs ys len hxs hys => ?_⟩
  · simp only [l2v, v2l, h.toVal_s32_u32_toLogf hx, BitVec.ofNat_toNat, BitVec.setWidth_eq]
  · simp only [v2l, State.LogForm, h.s32_u32_toLogf hx]
    exact h.toLogf_bounds hx
  · rw [convolve_map fun x hx y hy => h.termL_toLogf (hxs x hx) (hys y hy)]
    refine List.map_congr_left fun v hv => ?_
    simp only [l2v, h.toVal_s32_u32_toLogf (h.convolve_termV_le hxs hys v hv)]

end Sys2Proof.Machine
end

section
/-! PROOFS. The derivative and the substitution (43_polynomial.md R206, R207): each command's checks in their order,
then its stores or its RESULT. -/

namespace Sys2Proof.Machine

variable {s : State}

/-- Settles O48: the check of the length, the region and overlap checks, the element check, then CUETOOLS's `gfdiff`. -/
theorem ldiffOutcome : Obligations.LdiffOutcome := by
  intro s hr dst src n fits apart bad
  have hbad : ∀ x, bad x ↔ ∃ c ∈ s.cells (.check 0) src n, c.1 = x ∧ ¬s.isLog c.2 = true :=
    fun x => bad_iff_cells (Good := s.LogForm) fun _ => isLog_iff
  have hchecks {k : Unit → Rule} (hn : n ≠ 0) (hfits : fits) (hapart : apart) :
      (require (n != 0) .length 3 >>= fun _ => s.checkRegion src n >>= fun _ => s.checkRegion dst (n - 1) >>= fun _ =>
        checkDisjoint dst (n - 1) src n >>= k) = k () := by
    rw [require_ne_zero_ok hn, checkRegion_ok hfits.1, checkRegion_ok hfits.2, checkDisjoint_ok hapart]
  refine ⟨fun hn hfits hapart hall => ?_, fun hn => ?_, fun hn hfits => ?_, fun hn hfits hapart => ?_,
    fun hn hfits hapart x hx => ?_⟩
  · exact ⟨_, runCommand_effect hr ((hchecks hn hfits hapart).trans (checkCells_ok_of_forall_not hbad hall)),
      storedRegion_outCells ..⟩
  · exact runCommand_error (rule := ruleLdiff) hr (require_ne_zero_error hn)
  · exact runCommand_error (rule := ruleLdiff) hr ((require_ne_zero_ok hn).trans (checkRegion_two_error hfits))
  · exact runCommand_error (rule := ruleLdiff) hr ((require_ne_zero_ok hn).trans ((checkRegion_ok hfits.1).trans
      ((checkRegion_ok hfits.2).trans (checkDisjoint_error (not_not.1 hapart)))))
  · exact runCommand_error (rule := ruleLdiff) hr ((hchecks hn hfits hapart).trans (checkCells_error hbad hx))

/-- LSUBST's accumulator is a field sum in which the sentinel adds 0. -/
theorem substAcc_eq (src value terms : Nat) :
    s.substAcc src value terms = xorSum terms fun p =>
      let c := s32 (s.word (.use 0 0) (src + p))
      if c = -1 then 0 else s.expAt ((c + value * p) % s.fieldMax).toNat := by
  rw [State.substAcc, xorSum]
  congr 1
  funext acc p
  dsimp only
  split
  next => exact (Nat.xor_zero acc).symm
  next => rfl

/-- Settles O49: the region check, the check of the exponent, the element check, then the sum. -/
theorem lsubstOutcome : Obligations.LsubstOutcome := by
  intro s hr src value terms bad
  have hbad : ∀ x, bad x ↔ ∃ c ∈ s.cells (.check 0) src terms, c.1 = x ∧ ¬s.isLog c.2 = true :=
    fun x => bad_iff_cells (Good := s.LogForm) fun _ => isLog_iff
  refine ⟨fun hfits hv hall => ?_, fun hfits => ?_, fun hfits hv => ?_, fun hfits hv x hx => ?_⟩
  · rw [← substAcc_eq]
    exact runCommand_result hr
      ((checkRegion_ok hfits).trans ((require_decide_ok hv).trans (checkCells_ok_of_forall_not hbad hall)))
  · exact runCommand_error (rule := ruleLsubst) hr (checkRegion_error hfits)
  · exact runCommand_error (rule := ruleLsubst) hr ((checkRegion_ok hfits).trans (require_decide_error hv.not_gt))
  · exact runCommand_error (rule := ruleLsubst) hr
      ((checkRegion_ok hfits).trans ((require_decide_ok hv).trans (checkCells_error hbad hx)))

end Sys2Proof.Machine
end

section
/-! SUPPORT. What the generator and table commands share (44_generator.md R250–R255): their checks, in order, and what
the cells of a list or of a byte table store. -/

namespace Sys2Proof.Machine

variable {s : State}

/-! ### Lists by their indices -/

theorem forall_mem_iff_getD {l : List Nat} {P : Nat → Prop} : (∀ c ∈ l, P c) ↔ ∀ i, i < l.length → P (l.getD i 0) := by
  rw [List.forall_mem_iff_getElem]
  exact forall₂_congr fun i hi => by rw [List.getD_eq_getElem _ _ hi]

theorem getD_map_of_lt {α : Type} {l : List Nat} {i : Nat} (hi : i < l.length) (g : Nat → α) (d : α) :
    (l.map g).getD i d = g (l.getD i 0) := by
  rw [List.getD_eq_getElem _ _ (by simpa using hi), List.getElem_map, List.getD_eq_getElem _ _ hi]

/-! ### The checks -/

/-- The operand `npar` is in its range (44_generator.md R251). -/
abbrev State.NparInRange (s : State) : Prop := s.opU 3 ≠ 0 ∧ s.opU 3 ≤ s.fieldMax

/-- Index `j` of a list of `n` coefficients holds a zero (44_generator.md R252). -/
abbrev ZeroAt (g : List Nat) (n j : Nat) : Prop := j < n ∧ g.getD j 0 = 0

theorem npar_iff : (s.opU 3 != 0 && decide (s.opU 3 ≤ s.fieldMax)) = true ↔ s.NparInRange := by simp

theorem checkNpar_ok {k : Unit → Rule} (h : s.NparInRange) : (s.checkNpar >>= k) = k () := require_ok (npar_iff.2 h)

theorem checkNpar_error {k : Unit → Rule} (h : ¬s.NparInRange) : (s.checkNpar >>= k) = .error ⟨.length, 3⟩ :=
  require_error (mt npar_iff.1 h)

/-- The faults of a rule that begins with the check of `npar` and of its region. -/
theorem checkNpar_faults {rule : State → Rule} {k : Unit → Rule} {len : Nat} (hr : s.ready = true)
    (hrule : rule s = s.checkNpar >>= fun _ => s.checkRegion (s.opU 0) len >>= k) :
    (¬s.NparInRange → runCommand rule s = .next (afterFault 4 3 s))
      ∧ (s.NparInRange → ¬s.Fits (s.opU 0) len → runCommand rule s = .next (afterFault 5 0 s)) :=
  ⟨fun hrange => runCommand_error hr (hrule.trans (checkNpar_error hrange)),
    fun hrange hfits => runCommand_error hr (hrule.trans ((checkNpar_ok hrange).trans (checkRegion_error hfits)))⟩

theorem length_generator_of_inRange (h : s.NparInRange) : (s.generator (s.opU 3)).length = s.opU 3 :=
  length_generator (Nat.one_le_iff_ne_zero.2 h.1)

theorem checkGenerator_ok {g : List Nat} {n : Nat} {k : Unit → Rule} (hlen : g.length = n) (h : ∀ j, ¬ZeroAt g n j) :
    (checkGenerator g >>= k) = k () := by
  have hnone : firstZero g = none := by
    rw [firstZero, List.findIdx?_eq_none_iff]
    exact forall_mem_iff_getD.2 fun j hj => beq_false_of_ne fun h0 => h j ⟨hlen ▸ hj, h0⟩
  rw [checkGenerator, hnone]
  rfl

/-- The index recorded is the lowest one of a zero coefficient. -/
theorem checkGenerator_error {g : List Nat} {n j : Nat} {k : Unit → Rule} (hlen : g.length = n)
    (h : Lowest (ZeroAt g n) j) : (checkGenerator g >>= k) = .error ⟨.genZero, BitVec.ofNat 32 j⟩ := by
  obtain ⟨⟨hj, h0⟩, hmin⟩ := h
  have hj : j < g.length := hlen.symm ▸ hj
  have hsome : firstZero g = some j := by
    rw [firstZero, List.findIdx?_eq_some_iff_getElem]
    refine ⟨hj, beq_iff_eq.2 ((List.getD_eq_getElem _ _ hj).symm.trans h0), fun i hi => ?_⟩
    exact fun hz => hmin i hi ⟨by omega, (List.getD_eq_getElem _ _ (hi.trans hj)).trans (beq_iff_eq.1 hz)⟩
  rw [checkGenerator, hsome]
  rfl

/-- The fault of a zero coefficient in a rule that goes on to check the generator. -/
theorem checkGenerator_fault {rule : State → Rule} {k : Unit → Rule} {len j : Nat} (hr : s.ready = true)
    (hrule : rule s = s.checkNpar >>= fun _ => s.checkRegion (s.opU 0) len >>= fun _ =>
      checkGenerator (s.generator (s.opU 3)) >>= k)
    (hrange : s.NparInRange) (hfits : s.Fits (s.opU 0) len)
    (hzero : Lowest (ZeroAt (s.generator (s.opU 3)) (s.opU 3)) j) :
    runCommand rule s = .next (afterFault 11 (BitVec.ofNat 32 j) s) :=
  runCommand_error hr (hrule.trans ((checkNpar_ok hrange).trans ((checkRegion_ok hfits).trans
    (checkGenerator_error (length_generator_of_inRange hrange) hzero))))

/-! ### What the cells store -/

/-- A success that writes the cells of a list of numbers, each made a word, stores exactly those words. -/
theorem storedRegion_map (s : State) (dst : Nat) {l : List Nat} {n : Nat} (hlen : l.length = n) (word : Nat → Word)
    (res : Option Word) :
    StoredRegion s (succeed ⟨listCells dst (l.map word), res⟩ s) dst n (fun j => word (l.getD j 0)) res := by
  have hstored := storedRegion_listCells s dst (l.map word) res
  rw [List.length_map, hlen] at hstored
  exact hstored.congr fun j hj => getD_map_of_lt (hlen.symm ▸ hj) word 0

/-- An address that one cell names, and that no cell with another word names, reads that word. -/
theorem Memory.read_writeCells_of_forall {m : Memory} {cells : List (Nat × Word)} {a : Nat} {v : Word}
    (hmem : (a, v) ∈ cells) (hval : ∀ c ∈ cells, c.1 = a → c.2 = v) :
    Memory.read (m.writeCells cells) a = some v := by
  induction cells with
  | nil => exact absurd hmem List.not_mem_nil
  | cons c cs ih =>
    obtain ⟨hc, hcs⟩ := List.forall_mem_cons.1 hval
    rw [show m.writeCells (c :: cs) = (m.writeCells cs).write c.1 c.2 from rfl, Memory.read_write]
    split
    next heq => rw [hc heq]
    next hne =>
      obtain rfl | hmem := List.mem_cons.1 hmem
      · exact absurd rfl hne
      · exact ih hmem hcs

/-- The planes that a table has (44_generator.md R254, R255). -/
theorem mem_planes {pl : Nat} : pl ∈ s.planes ↔ pl < if s.fw = 8 then 1 else 2 := by
  rw [State.planes]
  split
  next => simp
  next =>
    simp only [List.mem_cons, List.not_mem_nil, or_false]
    omega

/-- The value of byte `b` at byte position `pl` is `b·256^pl` (44_generator.md R250). -/
theorem planeValue_eq (b pl : Nat) : planeValue b pl = b * 256 ^ pl := by
  rw [planeValue, Nat.shiftLeft_eq, Nat.pow_mul]

/-- An address of a table is that of one entry only: the rows `(b, pl)` do not overlap. -/
theorem tableIndex_injective {npar b pl i b' pl' i' : Nat} (hp : pl < 2) (hp' : pl' < 2) (hi : i < npar)
    (hi' : i' < npar) (h : (2 * b + pl) * npar + i = (2 * b' + pl') * npar + i') : b = b' ∧ pl = pl' ∧ i = i' := by
  have hrow (r : Nat) {j : Nat} (hj : j < npar) : (r * npar + j) / npar = r := by
    rw [Nat.add_comm, Nat.add_mul_div_right _ _ (by omega), Nat.div_eq_of_lt hj, Nat.zero_add]
  have hrows : 2 * b + pl = 2 * b' + pl' :=
    (hrow _ hi).symm.trans ((congrArg (· / npar) h).trans (hrow _ hi'))
  rw [hrows] at h
  omega

/-- A success that writes a table's cells stores exactly that table. -/
theorem storedTable_tableCells {entry : Nat → Nat → Nat} {factor : Nat → Nat}
    (hentry : ∀ v i, i < s.opU 3 → entry v i = s.mulV v (factor i)) :
    StoredTable s (succeed ⟨s.tableCells (s.opU 0) (s.opU 3) entry, none⟩ s) factor := by
  have htwo {pl : Nat} (hpl : pl ∈ s.planes) : pl < 2 := by
    have := mem_planes.1 hpl
    split at this <;> omega
  refine ⟨fun b pl i hb hpl hi => ?_, fun x hx => ?_, rfl⟩
  · have hpl := mem_planes.2 hpl
    rw [← planeValue_eq, ← hentry _ i hi]
    refine Memory.read_writeCells_of_forall (mem_tableCells.2 ⟨b, pl, i, hb, hpl, hi, rfl⟩) fun c hc heq => ?_
    obtain ⟨b', pl', i', -, hpl', hi', rfl⟩ := mem_tableCells.1 hc
    obtain ⟨rfl, rfl, rfl⟩ := tableIndex_injective (htwo hpl') (htwo hpl) hi' hi
      (Nat.add_left_cancel (by simpa only [Nat.add_assoc] using heq))
    rfl
  · refine Memory.read_writeCells_of_notMem fun c hc heq => ?_
    obtain ⟨b, pl, i, hb, hpl, hi, rfl⟩ := mem_tableCells.1 hc
    exact hx b pl i hb (mem_planes.1 hpl) hi heq.symm

end Sys2Proof.Machine
end

section
/-! PROOFS. The generator and table commands (44_generator.md R251–R255): each command's checks in their order, then
its stores. -/

namespace Sys2Proof.Machine

variable {s : State}

/-! ### MKGX, MKGXL -/

/-- Settles O50: the check of `npar`, the region check, then the generator's words. -/
theorem mkgxOutcome : Obligations.MkgxOutcome := by
  intro s hr dst npar range
  refine ⟨fun hrange hfits => ?_, checkNpar_faults (rule := ruleMkgx) hr rfl⟩
  exact ⟨_, runCommand_effect hr ((checkNpar_ok hrange).trans (checkRegion_ok hfits)),
    storedRegion_map s dst (length_generator_of_inRange hrange) ..⟩

/-- Settles O51: MKGX's checks and the check for a zero coefficient, then the logarithms. -/
theorem mkgxlOutcome : Obligations.MkgxlOutcome := by
  intro s hr dst npar g range zero
  obtain ⟨hlength, haddr⟩ := checkNpar_faults (rule := ruleMkgxl) hr rfl
  refine ⟨fun hrange hfits hall => ?_, hlength, haddr,
    fun hrange hfits j hj => checkGenerator_fault (rule := ruleMkgxl) hr rfl hrange hfits hj⟩
  have hlen := length_generator_of_inRange hrange
  exact ⟨_, runCommand_effect hr
    ((checkNpar_ok hrange).trans ((checkRegion_ok hfits).trans (checkGenerator_ok hlen hall))),
    storedRegion_map s dst hlen (fun v => BitVec.ofNat 32 (s.logAt v)) none⟩

/-! ### MKENC, MKDEC -/

/-- MKENC's entry is the product with the generator's coefficient, when that is not 0 (44_generator.md R256). -/
theorem encEntry_eq_mulV {g : List Nat} {i : Nat} (hi : i < g.length) (h0 : g.getD i 0 ≠ 0) (v : Nat) :
    s.encEntry (g.map s.logAt) v i = s.mulV v (g.getD i 0) := by
  simp only [State.encEntry, State.mulV, getD_map_of_lt hi, h0, or_false]

/-- MKDEC's entry is the product with `α^i` (44_generator.md R256). -/
theorem State.Field.decEntry_eq_mulV {f : Nat → Nat} (h : s.Field f) {i : Nat} (hi : i < s.fieldMax) (v : Nat) :
    s.decEntry v i = s.mulV v (s.expAt i) := by
  have h0 := h.exp_ne_zero (i := i) (by omega)
  have hlog : s.logAt (s.expAt i) = i := (h.log_exp (by omega)).trans (Nat.mod_eq_of_lt hi)
  simp only [State.decEntry, State.mulV, hlog, h0, or_false]

/-- Settles O52: MKGXL's checks over the table's region, then the products with the generator's coefficients. -/
theorem mkencOutcome : Obligations.MkencOutcome := by
  intro s hr npar g range fits zero
  obtain ⟨hlength, haddr⟩ := checkNpar_faults (rule := ruleMkenc) hr rfl
  refine ⟨fun hrange hfits hall => ?_, hlength, haddr,
    fun hrange hfits j hj => checkGenerator_fault (rule := ruleMkenc) hr rfl hrange hfits hj⟩
  have hlen := length_generator_of_inRange hrange
  refine ⟨_, runCommand_effect hr
    ((checkNpar_ok hrange).trans ((checkRegion_ok hfits).trans (checkGenerator_ok hlen hall))),
    storedTable_tableCells fun v i hi => ?_⟩
  exact encEntry_eq_mulV (hlen.symm ▸ hi) (fun h0 => hall i ⟨hi, h0⟩) v

/-- Settles O53: the check of `npar`, the check of the table's region, then the products with the powers of α. -/
theorem mkdecOutcome : Obligations.MkdecOutcome := by
  intro s hr npar range fits
  refine ⟨fun hinv hrange hfits => ?_, checkNpar_faults (rule := ruleMkdec) hr rfl⟩
  refine ⟨_, runCommand_effect hr ((checkNpar_ok hrange).trans (checkRegion_ok hfits)),
    storedTable_tableCells fun v i hi => ?_⟩
  exact (hinv.field hr).decEntry_eq_mulV (Nat.lt_of_lt_of_le hi hrange.2) v

end Sys2Proof.Machine
end

section
/-! SUPPORT. The generator as a product (44_generator.md R253): the words below its leading 1, and the value of a
polynomial by Horner's rule before and after one root step. -/

namespace Sys2Proof.Machine

variable {s : State}

/-! ### The words below the leading 1 -/

/-- The coefficients below the leading 1 of the product of the first `n` root factors, highest degree first;
`generator_eq` ties them to the generator. -/
def State.belowLeading (s : State) : Nat → List Nat
  | 0 => []
  | n + 1 => s.genStep (s.expAt (s.symStart + n)) (1 :: s.belowLeading n)

theorem genStep_zero_cons (r y : Nat) (g : List Nat) : s.genStep r (0 :: y :: g) = y :: s.genStep r (y :: g) := by
  rw [State.genStep, rootStep, State.Field.mulV_zero_left, Nat.zero_xor, State.genStep]

/-- A root step on a generator whose product has not reached the highest stored index. -/
theorem genStep_zeros (r n : Nat) (g : List Nat) :
    s.genStep r (List.replicate (n + 1) 0 ++ 1 :: g) = List.replicate n 0 ++ 1 :: s.genStep r (1 :: g) := by
  induction n with
  | zero => exact genStep_zero_cons r 1 g
  | succ n ih => exact (genStep_zero_cons ..).trans (congrArg _ ih)

/-- The generator after `k` of its `npar` root steps, before the last one. -/
theorem foldl_genStep_eq (npar : Nat) {k : Nat} (hk : k < npar) :
    (List.range k).foldl (fun g i => s.genStep (s.expAt (s.symStart + i)) g) (List.replicate (npar - 1) 0 ++ [1])
      = List.replicate (npar - 1 - k) 0 ++ 1 :: s.belowLeading k := by
  induction k with
  | zero => rfl
  | succ k ih =>
    rw [List.range_succ, List.foldl_append, ih (by omega), show npar - 1 - k = npar - 1 - (k + 1) + 1 by omega]
    exact genStep_zeros ..

/-- The generator's words are the coefficients below the leading 1 (44_generator.md R253). -/
theorem generator_eq {npar : Nat} (h : 1 ≤ npar) : s.generator npar = s.belowLeading npar := by
  obtain ⟨n, rfl⟩ := Nat.exists_eq_add_of_le' h
  rw [State.generator, List.range_succ, List.foldl_append, foldl_genStep_eq _ (by omega), Nat.add_sub_cancel,
    Nat.sub_self]
  rfl

/-! ### Values by Horner's rule -/

/-- The value of a polynomial with its leading 1. -/
theorem evalDesc_one_cons (x : Nat) (cs : List Nat) :
    s.evalDesc x (1 :: cs) = cs.foldl (fun acc c => s.mulV acc x ^^^ c) 1 := by
  rw [State.evalDesc, List.foldl_cons, State.Field.mulV_zero_left, Nat.zero_xor]

/-- A product with a factor 0 is 0. -/
theorem foldl_mulV_eq_zero {n k : Nat} {g : Nat → Nat} (hk : k < n) (h0 : g k = 0) :
    (List.range n).foldl (fun p i => s.mulV p (g i)) 1 = 0 := by
  induction n with
  | zero => exact absurd hk (Nat.not_lt_zero k)
  | succ n ih =>
    rw [List.range_succ, List.foldl_append, List.foldl_cons, List.foldl_nil]
    obtain rfl | hlt := Nat.eq_or_lt_of_le (Nat.le_of_lt_succ hk)
    · rw [h0, State.Field.mulV_zero_right]
    · rw [ih hlt, State.Field.mulV_zero_left]

namespace State.Field

variable {f : Nat → Nat} (h : s.Field f)
include h

/-- A root step keeps the coefficients in the field. -/
theorem genStep_le {r : Nat} (hr : r ≤ s.fieldMax) {g : List Nat} (hg : ∀ c ∈ g, c ≤ s.fieldMax) :
    ∀ c ∈ s.genStep r g, c ≤ s.fieldMax := by
  induction g with
  | nil => exact hg
  | cons a g ih =>
    obtain ⟨ha, hg⟩ := List.forall_mem_cons.1 hg
    cases g with
    | nil => exact List.forall_mem_cons.2 ⟨h.mulV_le ha hr, by simp⟩
    | cons b g => exact List.forall_mem_cons.2 ⟨h.xor_le (h.mulV_le ha hr) (hg b List.mem_cons_self), ih hg⟩

theorem belowLeading_le {n : Nat} (hn : n ≤ s.fieldMax) : ∀ c ∈ s.belowLeading n, c ≤ s.fieldMax := by
  induction n with
  | zero => exact fun c hc => absurd hc List.not_mem_nil
  | succ n ih =>
    have hm := h.max_ge
    have hsym := h.sym_lt
    exact h.genStep_le (h.exp_le (by omega)) (List.forall_mem_cons.2 ⟨by omega, ih (by omega)⟩)

/-- The law of one root step on one coefficient (44_generator.md R253): `(x+r)·(b·x + y) + z` by Horner's rule. -/
theorem horner_rootStep {x r b y : Nat} (hx : x ≤ s.fieldMax) (hr : r ≤ s.fieldMax) (hb : b ≤ s.fieldMax)
    (hy : y ≤ s.fieldMax) :
    s.mulV (s.mulV (x ^^^ r) b ^^^ y) x ^^^ s.mulV y r = s.mulV (x ^^^ r) (s.mulV b x ^^^ y) := by
  have hxr := h.xor_le hx hr
  calc s.mulV (s.mulV (x ^^^ r) b ^^^ y) x ^^^ s.mulV y r
      = s.mulV (s.mulV (x ^^^ r) b) x ^^^ (s.mulV y x ^^^ s.mulV y r) := by
        rw [h.mulV_xor_left (h.mulV_le hxr hb) hy hx, Nat.xor_assoc]
    _ = s.mulV (x ^^^ r) (s.mulV b x) ^^^ s.mulV (x ^^^ r) y := by
        rw [h.mulV_assoc hxr hb hx, ← h.mulV_xor_right hy hx hr, mulV_comm y]
    _ = s.mulV (x ^^^ r) (s.mulV b x ^^^ y) := (h.mulV_xor_right hxr (h.mulV_le hb hx) hy).symm

/-- A root step multiplies the value by `x + r`: for Horner's rule at any coefficient `y` of the list, with `b` the
value of those before it. -/
theorem foldl_genStep_value {x r : Nat} (hx : x ≤ s.fieldMax) (hr : r ≤ s.fieldMax) {b y : Nat} {g : List Nat}
    (hb : b ≤ s.fieldMax) (hy : y ≤ s.fieldMax) (hg : ∀ c ∈ g, c ≤ s.fieldMax) :
    (s.genStep r (y :: g)).foldl (fun acc c => s.mulV acc x ^^^ c) (s.mulV (x ^^^ r) b ^^^ y)
      = s.mulV (x ^^^ r) (g.foldl (fun acc c => s.mulV acc x ^^^ c) (s.mulV b x ^^^ y)) := by
  induction g generalizing b y with
  | nil => exact h.horner_rootStep hx hr hb hy
  | cons z g ih =>
    obtain ⟨hz, hg⟩ := List.forall_mem_cons.1 hg
    rw [State.genStep, rootStep, List.foldl_cons, List.foldl_cons, ← Nat.xor_assoc, h.horner_rootStep hx hr hb hy]
    exact ih (h.xor_le (h.mulV_le hb hx) hy) hz hg

/-- The polynomial with its leading 1 has, after a root step, `x + r` times the value it had (44_generator.md R253). -/
theorem evalDesc_genStep {x r : Nat} (hx : x ≤ s.fieldMax) (hr : r ≤ s.fieldMax) {g : List Nat}
    (hg : ∀ c ∈ g, c ≤ s.fieldMax) :
    s.evalDesc x (1 :: s.genStep r (1 :: g)) = s.mulV (x ^^^ r) (s.evalDesc x (1 :: g)) := by
  have hm := h.max_ge
  have hstep := h.foldl_genStep_value hx hr (Nat.zero_le _) (show 1 ≤ s.fieldMax by omega) hg
  rwa [mulV_zero_right, mulV_zero_left, Nat.zero_xor, ← evalDesc_one_cons, ← evalDesc_one_cons] at hstep

theorem evalDesc_belowLeading {n x : Nat} (hn : n ≤ s.fieldMax) (hx : x ≤ s.fieldMax) :
    s.evalDesc x (1 :: s.belowLeading n)
      = (List.range n).foldl (fun p k => s.mulV p (x ^^^ s.expAt (s.symStart + k))) 1 := by
  induction n with
  | zero => exact evalDesc_one_cons x []
  | succ n ih =>
    have hsym := h.sym_lt
    rw [State.belowLeading, h.evalDesc_genStep hx (h.exp_le (by omega)) (h.belowLeading_le (by omega)),
      ih (by omega), List.range_succ, List.foldl_append, List.foldl_cons, List.foldl_nil, mulV_comm]

/-- Horner's rule at `α^v` is the field sum of the coefficients times the powers of `α^v`, lowest degree first. -/
theorem evalDesc_reverse (v : Nat) {cs : List Nat} (hcs : ∀ c ∈ cs, c ≤ s.fieldMax) :
    s.evalDesc (f^[v] 1) cs.reverse = xorSum cs.length fun p => f^[v * p] (cs.getD p 0) := by
  rw [State.evalDesc, List.foldl_reverse]
  induction cs with
  | nil => rfl
  | cons c cs ih =>
    obtain ⟨hc, hcs⟩ := List.forall_mem_cons.1 hcs
    have hentry (p : Nat) (hp : p < cs.length) : f^[v * p] (cs.getD p 0) ≤ s.fieldMax :=
      h.iter_le (forall_mem_iff_getD.1 hcs p hp) _
    rw [List.foldr_cons, ih hcs, mulV_comm, h.mulV_xorSum (h.walk_le v) hentry, List.length_cons, xorSum_succ_left,
      Nat.xor_comm]
    refine congrArg _ (xorSum_congr fun p hp => ?_)
    rw [h.mulV_walk v (hentry p hp), ← Function.iterate_add_apply, List.getD_cons_succ, Nat.mul_add_one, Nat.add_comm]

/-- The term that LSUBST adds for the logarithm of a nonzero coefficient (43_polynomial.md R207). -/
theorem exp_log_add_emod {c : Nat} (h1 : 1 ≤ c) (hc : c ≤ s.fieldMax) (e : Nat) :
    s.expAt (((s.logAt c : Int) + e) % s.fieldMax).toNat = f^[e] c := by
  have hm := h.max_ge
  have hmod : (s.logAt c + e) % s.fieldMax < s.fieldMax := Nat.mod_lt _ (by omega)
  rw [← Int.natCast_add, ← Int.natCast_emod, Int.toNat_natCast, h.exp_eq _ (by omega), h.walk_mod, Nat.add_comm,
    Function.iterate_add_apply, h.walk_log h1 hc]

/-- The word of a logarithm reads as that logarithm. -/
theorem s32_log {c : Nat} (h1 : 1 ≤ c) (hc : c ≤ s.fieldMax) : s32 (BitVec.ofNat 32 (s.logAt c)) = s.logAt c := by
  have hm := h.max_ge
  have hlog := h.log_lt h1 hc
  rw [← BitVec.ofInt_natCast]
  exact s32_u32 (by omega) (by omega)

end State.Field

end Sys2Proof.Machine
end

section
/-! PROOFS. What the generator is (44_generator.md R253), and that it vanishes at its roots (R256). -/

namespace Sys2Proof.Machine

/-- Settles O54: every root step multiplies the polynomial with its leading 1 by the root's factor. -/
theorem generatorIsProductOfRoots : Obligations.GeneratorIsProductOfRoots := by
  intro s hr hinv npar x h1 hn hx
  refine ⟨length_generator h1, ?_⟩
  rw [generator_eq h1]
  exact (hinv.field hr).evalDesc_belowLeading hn hx

variable {s : State}

/-- LSUBST of a polynomial whose coefficients are nonzero, given by their logarithms in ascending order, is the log
form of the polynomial's value (43_polynomial.md R207). -/
theorem exec_lsubst_of_logs {f : Nat → Nat} (hr : s.ready = true) (h : s.Field f) {cs : List Nat}
    (hcs : ∀ c ∈ cs, 1 ≤ c ∧ c ≤ s.fieldMax) (hlen : s.opU 3 = cs.length) (hfits : s.Fits (s.opU 1) (s.opU 3))
    (hv : s.opU 2 < s.fieldMax)
    (hword : ∀ r p, p < cs.length → s.word r (s.opU 1 + p) = BitVec.ofNat 32 (s.logAt (cs.getD p 0))) :
    exec .lsubst s = .next (afterResult (u32 (s.toLogf (s.evalDesc (f^[s.opU 2] 1) cs.reverse))) s) := by
  have hentry := forall_mem_iff_getD.1 hcs
  have hread (r : ReadSite) (p : Nat) (hp : p < cs.length) : s32 (s.word r (s.opU 1 + p)) = s.logAt (cs.getD p 0) := by
    rw [hword r p hp, h.s32_log (hentry p hp).1 (hentry p hp).2]
  have hgood (x : Nat) : ¬∃ i, i < s.opU 3 ∧ x = s.opU 1 + i ∧ ¬s.LogForm (s.word (.check 0) x) := by
    rintro ⟨p, hp, rfl, hbad⟩
    rw [hlen] at hp
    have hlog := h.log_lt (hentry p hp).1 (hentry p hp).2
    rw [State.LogForm, hread _ p hp] at hbad
    omega
  rw [(lsubstOutcome s hr).1 hfits hv hgood, h.evalDesc_reverse _ fun c hc => (hcs c hc).2, hlen]
  refine congrArg (fun v => Host.Outcome.next (afterResult (u32 (s.toLogf v)) s)) (xorSum_congr fun p hp => ?_)
  dsimp only
  rw [hread _ p hp, if_neg (by omega), ← Int.natCast_mul, h.exp_log_add_emod (hentry p hp).1 (hentry p hp).2]

/-- The generator's words are in the field. -/
theorem State.Field.generator_le {f : Nat → Nat} (h : s.Field f) {npar : Nat} (h1 : 1 ≤ npar)
    (hn : npar ≤ s.fieldMax) : ∀ c ∈ s.generator npar, c ≤ s.fieldMax :=
  generator_eq (s := s) h1 ▸ h.belowLeading_le hn

/-- The generator with its leading 1 is 0 at its roots (44_generator.md R256). -/
theorem State.Field.evalDesc_generator_root {f : Nat → Nat} (h : s.Field f) {npar k : Nat} (hn : npar ≤ s.fieldMax)
    (hk : k < npar) : s.evalDesc (f^[(s.symStart + k) % s.fieldMax] 1) (1 :: s.generator npar) = 0 := by
  have hsym := h.sym_lt
  have hroot : f^[s.symStart + k] 1 = s.expAt (s.symStart + k) := (h.exp_eq _ (by omega)).symm
  rw [h.walk_mod, generator_eq (by omega), h.evalDesc_belowLeading hn (h.walk_le _)]
  exact foldl_mulV_eq_zero hk (by rw [hroot, Nat.xor_self])

/-- Settles O55: LSUBST gives the generator's value at `α^(S+k)`, a root. -/
theorem generatorVanishesAtRoots : Obligations.GeneratorVanishesAtRoots := by
  intro s npar k hr hinv h1 hn hk hne hvalue hterms hfits hword hlead
  have h := hinv.field hr
  have hm := h.max_ge
  have hlen : (1 :: s.generator npar).length = npar + 1 := by rw [List.length_cons, length_generator h1]
  have hnonzero : ∀ c ∈ s.generator npar, c ≠ 0 :=
    forall_mem_iff_getD.2 fun j hj => hne j (length_generator (s := s) h1 ▸ hj)
  have hcoeff : ∀ c ∈ (1 :: s.generator npar).reverse, 1 ≤ c ∧ c ≤ s.fieldMax := by
    intro c hc
    obtain rfl | hc := List.mem_cons.1 (List.mem_reverse.1 hc)
    · omega
    · exact ⟨Nat.one_le_iff_ne_zero.2 (hnonzero c hc), h.generator_le h1 hn c hc⟩
  have hlogs : ∀ r p, p < (1 :: s.generator npar).reverse.length →
      s.word r (s.opU 1 + p) = BitVec.ofNat 32 (s.logAt ((1 :: s.generator npar).reverse.getD p 0)) := by
    intro r p hp
    rw [List.length_reverse] at hp
    rw [List.getD_reverse _ hp, hlen, Nat.add_sub_cancel]
    obtain rfl | hlt := Nat.eq_or_lt_of_le (Nat.le_of_lt_succ (hlen ▸ hp))
    · rw [Nat.sub_self, List.getD_cons_zero, h.log_one]
      exact hlead r
    · rw [hword r p hlt, show npar - p = npar - 1 - p + 1 by omega, List.getD_cons_succ]
  have hv : s.opU 2 < s.fieldMax := hvalue ▸ Nat.mod_lt _ (by omega)
  rw [exec_lsubst_of_logs hr h hcoeff (by rw [List.length_reverse, hlen, hterms]) (hterms ▸ hfits) hv hlogs,
    List.reverse_reverse, hvalue, h.evalDesc_generator_root hn hk]
  rfl

end Sys2Proof.Machine
end

section
/-! SUPPORT. The value of a polynomial as a field sum, highest degree first, and the value of a value-form product
(43_polynomial.md R205; 45_syndrome_forney.md R282, R283). -/

namespace Sys2Proof.Machine

variable {s : State}

/-! ### Field sums -/

/-- A field sum may be taken from the last index down. -/
theorem xorSum_reflect (n : Nat) (g : Nat → Nat) : xorSum n g = xorSum n fun j => g (n - 1 - j) := by
  induction n with
  | zero => rfl
  | succ n ih =>
    rw [xorSum_succ, xorSum_succ_left, ih, Nat.xor_comm]
    refine congrArg _ (xorSum_congr fun j _ => ?_)
    rw [show n + 1 - 1 - (j + 1) = n - 1 - j by omega]

/-- The order of two field sums may be exchanged. -/
theorem xorSum_comm (n m : Nat) (g : Nat → Nat → Nat) :
    (xorSum n fun i => xorSum m fun j => g i j) = xorSum m fun j => xorSum n fun i => g i j := by
  induction n with
  | zero => simp
  | succ n ih => simp only [xorSum_succ, xorSum_xor, ih]

theorem xorSum_add (n m : Nat) (g : Nat → Nat) : xorSum (n + m) g = xorSum n g ^^^ xorSum m fun j => g (n + j) := by
  induction m with
  | zero => simp
  | succ m ih => rw [← Nat.add_assoc, xorSum_succ, ih, xorSum_succ, Nat.xor_assoc]

/-- A field sum whose terms are 0 outside the indices `a, …, a + m - 1` is the sum over those. -/
theorem xorSum_window {n a m : Nat} (hn : a + m ≤ n) (g : Nat → Nat) :
    (xorSum n fun k => if a ≤ k ∧ k - a < m then g k else 0) = xorSum m fun b => g (a + b) := by
  obtain ⟨r, rfl⟩ := Nat.exists_eq_add_of_le hn
  have hbelow : (xorSum a fun k => if a ≤ k ∧ k - a < m then g k else 0) = 0 :=
    (xorSum_congr fun k hk => if_neg (by omega)).trans (xorSum_const_zero a)
  have habove : (xorSum r fun k => if a ≤ a + m + k ∧ a + m + k - a < m then g (a + m + k) else 0) = 0 :=
    (xorSum_congr fun k _ => if_neg (by omega)).trans (xorSum_const_zero r)
  rw [xorSum_add, xorSum_add, hbelow, habove, Nat.zero_xor, Nat.xor_zero]
  exact xorSum_congr fun b hb => if_pos (by omega)

namespace State.Field

variable {f : Nat → Nat} (h : s.Field f)
include h

/-! ### Values -/

/-- A power of α times a product is that power times its first factor, times the second. -/
theorem iter_mulV (p : Nat) {a b : Nat} (ha : a ≤ s.fieldMax) (hb : b ≤ s.fieldMax) :
    f^[p] (s.mulV a b) = s.mulV (f^[p] a) b := by
  rw [← h.mulV_walk p (h.mulV_le ha hb), ← h.mulV_assoc (h.walk_le p) ha hb, h.mulV_walk p ha]

/-- The powers of α taken with two factors add in the product. -/
theorem iter_add_mulV (p q : Nat) {a b : Nat} (ha : a ≤ s.fieldMax) (hb : b ≤ s.fieldMax) :
    f^[p + q] (s.mulV a b) = s.mulV (f^[p] a) (f^[q] b) := by
  rw [Function.iterate_add_apply, mulV_comm a b, h.iter_mulV q hb ha, mulV_comm _ a, h.iter_mulV p ha (h.iter_le hb q)]

theorem iter_xorSum (p : Nat) {n : Nat} {g : Nat → Nat} (hg : ∀ i, i < n → g i ≤ s.fieldMax) :
    f^[p] (xorSum n g) = xorSum n fun i => f^[p] (g i) := by
  rw [← h.mulV_walk p (h.xorSum_le hg), h.mulV_xorSum (h.walk_le p) hg]
  exact xorSum_congr fun i hi => h.mulV_walk p (hg i hi)

/-- Horner's rule at `α^v`: coefficient `j` of `n` goes with the power `n - 1 - j` (45_syndrome_forney.md R282). -/
theorem evalDesc_eq_xorSum (v : Nat) {cs : List Nat} (hcs : ∀ c ∈ cs, c ≤ s.fieldMax) :
    s.evalDesc (f^[v] 1) cs = xorSum cs.length fun j => f^[v * (cs.length - 1 - j)] (cs.getD j 0) := by
  have hasc := h.evalDesc_reverse v (cs := cs.reverse) fun c hc => hcs c (List.mem_reverse.1 hc)
  rw [List.reverse_reverse, List.length_reverse, xorSum_reflect] at hasc
  rw [hasc]
  refine xorSum_congr fun j hj => ?_
  rw [List.getD_reverse _ (by omega), show cs.length - 1 - (cs.length - 1 - j) = j by omega]

end State.Field

end Sys2Proof.Machine
end

section
/-! SUPPORT. The Horner loop of SYND (45_syndrome_forney.md R280) as the value of the block's polynomial, and its value
on a product of two polynomials. -/

namespace Sys2Proof.Machine

variable {s : State}

theorem valueForm_getD {ws : List Word} (hws : ∀ w ∈ ws, s.ValueForm w) {j : Nat} (hj : j < ws.length) :
    s.ValueForm (ws.getD j 0) := by
  rw [List.getD_eq_getElem _ _ hj]
  exact hws _ (List.getElem_mem hj)

/-- Numbers in the field's range are value forms when made words. -/
theorem valueForm_map_ofNat {cs : List Nat} (hcs : ∀ c ∈ cs, c ≤ s.fieldMax) :
    ∀ w ∈ cs.map fun v => BitVec.ofNat 32 v, s.ValueForm w :=
  List.forall_mem_map.2 fun c hc => (Nat.mod_le c _).trans (hcs c hc)

namespace State.Field

variable {f : Nat → Nat} (h : s.Field f) {i : Nat}
include h

/-- Field elements made words read back as themselves. -/
theorem map_toNat_map_ofNat {cs : List Nat} (hcs : ∀ c ∈ cs, c ≤ s.fieldMax) :
    (cs.map fun v => BitVec.ofNat 32 v).map BitVec.toNat = cs := by
  have hm := h.max_ge
  rw [List.map_map]
  refine (List.map_congr_left fun c hc => ?_).trans (List.map_id cs)
  have hc := hcs c hc
  exact Nat.mod_eq_of_lt (by omega)

/-- The Horner loop at `α^i` is the value of the block's polynomial. -/
theorem syndrome_eq_evalDesc (hi : i ≤ s.fieldMax) {block : List Word} (hblock : ∀ x ∈ block, s.ValueForm x) :
    s.syndrome i block = s.evalDesc (f^[i] 1) (block.map BitVec.toNat) := by
  have hloop {z : Nat} (hz : z ≤ s.fieldMax) :
      block.foldl (fun wk x => x.toNat ^^^ s.mulExpV wk i) z
        = (block.map BitVec.toNat).foldl (fun acc c => s.mulV acc (f^[i] 1) ^^^ c) z := by
    induction block generalizing z with
    | nil => rfl
    | cons x xs ih =>
      obtain ⟨hx, hxs⟩ := List.forall_mem_cons.1 hblock
      rw [List.foldl_cons, List.map_cons, List.foldl_cons, h.mulExpV_eq hz hi, Nat.xor_comm]
      exact ih hxs (h.xor_le (h.mulV_le hz (h.walk_le i)) hx)
  exact hloop (Nat.zero_le _)

/-- On numbers made words, the Horner loop is the value of the polynomial with those coefficients. -/
theorem syndrome_map_ofNat (hi : i ≤ s.fieldMax) {cs : List Nat} (hcs : ∀ c ∈ cs, c ≤ s.fieldMax) :
    s.syndrome i (cs.map fun v => BitVec.ofNat 32 v) = s.evalDesc (f^[i] 1) cs := by
  rw [h.syndrome_eq_evalDesc hi (valueForm_map_ofNat hcs), h.map_toNat_map_ofNat hcs]

/-- Symbol `j` of a block of `n` goes with the power `n - 1 - j` of `α^i` (45_syndrome_forney.md R282, R283). -/
theorem syndrome_eq_xorSum (hi : i ≤ s.fieldMax) {block : List Word} (hblock : ∀ x ∈ block, s.ValueForm x) :
    s.syndrome i block
      = xorSum block.length fun j => f^[i * (block.length - 1 - j)] (block.getD j 0).toNat := by
  rw [h.syndrome_eq_evalDesc hi hblock, h.evalDesc_eq_xorSum i (List.forall_mem_map.2 hblock), List.length_map]
  exact xorSum_congr fun j _ => congrArg _ (List.getD_map block (0 : Word) BitVec.toNat)

/-! ### Products -/

/-- What coefficient `x` of the first factor, at index `a`, adds to the value of a product of `n` coefficients. -/
theorem xorSum_termV_row (hi : i ≤ s.fieldMax) {x : Word} {ys : List Word} {a n : Nat} (hx : s.ValueForm x)
    (hys : ∀ y ∈ ys, s.ValueForm y) (hn : a + ys.length ≤ n) :
    (xorSum n fun k => f^[i * (n - 1 - k)]
        (if a ≤ k ∧ k - a < ys.length then (s.termV x (ys.getD (k - a) 0)).getD 0 else 0))
      = s.mulV (f^[i * (n - a - ys.length)] x.toNat) (s.syndrome i ys) := by
  have hentry {b : Nat} (hb : b < ys.length) : (ys.getD b 0).toNat ≤ s.fieldMax := valueForm_getD hys hb
  rw [h.syndrome_eq_xorSum hi hys, h.mulV_xorSum (h.iter_le hx _) fun b hb => h.iter_le (hentry hb) _]
  simp only [apply_ite (f^[_]), h.iter_zero, xorSum_window hn]
  refine xorSum_congr fun b hb => ?_
  rw [getD_termV, Nat.add_sub_cancel_left, ← h.iter_add_mulV _ _ hx (hentry hb), ← Nat.mul_add]
  congr 3
  omega

/-- The syndrome of a product is the product of the syndromes, when the product has room for all its coefficients. -/
theorem syndrome_convolve (hi : i ≤ s.fieldMax) {xs ys : List Word} {n : Nat} (hxs : ∀ x ∈ xs, s.ValueForm x)
    (hys : ∀ y ∈ ys, s.ValueForm y) (hn : xs.length + ys.length = n + 1) :
    s.syndrome i ((convolve s.termV xs ys n).map fun v => BitVec.ofNat 32 v)
      = s.mulV (s.syndrome i xs) (s.syndrome i ys) := by
  have hcoeff := h.convolve_termV_le (len := n) hxs hys
  have hterm {a k : Nat} (ha : a < xs.length) : (if a ≤ k ∧ k - a < ys.length then
      (s.termV (xs.getD a 0) (ys.getD (k - a) 0)).getD 0 else 0) ≤ s.fieldMax := by
    split
    next hpair => exact getD_termV .. ▸ h.mulV_le (valueForm_getD hxs ha) (valueForm_getD hys hpair.2)
    next => exact Nat.zero_le _
  have hsyn : s.syndrome i ys ≤ s.fieldMax :=
    h.syndrome_eq_xorSum hi hys ▸ h.xorSum_le fun b hb => h.iter_le (valueForm_getD hys hb) _
  calc s.syndrome i ((convolve s.termV xs ys n).map fun v => BitVec.ofNat 32 v)
      = xorSum n fun k => f^[i * (n - 1 - k)] ((convolve s.termV xs ys n).getD k 0) := by
        rw [h.syndrome_map_ofNat hi hcoeff, h.evalDesc_eq_xorSum i hcoeff, length_convolve]
    _ = xorSum n fun k => xorSum xs.length fun a => f^[i * (n - 1 - k)] (if a ≤ k ∧ k - a < ys.length then
          (s.termV (xs.getD a 0) (ys.getD (k - a) 0)).getD 0 else 0) :=
        xorSum_congr fun k hk => by rw [getD_convolve _ _ _ hk, h.iter_xorSum _ fun a ha => hterm ha]
    _ = xorSum xs.length fun a => s.mulV (f^[i * (n - a - ys.length)] (xs.getD a 0).toNat) (s.syndrome i ys) := by
        rw [xorSum_comm]
        exact xorSum_congr fun a ha => h.xorSum_termV_row hi (valueForm_getD hxs ha) hys (by omega)
    _ = s.mulV (s.syndrome i xs) (s.syndrome i ys) := by
        rw [h.syndrome_eq_xorSum hi hxs, mulV_comm _ (s.syndrome i ys),
          h.mulV_xorSum hsyn fun a ha => h.iter_le (valueForm_getD hxs ha) _]
        refine xorSum_congr fun a ha => ?_
        rw [mulV_comm, show n - a - ys.length = xs.length - 1 - a by omega]

end State.Field

end Sys2Proof.Machine
end

section
/-! PROOFS. SYND (45_syndrome_forney.md R280): its checks in their order, then its stores and its verdict; what a
syndrome is, and that a codeword's syndromes are 0 (R283). -/

namespace Sys2Proof.Machine

variable {s : State}

/-! ### SYND -/

@[simp] theorem length_syndromes (njar data len : Nat) : (s.syndromes njar data len).length = njar := by
  simp [State.syndromes]

theorem getD_syndromes {njar data len i : Nat} (hi : i < njar) :
    (s.syndromes njar data len).getD i 0 = s.syndrome i (s.words (.use 0 i) data len) := by
  simp [State.syndromes, hi]

/-- SYND's verdict is that every syndrome is 0. -/
theorem all_syndromes_iff {njar data len : Nat} :
    (s.syndromes njar data len).all (· == 0) = true
      ↔ ∀ i, i < njar → s.syndrome i (s.words (.use 0 i) data len) = 0 := by
  simp [State.syndromes]

/-- A pass of SYND, by the indices of the words it reads. -/
theorem syndrome_words (r : ReadSite) (i data len : Nat) :
    s.syndrome i (s.words r data len) = (List.range len).foldl
      (fun wk j => (s.word r (data + j)).toNat ^^^ (if wk = 0 then 0 else s.expAt (s.logAt wk + i))) 0 := by
  rw [State.syndrome, State.words, List.foldl_map]
  rfl

/-- Settles O56: the check of `njar`, the two region checks, the overlap check, the element check, then the syndromes
and the verdict on them. -/
theorem syndOutcome : Obligations.SyndOutcome := by
  intro s hr dst data len njar fits apart bad syn
  have hbad : ∀ x, bad x ↔ ∃ c ∈ s.cells (.check 0) data len, c.1 = x ∧ ¬s.isValue c.2 = true :=
    fun x => bad_iff_cells (Good := s.ValueForm) fun _ => isValue_iff
  have hsyn (i : Nat) : s.syndrome i (s.words (.use 0 i) data len) = syn i := syndrome_words ..
  have hchecks {k : Unit → Rule} (hn : njar ≤ s.fieldMax) (hfits : fits) (hapart : apart) :
      (require (decide (njar ≤ s.fieldMax)) .length 4 >>= fun _ => s.checkRegion dst njar >>= fun _ =>
        s.checkRegion data len >>= fun _ => checkDisjoint dst njar data len >>= k) = k () := by
    rw [require_decide_ok hn, checkRegion_ok hfits.1, checkRegion_ok hfits.2, checkDisjoint_ok hapart]
  refine ⟨fun hn hfits hapart hall => ?_, fun hn => ?_, fun hn hfits => ?_, fun hn hfits hapart => ?_,
    fun hn hfits hapart x hx => ?_⟩
  · refine ⟨_, runCommand_effect hr ((hchecks hn hfits hapart).trans (checkCells_ok_of_forall_not hbad hall)), ?_⟩
    have hstored (verdict : Word) := (storedRegion_map s dst (length_syndromes (s := s) njar data len)
      (fun v => BitVec.ofNat 32 v) (some verdict)).congr (out' := fun i => BitVec.ofNat 32 (syn i))
      fun i hi => by rw [getD_syndromes hi, hsyn]
    have hverdict := all_syndromes_iff (s := s) (njar := njar) (data := data) (len := len)
    simp only [hsyn] at hverdict
    by_cases hzero : ∀ i, i < njar → syn i = 0
    · rw [if_pos (hverdict.2 hzero)]
      exact .inl ⟨hzero, hstored 1⟩
    · rw [if_neg (mt hverdict.1 hzero)]
      push Not at hzero
      exact .inr ⟨hzero, hstored 0⟩
  · exact runCommand_error (rule := ruleSynd) hr (require_decide_error hn.not_ge)
  · exact runCommand_error (rule := ruleSynd) hr ((require_decide_ok hn).trans (checkRegion_two_error hfits))
  · exact runCommand_error (rule := ruleSynd) hr ((require_decide_ok hn).trans ((checkRegion_ok hfits.1).trans
      ((checkRegion_ok hfits.2).trans (checkDisjoint_error (not_not.1 hapart)))))
  · exact runCommand_error (rule := ruleSynd) hr ((hchecks hn hfits hapart).trans (checkCells_error hbad hx))

/-! ### What a syndrome is -/

theorem length_zipWith_xor {xs ys : List Word} (hlen : xs.length = ys.length) :
    (List.zipWith (· ^^^ ·) xs ys).length = xs.length := by simp [hlen]

theorem toNat_getD_zipWith_xor {xs ys : List Word} (hlen : xs.length = ys.length) {j : Nat} (hj : j < xs.length) :
    ((List.zipWith (· ^^^ ·) xs ys).getD j 0).toNat = (xs.getD j 0).toNat ^^^ (ys.getD j 0).toNat := by
  rw [List.getD_eq_getElem _ _ ((length_zipWith_xor hlen).symm ▸ hj), List.getElem_zipWith, BitVec.toNat_xor,
    List.getD_eq_getElem _ _ hj, List.getD_eq_getElem _ _ (hlen ▸ hj)]

/-- The sum of two blocks in the field is in the field. -/
theorem State.Field.valueForm_zipWith_xor {f : Nat → Nat} (h : s.Field f) {xs ys : List Word}
    (hlen : xs.length = ys.length) (hxs : ∀ x ∈ xs, s.ValueForm x) (hys : ∀ y ∈ ys, s.ValueForm y) :
    ∀ w ∈ List.zipWith (· ^^^ ·) xs ys, s.ValueForm w := by
  intro w hw
  obtain ⟨j, hj, rfl⟩ := List.getElem_of_mem hw
  have hj' : j < xs.length := length_zipWith_xor hlen ▸ hj
  rw [← List.getD_eq_getElem _ 0 hj, State.ValueForm, toNat_getD_zipWith_xor hlen hj']
  exact h.xor_le (valueForm_getD hxs hj') (valueForm_getD hys (hlen ▸ hj'))

/-- Settles O57: the syndrome is the sum over the block's symbols, each times its power of `α^i`, and every term of the
sum is linear. -/
theorem syndromeEvaluatesBlock : Obligations.SyndromeEvaluatesBlock := by
  intro s i hr hinv hi
  have h := hinv.field hr
  refine ⟨fun block hblock => ?_, fun xs ys hlen hxs hys => ?_⟩
  · rw [h.syndrome_eq_xorSum hi.le hblock]
    refine xorSum_congr fun j hj => ?_
    have hmod := Nat.mod_lt (i * (block.length - 1 - j)) (Nat.zero_lt_of_lt hi)
    rw [h.exp_eq _ (by omega), h.walk_mod, State.Field.mulV_comm, h.mulV_walk _ (valueForm_getD hblock hj)]
  · have hterm {ws : List Word} (hws : ∀ w ∈ ws, s.ValueForm w) {j : Nat} (hj : j < ws.length) :
        (ws.getD j 0).toNat ≤ s.fieldMax := valueForm_getD hws hj
    rw [h.syndrome_eq_xorSum hi.le (h.valueForm_zipWith_xor hlen hxs hys), h.syndrome_eq_xorSum hi.le hxs,
      h.syndrome_eq_xorSum hi.le hys, length_zipWith_xor hlen, ← hlen, ← xorSum_xor]
    refine xorSum_congr fun j hj => ?_
    rw [toNat_getD_zipWith_xor hlen hj, h.iter_xor _ (hterm hxs hj) (hterm hys (hlen ▸ hj))]

/-- Settles O58: the syndrome of the product is the data's times the generator's, and `α^i` is a root of the
generator. -/
theorem codewordSyndromesVanish : Obligations.CodewordSyndromesVanish := by
  intro s npar i data hr hinv hsym h1 hn hi hdata
  have h := hinv.field hr
  have hm := h.max_ge
  have hgen : ∀ c ∈ 1 :: s.generator npar, c ≤ s.fieldMax :=
    List.forall_mem_cons.2 ⟨by omega, h.generator_le h1 hn⟩
  have hroot := h.evalDesc_generator_root hn hi
  rw [hsym, Nat.zero_add, h.walk_mod, ← h.syndrome_map_ofNat (by omega) hgen] at hroot
  rw [h.syndrome_convolve (by omega) hdata (valueForm_map_ofNat hgen), hroot, State.Field.mulV_zero_right]
  simp [length_generator h1, Nat.add_assoc]

end Sys2Proof.Machine
end

section
/-! PROOFS. FORNEY (45_syndrome_forney.md R281): its checks in their order, then its RESULT; and that it returns a
single error (R284). -/

namespace Sys2Proof.Machine

variable {s : State}

/-! ### The words FORNEY reads -/

/-- FORNEY checks the odd words of sigma up to the index `h` (R281). -/
theorem mem_sigmaCells {sigma h : Nat} {c : Nat × Word} :
    c ∈ s.sigmaCells sigma h ↔ ∃ k, k ≤ h ∧ k % 2 = 1 ∧ c = (sigma + k, s.word (.check 0) (sigma + k)) := by
  simp only [State.sigmaCells, List.mem_map, List.mem_filter, List.mem_range, beq_iff_eq, Nat.lt_succ_iff, and_assoc,
    eq_comm (b := c)]

/-- A bad address of sigma is the address of a sigma cell that the element check refuses. -/
theorem bad_iff_sigmaCells {sigma h x : Nat} :
    (∃ k, k ≤ h ∧ k % 2 = 1 ∧ x = sigma + k ∧ ¬s.ValueForm (s.word (.check 0) x))
      ↔ ∃ c ∈ s.sigmaCells sigma h, c.1 = x ∧ ¬s.isValue c.2 = true := by
  constructor
  · rintro ⟨k, hk, hodd, rfl, hbad⟩
    exact ⟨_, mem_sigmaCells.2 ⟨k, hk, hodd, rfl⟩, rfl, mt isValue_iff.1 hbad⟩
  · rintro ⟨c, hc, rfl, hbad⟩
    obtain ⟨k, hk, hodd, rfl⟩ := mem_sigmaCells.1 hc
    exact ⟨k, hk, hodd, rfl, mt isValue_iff.2 hbad⟩

/-! ### The two sums -/

/-- A fold over the indices that pass a test, from the term of index 0, is a field sum. -/
theorem foldl_filter_range_of_pos {n : Nat} (hn : n ≠ 0) {p : Nat → Bool} (h0 : p 0 = false) (g : Nat → Nat)
    (z : Nat) :
    ((List.range n).filter p).foldl (fun acc j => acc ^^^ g j) z
      = xorSum n fun j => if j = 0 then z else if p j then g j else 0 := by
  obtain ⟨m, rfl⟩ := Nat.exists_eq_succ_of_ne_zero hn
  rw [foldl_filter_range, xorSum_succ_left, xorSum_succ_left, h0]
  simp

theorem forneyOv_eq_xorSum {jisu : Nat} (hn : jisu ≠ 0) (omega zlog : Nat) :
    s.forneyOv omega zlog jisu = xorSum jisu fun j =>
      if j = 0 then (s.word (.use 1 0) omega).toNat
      else s.mulExpV (s.word (.use 1 0) (omega + j)).toNat ((zlog * j) % s.fieldMax) := by
  rw [State.forneyOv, foldl_filter_range_of_pos hn rfl]
  refine xorSum_congr fun j _ => ?_
  by_cases hj : j = 0
  · rw [if_pos hj, if_pos hj]
  · rw [if_neg hj, if_neg hj, if_pos (decide_eq_true (Nat.one_le_iff_ne_zero.2 hj))]

theorem forneyDv_eq_xorSum {jisu : Nat} (hn : jisu ≠ 0) (sigma zlog : Nat) :
    s.forneyDv sigma zlog jisu = xorSum jisu fun j =>
      if j = 0 then (s.word (.use 0 0) (sigma + 1)).toNat
      else if j % 2 = 0 then s.mulExpV (s.word (.use 0 0) (sigma + j + 1)).toNat ((zlog * j) % s.fieldMax)
      else 0 := by
  rw [State.forneyDv, foldl_filter_range_of_pos hn rfl]
  refine xorSum_congr fun j _ => ?_
  have htest (hj : j ≠ 0) : (decide (2 ≤ j) && j % 2 == 0) = true ↔ j % 2 = 0 := by
    simp only [Bool.and_eq_true, decide_eq_true_eq, beq_iff_eq]
    omega
  by_cases hj : j = 0
  · rw [if_pos hj, if_pos hj]
  · simp only [if_neg hj, htest hj, ← Nat.add_assoc]

/-! ### FORNEY -/

/-- Settles O59: the check of `jisu`, the two region checks, the check of `ps`, the element check, the checks for a
position 0 and for a derivative 0, then the magnitude. -/
theorem forneyOutcome : Obligations.ForneyOutcome := by
  intro s hr sigma omega jisu ps h fits bad zlog ov dv
  have hbad : ∀ x, bad x ↔
      ∃ c ∈ s.cells (.check 1) omega jisu ++ s.sigmaCells sigma h, c.1 = x ∧ ¬s.isValue c.2 = true := by
    intro x
    simp only [bad, bad_iff_sigmaCells, bad_iff_cells (Good := s.ValueForm) fun _ => isValue_iff, List.mem_append,
      or_and_right, exists_or]
  have hchecks {k : Unit → Rule} (hn : jisu ≠ 0) (hfits : fits) (hps : s.ValueForm (s.a 4)) :
      (require (jisu != 0) .length 3 >>= fun _ => s.checkRegion sigma (h + 1) >>= fun _ =>
        s.checkRegion omega jisu >>= fun _ => s.checkV 4 >>= k) = k () := by
    rw [require_ne_zero_ok hn, checkRegion_ok hfits.1, checkRegion_ok hfits.2, checkV_ok hps]
  have hov (hn : jisu ≠ 0) : s.forneyOv omega zlog jisu = ov := forneyOv_eq_xorSum hn ..
  have hdv (hn : jisu ≠ 0) : s.forneyDv sigma zlog jisu = dv := forneyDv_eq_xorSum hn ..
  refine ⟨fun hn hfits hps hall h0 hd => ?_, fun hn => ?_, fun hn hfits => ?_, fun hn hfits hps => ?_,
    fun hn hfits hps x hx => ?_, fun hn hfits hall h0 => ?_, fun hn hfits hps hall h0 hd => ?_⟩
  · rw [← hov hn, ← hdv hn]
    exact runCommand_result hr ((hchecks hn hfits hps).trans ((checkCells_ok_of_forall_not hbad hall).trans
      ((require_ne_zero_ok h0).trans (require_ne_zero_ok ((hdv hn).trans_ne hd)))))
  · exact runCommand_error (rule := ruleForney) hr (require_ne_zero_error hn)
  · exact runCommand_error (rule := ruleForney) hr ((require_ne_zero_ok hn).trans (checkRegion_two_error hfits))
  · exact runCommand_error (rule := ruleForney) hr ((require_ne_zero_ok hn).trans ((checkRegion_ok hfits.1).trans
      ((checkRegion_ok hfits.2).trans (checkV_error hps))))
  · exact runCommand_error (rule := ruleForney) hr ((hchecks hn hfits hps).trans (checkCells_error hbad hx))
  · have hps : ps ≤ s.fieldMax := h0 ▸ Nat.zero_le _
    exact runCommand_error (rule := ruleForney) hr ((hchecks hn hfits hps).trans
      ((checkCells_ok_of_forall_not hbad hall).trans (require_ne_zero_error h0)))
  · exact runCommand_error (rule := ruleForney) hr ((hchecks hn hfits hps).trans
      ((checkCells_ok_of_forall_not hbad hall).trans ((require_ne_zero_ok h0).trans
        (require_ne_zero_error ((hdv hn).trans hd)))))

/-! ### A single error -/

/-- MUL undoes DIV. -/
theorem State.Field.mulV_divV {f : Nat → Nat} (h : s.Field f) {a b : Nat} (h1 : 1 ≤ a) (ha : a ≤ s.fieldMax)
    (h2 : 1 ≤ b) (hb : b ≤ s.fieldMax) : s.mulV b (s.divV a b) = a := by
  have hlogA := h.log_lt h1 ha
  have hlogB := h.log_lt h2 hb
  rw [h.divV_eq h2 hb, if_neg (by omega), h.exp_eq _ (by omega), h.mulV_eq_iter h2 hb (h.walk_le _),
    ← Function.iterate_add_apply, Nat.add_sub_cancel' (by omega), h.walk_add_max, h.walk_log h1 ha]

/-- Settles O60: both sums are their first terms, `E` and `ps`, so the magnitude is `ps` times the quotient of `E` by
`ps`. -/
theorem forneySingleErrorReturnsError : Obligations.ForneySingleErrorReturnsError := by
  intro s E hr hinv hE h0 hjisu hsigma homega h1 hps hread
  simp only [forall_and] at hread
  obtain ⟨-, hlocator, hevaluator⟩ := hread
  have hgood (x : Nat) : ¬((∃ j, j < 1 ∧ x = s.opU 2 + j ∧ ¬s.ValueForm (s.word (.check 1) x))
      ∨ ∃ k, k ≤ 1 ∧ k % 2 = 1 ∧ x = s.opU 1 + k ∧ ¬s.ValueForm (s.word (.check 0) x)) := by
    rintro (⟨j, hj, rfl, hbad⟩ | ⟨k, hk, hodd, rfl, hbad⟩)
    · obtain rfl : j = 0 := by omega
      exact hbad ((hevaluator _).symm ▸ hE)
    · obtain rfl : k = 1 := by omega
      exact hbad ((hlocator _).symm ▸ hps)
  have hps0 : s.opU 4 ≠ 0 := Nat.one_le_iff_ne_zero.1 h1
  have hE1 : 1 ≤ E.toNat := Nat.one_le_iff_ne_zero.2 (mt word_toNat_eq_zero.1 h0)
  have hquotient : s.mulV (s.opU 4) (s.divV E.toNat (s.a 4).toNat) = E.toNat := (hinv.field hr).mulV_divV hE1 hE h1 hps
  obtain ⟨hmagnitude, -⟩ := forneyOutcome s hr
  simp only [hjisu, Nat.one_mod, if_true, xorSum_succ, xorSum_zero, Nat.zero_xor, hlocator, hevaluator] at hmagnitude
  rw [hmagnitude one_ne_zero ⟨hsigma, homega⟩ hps hgood hps0 hps0, hquotient, BitVec.ofNat_toNat,
    BitVec.setWidth_eq]

end Sys2Proof.Machine
end

section
/-! PROOFS. Faults and completion (60_exceptions.md R300–R305, R313): a command's frame, the field under host
accesses, and the bound on a command's life. -/

namespace Sys2Proof.Machine

variable {s t : State} {i : Instr}

/-! ### Faults -/

/-- Settles O23: NOT_READY is the first check of every command but BUILD. -/
theorem notReadyFaults : Obligations.NotReadyFaults := by
  intro s i hi hr
  rw [exec_eq_runCommand hi, runCommand, hr]
  rfl

/-- A completion with ERR, where ERR was 0, is a fault; BUILD's also drops the field. -/
theorem ExecEffect.fault_of_err (h : ExecEffect i s t) (hs : s.err = false) (ht : t.err = true) :
    (i ≠ .build ∧ ∃ f, t = takeFault f s) ∨ (i = .build ∧ ∃ f, t = takeFault f (dropField s)) := by
  cases h with
  | fault f hi h => exact .inl ⟨hi, f, h⟩
  | buildFault f hi _ h => exact .inr ⟨hi, f, h⟩
  | effect e _ _ _ h =>
    have herr : t.err = s.err := h ▸ rfl
    exact absurd ht (by simp [herr, hs])
  | field tables _ _ h =>
    have herr : t.err = s.err := h ▸ rfl
    exact absurd ht (by simp [herr, hs])

/-- No command writes what the host alone writes, its latch or CMDL. -/
theorem ExecEffect.hostFields_eq (h : ExecEffect i s t) :
    t.ie = s.ie ∧ t.args = s.args ∧ t.paddr = s.paddr ∧ t.latch = s.latch ∧ t.cmdl = s.cmdl := by
  cases h with
  | fault _ _ h | effect _ _ _ _ h | buildFault _ _ _ h | field _ _ _ h => exact h ▸ ⟨rfl, rfl, rfl, rfl, rfl⟩

/-- Settles O20: a completion that raises ERR is the shared taking of a fault, for BUILD after the field is dropped. -/
theorem faultsArePrecise : Obligations.FaultsArePrecise := by
  refine ⟨fun s t i hi hs h ht => ?_, fun s t hs h ht => ?_, fun s t i h => (exec_effect_of_next h).hostFields_eq⟩
  · rcases (exec_effect_of_next h).fault_of_err hs ht with ⟨-, f, rfl⟩ | ⟨hbuild, -⟩
    · rfl
    · exact absurd hbuild hi
  · rcases (exec_effect_of_next h).fault_of_err hs ht with ⟨hne, -⟩ | ⟨-, f, rfl⟩
    · exact absurd rfl hne
    · rfl

/-! ### The current field -/

/-- No host access changes the descriptor or the tables. -/
theorem AccessEffect.field_eq {a : BusAccess} (h : AccessEffect a s t) :
    t.fw = s.fw ∧ t.fpoly = s.fpoly ∧ t.fsym = s.fsym ∧ t.fmax = s.fmax ∧ t.exp = s.exp ∧ t.log = s.log := by
  cases h with
  | answer _ _ h | protocol _ _ h | pdataRead _ _ _ h | pdataWrite _ _ _ _ h | ctrl _ _ h | status _ _ h
  | accepted _ _ _ h | arg _ _ _ h | paddr _ _ h => exact h ▸ ⟨rfl, rfl, rfl, rfl, rfl, rfl⟩

/-- Of all host accesses, only the acceptance of BUILD's word clears READY (30_encoding.md R110). -/
theorem AccessEffect.ready_eq_or {a : BusAccess} (h : AccessEffect a s t) :
    t.ready = s.ready ∨ (t.ready = false ∧ a = BusAccess.write 0x010 0x00000001 ∧ s.busy = false) := by
  cases h with
  | accepted c ha hb h =>
    have hready : t.ready = (s.ready && !(c == 0x00000001)) := h ▸ rfl
    by_cases hc : c = 1#32
    · exact .inr ⟨by simp [hready, hc], ha.trans (congrArg _ hc), hb⟩
    · exact .inl (by simp [hready, hc])
  | answer _ _ h | protocol _ _ h | pdataRead _ _ _ h | pdataWrite _ _ _ _ h | ctrl _ _ h | status _ _ h
  | arg _ _ _ h | paddr _ _ h => exact .inl (h ▸ rfl)

/-- Settles O19: of completions only BUILD's touch the field, of accesses only an acceptance touches READY. -/
theorem onlyBuildChangesField : Obligations.OnlyBuildChangesField := by
  refine ⟨fun s t i hi h => ?_, fun s t a rest hs h => ?_⟩
  · cases exec_effect_of_next h with
    | fault _ _ h | effect _ _ _ _ h => exact h ▸ ⟨rfl, rfl, rfl, rfl, rfl, rfl, rfl⟩
    | buildFault _ hbuild _ _ | field _ hbuild _ _ => exact absurd hbuild hi
  · rw [step_of_events hs] at h
    obtain rfl := Host.Outcome.next.inj h
    have heffect := hostAccess_effect a { s with events := rest }
    obtain ⟨hfw, hfpoly, hfsym, hfmax, hexp, hlog⟩ := heffect.field_eq
    exact ⟨hfw, hfpoly, hfsym, hfmax, hexp, hlog, heffect.ready_eq_or⟩

/-! ### Progress -/

/-- The engine's turn always answers, and no command runs after it. -/
theorem engineTurn_answers (s : State) : ∃ t, engineTurn s = .next t ∧ t.busy = false := by
  by_cases hb : s.busy = true
  · rw [engineTurn, if_pos hb]
    rcases engineStep_cases s with ⟨i, -, he⟩ | ⟨-, he⟩
    · obtain ⟨t, ht, -⟩ := exec_effect i s
      obtain ⟨hbusy, -⟩ := completionSetsDone s t i ht
      exact ⟨t, he.trans ht, hbusy⟩
    · exact ⟨_, he, rfl⟩
  · have hidle := Bool.eq_false_of_not_eq_true hb
    exact ⟨s, engineTurn_idle hidle, hidle⟩

/-- No host access changes the schedule. -/
theorem AccessEffect.events_eq {a : BusAccess} (h : AccessEffect a s t) : t.events = s.events := by
  cases h with
  | answer _ _ h | protocol _ _ h | pdataRead _ _ _ h | pdataWrite _ _ _ _ h | ctrl _ _ h | status _ _ h
  | accepted _ _ _ h | arg _ _ _ h | paddr _ _ h => exact h ▸ rfl

/-- A step always answers, and after it either no command runs or the schedule is one event shorter. -/
theorem step_answers (s : State) :
    ∃ t, step s = .next t ∧ (t.busy = false ∨ t.events.length + 1 = s.events.length) := by
  cases hs : s.events with
  | nil =>
    obtain ⟨t, ht, hb⟩ := engineTurn_answers s
    exact ⟨t, (step_of_events_nil hs).trans ht, .inl hb⟩
  | cons e rest =>
    rw [step_of_events hs]
    cases e with
    | access a =>
      have hevents := (hostAccess_effect a { s with events := rest }).events_eq
      exact ⟨_, rfl, .inr (by rw [hevents, List.length_cons])⟩
    | engine =>
      obtain ⟨t, ht, hb⟩ := engineTurn_answers { s with events := rest }
      exact ⟨t, ht, .inl hb⟩
    | reset => exact ⟨_, rfl, .inl rfl⟩

/-- From any state some step, at most one past the schedule's length, leaves no command running (70_reset_and_hazards.md
R356). -/
theorem exists_run_idle (n : Nat) (s : State) (hn : s.events.length = n) :
    ∃ k t, 1 ≤ k ∧ k ≤ n + 1 ∧ core.run k s = .next t ∧ t.busy = false := by
  induction n generalizing s with
  | zero =>
    obtain ⟨t, ht, hb | hlen⟩ := step_answers s
    · exact ⟨1, t, le_rfl, le_rfl, run_of_step (M := core) 0 ht, hb⟩
    · omega
  | succ n ih =>
    obtain ⟨t, ht, hb | hlen⟩ := step_answers s
    · exact ⟨1, t, le_rfl, by omega, run_of_step (M := core) 0 ht, hb⟩
    · obtain ⟨k, u, h1, hk, hrun, hb⟩ := ih t (by omega)
      exact ⟨k + 1, u, by omega, by omega, (run_of_step (M := core) k ht).trans hrun, hb⟩

/-- Settles O18: each step ends the command or shortens the schedule; the engine's turn comes when the schedule is
over. -/
theorem blockNeverHalts : Obligations.BlockNeverHalts :=
  ⟨fun s => (step_answers s).imp fun _ h => h.1, fun s _ => exists_run_idle _ s rfl⟩

end Sys2Proof.Machine
end

section
/-! PROOFS. Reset and the host protocol (70_reset_and_hazards.md R340, R341, R351–R354): the reset state, what sets and
clears HERR, PADDR's advance, and a command under the host's accesses. -/

namespace Sys2Proof.Machine

variable {s t : State} {i : Instr}

/-! ### Reset -/

/-- A reset needs of the state before it only that PMEM_WORDS is in its range (20_memory.md R80). -/
theorem inv_resetBlock (h : 1024 ≤ s.pmemWords ∧ s.pmemWords ≤ 2 ^ 31) : (resetBlock s).Inv where
  words := h
  memWf := List.Pairwise.nil
  memBelow _ hc := absurd hc List.not_mem_nil
  field hr := absurd hr (by simp)
  noField _ _ := ⟨rfl, rfl, rfl, rfl⟩
  running hb := absurd hb (by simp)
  record := by simp

/-- Settles O17: a reset of the reset state is that state, and its PMEM_WORDS is in range. -/
theorem resetMeetsInvariant : Obligations.ResetMeetsInvariant := inv_resetBlock (s := State.reset) (by decide)

/-- Settles O14: the step is `resetBlock`, whose fields are constants but for PARAM, the schedule and the draw
counter. -/
theorem resetGivesResetState : Obligations.ResetGivesResetState := by
  intro s t rest hs hstep
  rw [step_of_events hs] at hstep
  obtain rfl := Host.Outcome.next.inj hstep
  have hzero (k : Fin 6) : (Vector.replicate 6 (0 : Word))[k] = 0 := Vector.getElem_replicate k.isLt
  exact ⟨rfl, rfl, rfl, rfl, rfl, rfl, rfl, rfl, rfl, rfl, rfl, rfl, rfl, rfl, rfl, fun k => ⟨hzero k, hzero k⟩,
    rfl, rfl, rfl, rfl, rfl, rfl, fun i => Table.read_blank .., fun v => Table.read_blank .., fun a => rfl, rfl⟩

/-! ### PDATA -/

/-- A refused PDATA access sets HERR and answers (10_state.md R33). -/
theorem step_pdata_of_blocked (s : State) (op : BusOp) (rest : List Event)
    (h : s.busy = true ∨ s.pmemWords ≤ s.paddr.toNat) :
    ∃ r, step { s with events := .access ⟨0x03C, 4, op⟩ :: rest }
      = .next { s with events := rest, herr := true, resp := r } := by
  cases op with
  | read =>
    obtain ⟨hblocked, -⟩ := pdataAccess s 0 rest
    exact ⟨_, (hblocked h).1⟩
  | write v =>
    obtain ⟨hblocked, -⟩ := pdataAccess s v rest
    exact ⟨_, (hblocked h).2⟩

/-- A performed PDATA access advances PADDR and leaves HERR (10_state.md R33). -/
theorem step_pdata_of_not_blocked (s : State) (op : BusOp) (rest : List Event)
    (h : ¬(s.busy = true ∨ s.pmemWords ≤ s.paddr.toNat)) :
    ∃ t, step { s with events := .access ⟨0x03C, 4, op⟩ :: rest } = .next t ∧ t.paddr = s.paddr + 1
      ∧ t.herr = s.herr := by
  cases op with
  | read =>
    obtain ⟨-, hfree, -⟩ := pdataAccess s 0 rest
    obtain ⟨hread, -⟩ := hfree h
    exact ⟨_, hread, rfl, rfl⟩
  | write v =>
    obtain ⟨-, hfree, -⟩ := pdataAccess s v rest
    obtain ⟨-, t, hwrite, -, -, ht⟩ := hfree h
    exact ⟨t, hwrite, ht ▸ rfl, ht ▸ rfl⟩

/-- Settles O11: an access goes through only with PADDR below PMEM_WORDS, which the invariant bounds by `2^31`. -/
theorem paddrNeverWraps : Obligations.PaddrNeverWraps := by
  intro s t op rest hs hstep
  by_cases hb : s.busy = true ∨ s.pmemWords ≤ s.paddr.toNat
  · obtain ⟨r, ht⟩ := step_pdata_of_blocked s op rest hb
    obtain rfl := Host.Outcome.next.inj (ht.symm.trans hstep)
    exact .inr ⟨rfl, hb, rfl⟩
  · obtain ⟨u, hu, hpaddr, hherr⟩ := step_pdata_of_not_blocked s op rest hb
    obtain rfl := Host.Outcome.next.inj (hu.symm.trans hstep)
    have hlt : s.paddr.toNat < s.pmemWords := Nat.lt_of_not_le fun hle => hb (.inr hle)
    have hwords : s.pmemWords ≤ 2 ^ 31 := hs.words.2
    refine .inl ⟨?_, hlt, hherr⟩
    rw [hpaddr]
    exact BitVec.toNat_add_of_lt (y := 1#32) (by simp only [BitVec.toNat_ofNat]; omega)

/-! ### HERR -/

/-- A host-protocol error sets HERR, answers, and does nothing else. -/
theorem step_protocolError {e : Event} {rest : List Event} (hs : s.events = e :: rest) (he : s.ProtocolError e)
    (hstep : step s = .next t) : ∃ r, t = { s with events := rest, herr := true, resp := r } := by
  rcases he with ⟨v, rfl, hb⟩ | ⟨op, rfl, hb⟩
  · have hdropped : writeCmd v { s with events := rest } = { s with events := rest, herr := true } := if_pos hb
    refine ⟨.ack, (step_write_of_events hs rfl hstep).trans ?_⟩
    exact congrArg (fun u : State => { u with resp := BusResp.ack }) hdropped
  · have hhead : { s with events := .access ⟨0x03C, 4, op⟩ :: rest } = s := by rw [← hs]
    obtain ⟨r, ht⟩ := step_pdata_of_blocked s op rest hb
    rw [hhead] at ht
    exact ⟨r, Host.Outcome.next.inj (hstep.symm.trans ht)⟩

/-- What a host access does to HERR. -/
theorem AccessEffect.herr_cases {a : BusAccess} (h : AccessEffect a s t) :
    t.herr = s.herr ∨ (s.ProtocolError (.access a) ∧ t.herr = true)
      ∨ ∃ v, a = BusAccess.write 0x00C v ∧ t.herr = (s.herr && !v.getLsbD 4) := by
  cases h with
  | answer _ _ h | pdataRead _ _ _ h | pdataWrite _ _ _ _ h | ctrl _ _ h | accepted _ _ _ h | arg _ _ _ h
  | paddr _ _ h => exact .inl (h ▸ rfl)
  | protocol _ he h => exact .inr (.inl ⟨he, h ▸ rfl⟩)
  | status v ha h => exact .inr (.inr ⟨v, ha, h ▸ rfl⟩)

/-- The engine's turn leaves HERR, whether or not a command completes. -/
theorem TurnEffect.herr_eq (h : TurnEffect s t) : t.herr = s.herr := by
  cases h with
  | idle _ h | illegal _ _ h => exact h ▸ rfl
  | command _ _ _ h =>
    cases h with
    | fault _ _ h | effect _ _ _ _ h | buildFault _ _ _ h | field _ _ _ h => exact h ▸ rfl

/-- What a step on the event `e` does to HERR. -/
theorem herr_of_step {e : Event} {rest : List Event} (hs : s.events = e :: rest) (hstep : step s = .next t) :
    t.herr = s.herr ∨ (s.ProtocolError e ∧ t.herr = true) ∨ (e = .reset ∧ t.herr = false)
      ∨ ∃ v, e = .access (BusAccess.write 0x00C v) ∧ t.herr = (s.herr && !v.getLsbD 4) := by
  cases step_effect hstep with
  | access a rest' hs' h =>
    obtain ⟨rfl, rfl⟩ := List.cons.inj (hs.symm.trans hs')
    rcases h.herr_cases with hkeep | hset | ⟨v, rfl, hw1c⟩
    · exact .inl hkeep
    · exact .inr (.inl hset)
    · exact .inr (.inr (.inr ⟨v, rfl, hw1c⟩))
  | reset rest' hs' h => exact .inr (.inr (.inl ⟨(List.cons.inj (hs.symm.trans hs')).1, h ▸ rfl⟩))
  | turn _ h => exact .inl h.herr_eq

/-- Settles O13: the effect of the listed accesses, and for every other event what its step does to HERR. -/
theorem herrSetExactly : Obligations.HerrSetExactly := by
  refine fun s t hstep => ⟨fun e rest hs => ⟨fun he => step_protocolError hs he hstep, fun he h0 => ?_,
    fun h1 h0 => ?_⟩, fun hs => ?_⟩
  · rcases herr_of_step hs hstep with hkeep | ⟨herror, -⟩ | ⟨-, hclear⟩ | ⟨v, -, hw1c⟩
    · exact hkeep.trans h0
    · exact absurd herror he
    · exact hclear
    · rw [hw1c, h0, Bool.false_and]
  · rcases herr_of_step hs hstep with hkeep | ⟨-, hset⟩ | ⟨hreset, -⟩ | ⟨v, hv, hw1c⟩
    · exact absurd (hkeep.trans h1) (by simp [h0])
    · exact absurd hset (by simp [h0])
    · exact .inl hreset
    · exact .inr ⟨v, hv, by simpa [h0, h1] using hw1c⟩
  · rw [step_of_events_nil hs] at hstep
    exact (engineTurn_effect hstep).herr_eq

/-! ### A command under the host's accesses -/

/-- The state without what a host access can change while a command runs (70_reset_and_hazards.md R351): IE, DONE,
HERR, the ARG registers, PADDR and the bus's answer. -/
def State.engineView (s : State) : State :=
  { s with ie := false, done := false, herr := false, args := Vector.replicate 6 0, paddr := 0, resp := .none }

theorem AccessEffect.engineView_eq {a : BusAccess} (h : AccessEffect a s t) (hb : s.busy = true) :
    t.engineView = s.engineView := by
  cases h with
  | answer _ _ h | protocol _ _ h | ctrl _ _ h | status _ _ h | arg _ _ _ h | paddr _ _ h => exact h ▸ rfl
  | pdataRead _ hidle _ _ | pdataWrite _ _ hidle _ _ | accepted _ _ hidle _ => exact absurd hb (by simp [hidle])

/-- No rule reads what the view leaves out: operands come from the latch (10_state.md R31). -/
theorem ruleOf_engineView (i : Instr) (s : State) : ruleOf i s.engineView = ruleOf i s := by
  cases i <;> rfl

theorem conclude_engineView (r : Rule) (s : State) :
    conclude r s.engineView = { (conclude r s).engineView with done := (conclude r s).done } := by
  cases r <;> rfl

/-- A command does in the view what it does in the state, and sets DONE in both. -/
theorem exec_engineView (h : exec i s = .next t) : exec i s.engineView = .next { t.engineView with done := t.done } := by
  by_cases hi : i = .build
  · subst hi
    have hrule : ruleBuild s.engineView = ruleBuild s := rfl
    rw [exec, execBuild] at h ⊢
    rw [hrule]
    cases hr : ruleBuild s with
    | ok _ | error _ =>
      rw [hr] at h
      exact Host.Outcome.next.inj h ▸ rfl
  · rw [exec_eq_runCommand hi] at h ⊢
    obtain rfl := Host.Outcome.next.inj h
    rw [runCommand, ruleOf_engineView, conclude_engineView]
    rfl

/-- Settles O24: the access leaves the engine's view as it was, and the view determines the completion. -/
theorem hostCannotDisturbRunningCommand : Obligations.HostCannotDisturbRunningCommand := by
  intro s t t' a i hb h h'
  have hview : (hostAccess a s).engineView = s.engineView := (hostAccess_effect a s).engineView_eq hb
  have hafter := exec_engineView h'
  rw [hview, exec_engineView h] at hafter
  simp only [State.engineView, Host.Outcome.next.injEq, State.mk.injEq] at hview hafter
  simp [hview, hafter, hb]

end Sys2Proof.Machine
end
